-- ==== Sys2Proof/Word.lean ====
section
/-!
DEFINITION. The plain value types of the block: bytes, 16-bit values, instants, the four
pseudo-registers, the payload of one bus write, and the word in which a command stands at the
host command port.
-/

namespace Sys2Proof

/-- A byte is bits 7..0 (00_scope.md R9). -/
abbrev Byte := BitVec 8

/-- A 16-bit value: the operand of `Write`, the result of a RAM read (30_encoding.md R70, R86). -/
abbrev Half := BitVec 16

/-- A natural number of microseconds since an arbitrary origin, unbounded (00_scope.md R10). -/
abbrev Instant := Nat

/-- A natural number of microseconds (00_scope.md R10). -/
abbrev Duration := Nat

/-- The four pseudo-registers of the chip on a line (20_memory.md R50, R51). -/
inductive Reg where
  | cmd | status | dataWr | dataRd
  deriving DecidableEq, Repr

/-- The two columns of the mode-dependent decoding (30_encoding.md R76, R87). -/
inductive CmdSet where
  | basic | extendedOrGraphic
  deriving DecidableEq, Repr

/-- The value of one bus write: one byte or a 16-bit value (20_memory.md R52, `n` in 1, 2). -/
inductive Payload where
  | one (b : Byte)
  | two (v : Half)
  deriving DecidableEq, Repr

/-- A command as it stands at the host command port before it is decoded: the line index, the
command set, the register and the bytes of 30_encoding.md R87. The form is the model's
(DESIGN CHOICE, log 6). -/
structure PortWord where
  line : Nat
  set : CmdSet
  reg : Reg
  bytes : List Byte
  deriving DecidableEq, Repr

end Sys2Proof
end

