-- ==== Sys2Proof/Config.lean ====
section
/-!
DEFINITION. What is fixed for the life of an instance (00_scope.md R6 to R8), and the free values:
constants without a body, of which nothing can be proved.
-/

namespace Sys2Proof

/-- The transport of an instance (00_scope.md R6, `BUS`). -/
inductive Bus where
  | par4 | par8 | ser
  deriving DecidableEq, Repr

/-- `BUS` is `PAR4` or `PAR8`. -/
def Bus.isParallel : Bus → Bool
  | .par4 => true
  | .par8 => true
  | .ser => false

/-- Whether `Write` is subject to the Basic-set mode transition (00_scope.md R8). -/
inductive WriteModePolicy where
  | basicSet | neutral
  deriving DecidableEq, Repr

/-- The four bytes of `CursorDisplayCtrl`, by (`shift_display`, `right`): the parameter
`CURSOR_DISPLAY_CTRL_BYTE` (30_encoding.md R78, 92_eei_decisions.md D18). -/
structure CursorCtrlBytes where
  b00 : Byte
  b01 : Byte
  b10 : Byte
  b11 : Byte
  deriving DecidableEq, Repr

/-- The spec's default bytes, `0x10 | (shift_display << 3) | (right << 2)` (30_encoding.md R78;
PRESUMED there from general knowledge, log 14). -/
def CursorCtrlBytes.default : CursorCtrlBytes := ⟨0x10, 0x14, 0x18, 0x1C⟩

/-- The parameters of one instance (00_scope.md R6 to R8). The number of lines `N` is the number
of per-line entries a state holds; `PinErr` and `LinkErr` are numbers (log 10). -/
structure Params where
  /-- `BUS` -/
  bus : Bus
  /-- `T_PW`, OPEN -/
  tPw : Duration
  /-- `T_INIT_SETTLE`, OPEN -/
  tInitSettle : Duration
  /-- `T_READ` -/
  tRead : Duration
  /-- `WRITE_MODE_POLICY` -/
  writePolicy : WriteModePolicy
  /-- `BUSY_POLL` -/
  busyPoll : Bool
  /-- `CURSOR_DISPLAY_CTRL_BYTE` -/
  cursorCtrl : CursorCtrlBytes
  deriving DecidableEq, Repr

/-- The width `W` of the data wires (00_scope.md R6); of no consequence on `SER`. -/
def Params.width (p : Params) : Nat :=
  match p.bus with
  | .par4 => 4
  | .par8 => 8
  | .ser => 8

/-- The enable pulse width, named by the spec and given no value (OPEN, log 3): a free value. -/
opaque Config.openPulseWidth : Duration

/-- The settle delay of `init`, named by the spec and given no value (OPEN, log 3): a free value. -/
opaque Config.openInitSettle : Duration

/-- The time that passes before the `n`-th primitive not covered by the state's own input, less one
microsecond: there the clock advances (00_scope.md R10, 44_timing_scheduler.md R198, log 1): a free
value. -/
opaque Config.freeTick : Nat → Duration

/-- What the chip puts on the data wires at the `n`-th sample not covered by the state's own input
(20_memory.md R59, 93_implementation_defined.md U5, log 1): a free value. -/
opaque Config.freeSample : Nat → Byte

/-- The levels of the data wires after a failed drive (10_state.md R34, 93_implementation_defined.md
U7, log 11): a free value. -/
opaque Config.freeWires : Nat → Byte

/-- The parameters `State.reset` has: the defaults of 92_eei_decisions.md, the OPEN ones free, and
`PAR8` for `BUS`, which has no default (DESIGN CHOICE, log 3). -/
def Config.defaultParams : Params where
  bus := .par8
  tPw := Config.openPulseWidth
  tInitSettle := Config.openInitSettle
  tRead := 72
  writePolicy := .basicSet
  busyPoll := false
  cursorCtrl := .default

/-- The default number of lines (92_eei_decisions.md, `N`). -/
def Config.defaultLines : Nat := 2

end Sys2Proof
end

