-- ==== Sys2Proof/Syntax.lean ====
section
/-!
DEFINITION. The instructions: one constructor per row of spec/opcode_table.json. The first operand
of each is the line index `i` (46_shared_bus.md R242); a field is a bit vector of exactly its
width, a one-bit field a Bool (30_encoding.md R70, 92_eei_decisions.md D19).
-/

namespace Sys2Proof

/-- The 17 commands of 30_encoding.md R70 and the 2 read operations of R86. -/
inductive Instr where
  /-- `Write(data)`, 40_commands_basic.md R101 -/
  | write (i : Nat) (data : Half)
  /-- `Clear`, R102 -/
  | clear (i : Nat)
  /-- `Home`, R103 -/
  | home (i : Nat)
  /-- `EntryMode`, R104 -/
  | entryMode (i : Nat) (increment shift : Bool)
  /-- `DisplayOnOff`, R105 -/
  | displayOnOff (i : Nat) (display cursor blink : Bool)
  /-- `CursorDisplayCtrl`, R106 -/
  | cursorDisplayCtrl (i : Nat) (shiftDisplay right : Bool)
  /-- `SelectBasic`, R107 -/
  | selectBasic (i : Nat)
  /-- `CgRamAddr(addr)`, R108 -/
  | cgRamAddr (i : Nat) (addr : BitVec 6)
  /-- `DdRamAddr(addr)`, R109 -/
  | ddRamAddr (i : Nat) (addr : BitVec 7)
  /-- `StandBy`, 41_commands_extended.md R121 -/
  | standBy (i : Nat)
  /-- `EnableScroll`, R122 -/
  | enableScroll (i : Nat)
  /-- `EnableCgRam`, R123 -/
  | enableCgRam (i : Nat)
  /-- `Reverse(line)`, R124 -/
  | reverse (i : Nat) (line : BitVec 2)
  /-- `SelectExtended`, R125 -/
  | selectExtended (i : Nat)
  /-- `SelectGraphic`, R126 -/
  | selectGraphic (i : Nat)
  /-- `ScrollOffset(offset)`, R127 -/
  | scrollOffset (i : Nat) (offset : BitVec 5)
  /-- `GraphicRamAddr` with `x` and `y`, R128 -/
  | graphicRamAddr (i : Nat) (x : BitVec 6) (y : BitVec 4)
  /-- `read_status`, the row READ_STATUS, 47_facade.md R264 -/
  | readStatus (i : Nat)
  /-- `read_ram`, the row READ_RAM, 47_facade.md R265 -/
  | readRam (i : Nat)
  deriving DecidableEq, Repr

/-- The line index an instruction names. -/
def Instr.line : Instr → Nat
  | .write i _ => i
  | .clear i => i
  | .home i => i
  | .entryMode i _ _ => i
  | .displayOnOff i _ _ _ => i
  | .cursorDisplayCtrl i _ _ => i
  | .selectBasic i => i
  | .cgRamAddr i _ => i
  | .ddRamAddr i _ => i
  | .standBy i => i
  | .enableScroll i => i
  | .enableCgRam i => i
  | .reverse i _ => i
  | .selectExtended i => i
  | .selectGraphic i => i
  | .scrollOffset i _ => i
  | .graphicRamAddr i _ _ => i
  | .readStatus i => i
  | .readRam i => i

/-- The two read operations, which exist on a parallel bus only (47_facade.md R267). -/
def Instr.isRead : Instr → Bool
  | .readStatus _ => true
  | .readRam _ => true
  | .write _ _ | .clear _ | .home _ | .entryMode _ _ _ | .displayOnOff _ _ _ _
  | .cursorDisplayCtrl _ _ _ | .selectBasic _ | .cgRamAddr _ _ | .ddRamAddr _ _ | .standBy _
  | .enableScroll _ | .enableCgRam _ | .reverse _ _ | .selectExtended _ | .selectGraphic _
  | .scrollOffset _ _ | .graphicRamAddr _ _ _ => false

end Sys2Proof
end

