-- ==== Sys2Proof/Machine/Command.lean ====
section
/-!
DEFINITION. The command model: the 17 commands without their line, their bytes, their execution
times and their classes (30_encoding.md R70 to R80, R88, R89; 45_mode_machine.md R212).
-/

namespace Sys2Proof.Machine

/-- The closed union of 30_encoding.md R70. -/
inductive Command where
  | write (data : Half)
  | clear
  | home
  | entryMode (increment shift : Bool)
  | displayOnOff (display cursor blink : Bool)
  | cursorDisplayCtrl (shiftDisplay right : Bool)
  | selectBasic
  | cgRamAddr (addr : BitVec 6)
  | ddRamAddr (addr : BitVec 7)
  | standBy
  | enableScroll
  | enableCgRam
  | reverse (line : BitVec 2)
  | selectExtended
  | selectGraphic
  | scrollOffset (offset : BitVec 5)
  | graphicRamAddr (x : BitVec 6) (y : BitVec 4)
  deriving DecidableEq, Repr

/-- The command an instruction issues; the two reads issue none. -/
def commandOf : Instr → Option Command
  | .write _ d => some (.write d)
  | .clear _ => some .clear
  | .home _ => some .home
  | .entryMode _ inc sh => some (.entryMode inc sh)
  | .displayOnOff _ d c b => some (.displayOnOff d c b)
  | .cursorDisplayCtrl _ sd r => some (.cursorDisplayCtrl sd r)
  | .selectBasic _ => some .selectBasic
  | .cgRamAddr _ a => some (.cgRamAddr a)
  | .ddRamAddr _ a => some (.ddRamAddr a)
  | .standBy _ => some .standBy
  | .enableScroll _ => some .enableScroll
  | .enableCgRam _ => some .enableCgRam
  | .reverse _ l => some (.reverse l)
  | .selectExtended _ => some .selectExtended
  | .selectGraphic _ => some .selectGraphic
  | .scrollOffset _ o => some (.scrollOffset o)
  | .graphicRamAddr _ x y => some (.graphicRamAddr x y)
  | .readStatus _ => none
  | .readRam _ => none

/-- The instruction that issues a command on a line. -/
def instrOf (i : Nat) : Command → Instr
  | .write d => .write i d
  | .clear => .clear i
  | .home => .home i
  | .entryMode inc sh => .entryMode i inc sh
  | .displayOnOff d c b => .displayOnOff i d c b
  | .cursorDisplayCtrl sd r => .cursorDisplayCtrl i sd r
  | .selectBasic => .selectBasic i
  | .cgRamAddr a => .cgRamAddr i a
  | .ddRamAddr a => .ddRamAddr i a
  | .standBy => .standBy i
  | .enableScroll => .enableScroll i
  | .enableCgRam => .enableCgRam i
  | .reverse l => .reverse i l
  | .selectExtended => .selectExtended i
  | .selectGraphic => .selectGraphic i
  | .scrollOffset o => .scrollOffset i o
  | .graphicRamAddr x y => .graphicRamAddr i x y

/-- A one-bit field in bit 0 of a byte (30_encoding.md R72). -/
def bitByte (b : Bool) : Byte := if b then 1#8 else 0#8

/-- The byte of `CursorDisplayCtrl` under the parameter `CURSOR_DISPLAY_CTRL_BYTE`
(30_encoding.md R78). -/
def cursorCtrlByte (k : CursorCtrlBytes) : Bool → Bool → Byte
  | false, false => k.b00
  | false, true => k.b01
  | true, false => k.b10
  | true, true => k.b11

/-- `into_bytes` (30_encoding.md R72 to R75, R88): `base | fields`, each field zero-extended,
masked to its width and shifted to its place. `Write` is outside its domain (R80). -/
def intoBytes (k : CursorCtrlBytes) : Command → Option Payload
  | .write _ => none
  | .clear => some (.one 0x01#8)
  | .home => some (.one 0x02#8)
  | .entryMode inc sh => some (.one (0x04#8 ||| (bitByte inc <<< 1) ||| bitByte sh))
  | .displayOnOff d c b =>
    some (.one (0x08#8 ||| (bitByte d <<< 2) ||| (bitByte c <<< 1) ||| bitByte b))
  | .cursorDisplayCtrl sd r => some (.one (cursorCtrlByte k sd r))
  | .selectBasic => some (.one 0x20#8)
  | .cgRamAddr a => some (.one (0x40#8 ||| (a.setWidth 8 &&& 0x3F#8)))
  | .ddRamAddr a => some (.one (0x80#8 ||| (a.setWidth 8 &&& 0x7F#8)))
  | .standBy => some (.one 0x01#8)
  | .enableScroll => some (.one 0x03#8)
  | .enableCgRam => some (.one 0x02#8)
  | .reverse l => some (.one (0x04#8 ||| (l.setWidth 8 &&& 0x03#8)))
  | .selectExtended => some (.one 0x24#8)
  | .selectGraphic => some (.one 0x26#8)
  | .scrollOffset o => some (.one (0x40#8 ||| (o.setWidth 8 &&& 0x1F#8)))
  | .graphicRamAddr x y =>
    some (.two ((0x80#8 ||| (y.setWidth 8 &&& 0x0F#8)) ++ (0x80#8 ||| (x.setWidth 8 &&& 0x3F#8))))

/-- The register and the value a command puts on the bus (44_timing_scheduler.md R193): `Write`
goes to `DATA_WR` unchanged (30_encoding.md R80), every other command to `CMD`. -/
def commandAccess (k : CursorCtrlBytes) (c : Command) : Reg × Payload :=
  match c with
  | .write d => (.dataWr, .two d)
  | c => (.cmd, (intoBytes k c).getD (.one 0#8))

/-- `T_EXEC_CLEAR` (00_scope.md R7). -/
def tExecClear : Duration := 1600

/-- `T_EXEC` (00_scope.md R7). -/
def tExec : Duration := 72

/-- `T_POWERUP` (00_scope.md R7). -/
def tPowerUp : Duration := 80000

/-- `T_POLL_CEIL` (00_scope.md R7). -/
def tPollCeil : Duration := 1000

/-- `execution_time` (30_encoding.md R89): it depends on the variant only. -/
def executionTime : Command → Duration
  | .clear => tExecClear
  | .write _ | .home | .entryMode _ _ | .displayOnOff _ _ _ | .cursorDisplayCtrl _ _
  | .selectBasic | .cgRamAddr _ | .ddRamAddr _ | .standBy | .enableScroll | .enableCgRam
  | .reverse _ | .selectExtended | .selectGraphic | .scrollOffset _ | .graphicRamAddr _ _ => tExec

/-- The command classes of 45_mode_machine.md R212. -/
inductive CmdClass where
  | basicOp | extOp | selB | selE | selG | neutral
  deriving DecidableEq, Repr

/-- The class of a command (45_mode_machine.md R212). -/
def classOf (policy : WriteModePolicy) : Command → CmdClass
  | .write _ => match policy with
    | .basicSet => .basicOp
    | .neutral => .neutral
  | .clear | .home | .entryMode _ _ | .displayOnOff _ _ _ | .cursorDisplayCtrl _ _
  | .cgRamAddr _ | .ddRamAddr _ => .basicOp
  | .standBy | .enableScroll | .enableCgRam | .reverse _ | .scrollOffset _
  | .graphicRamAddr _ _ => .extOp
  | .selectBasic => .selB
  | .selectExtended => .selE
  | .selectGraphic => .selG

/-- The set the table files a command under (30_encoding.md R70). -/
def commandSet : Command → CmdSet
  | .write _ | .clear | .home | .entryMode _ _ | .displayOnOff _ _ _ | .cursorDisplayCtrl _ _
  | .selectBasic | .cgRamAddr _ | .ddRamAddr _ => .basic
  | .standBy | .enableScroll | .enableCgRam | .reverse _ | .selectExtended | .selectGraphic
  | .scrollOffset _ | .graphicRamAddr _ _ => .extendedOrGraphic

/-- The bytes of a payload in the order in which they go out: most significant first
(20_memory.md R54). -/
def payloadBytes : Payload → List Byte
  | .one b => [b]
  | .two v => [v.extractLsb' 8 8, v.extractLsb' 0 8]

end Sys2Proof.Machine
end

