-- ==== Sys2Proof/WellFormed.lean ====
section
/-!
DEFINITION. The checks that types do not already make: that an instance's parameters are legal
(00_scope.md R6, R8; 92_eei_decisions.md, the table of open parameters), and that an instruction
is one the instance has (46_shared_bus.md R242, 47_facade.md R267). The widths of fields are in
the types (92_eei_decisions.md D19).
-/

namespace Sys2Proof

/-- The Basic-set bytes other than `CursorDisplayCtrl`'s, and the select bytes
(30_encoding.md R73, R75). -/
def isOtherBasicByte (b : Byte) : Bool :=
  b == 0x01#8 || b == 0x02#8 || (b &&& 0xFC#8) == 0x04#8 || (b &&& 0xF8#8) == 0x08#8
    || b == 0x20#8 || b == 0x24#8 || b == 0x26#8 || (b &&& 0xC0#8) == 0x40#8
    || (b &&& 0x80#8) == 0x80#8

/-- `CURSOR_DISPLAY_CTRL_BYTE` is disjoint from the other Basic-set bytes (92_eei_decisions.md). -/
def CursorCtrlBytes.wf (k : CursorCtrlBytes) : Bool :=
  !isOtherBasicByte k.b00 && !isOtherBasicByte k.b01 && !isOtherBasicByte k.b10
    && !isOtherBasicByte k.b11

/-- `BUSY_POLL` is true only on a parallel bus (00_scope.md R8). -/
def Params.pollLegal (p : Params) : Bool := !p.busyPoll || p.bus.isParallel

/-- Legal parameters with `n` lines: `N >= 1` (00_scope.md R6), `BUSY_POLL` and the cursor bytes
as above. -/
def Params.wf (p : Params) (n : Nat) : Bool :=
  decide (1 ≤ n) && p.pollLegal && p.cursorCtrl.wf

/-- The line index names a line (46_shared_bus.md R242). -/
def Instr.lineOk (n : Nat) (c : Instr) : Bool := decide (c.line < n)

/-- The operation exists on the instance's transport (47_facade.md R267). -/
def Instr.available (b : Bus) (c : Instr) : Bool := !c.isRead || b.isParallel

/-- An instruction an instance with parameters `p` and `n` lines can be asked to perform. -/
def Instr.wf (p : Params) (n : Nat) (c : Instr) : Bool := c.lineOk n && c.available p.bus

end Sys2Proof
end

