-- ==== Sys2Proof/Decode.lean ====
section
/-!
DEFINITION. The inverse map of 30_encoding.md R87, total on any bytes and rejecting by name, and
the encoder beside it. The line index of a port word passes through unread.
-/

namespace Sys2Proof

/-- Why a port word is no command. -/
inductive DecodeError where
  /-- a byte on `CMD` that is no command of the set (30_encoding.md R81, R87) -/
  | reservedByte (set : CmdSet) (b : Byte)
  /-- a `GraphicRamAddr` first byte with no second byte (30_encoding.md R87) -/
  | missingSecondByte (b : Byte)
  /-- a second byte that is not `10xx xxxx` (30_encoding.md R87) -/
  | badSecondByte (b1 b2 : Byte)
  /-- a number of bytes no command of the register has (30_encoding.md R71) -/
  | wrongLength (reg : Reg) (n : Nat)
  deriving DecidableEq, Repr

/-- A one-byte command of the Basic set (30_encoding.md R73, R75). `0x26` is reserved there: it is never
sent in Basic (R81, 93_implementation_defined.md U1; log 22). -/
def decodeBasicByte (i : Nat) (b : Byte) : Except DecodeError Instr :=
  if b = 0x20#8 then .ok (.selectBasic i)
  else if b = 0x24#8 then .ok (.selectExtended i)
  else if b = 0x01#8 then .ok (.clear i)
  else if b = 0x02#8 then .ok (.home i)
  else if b &&& 0xFC#8 = 0x04#8 then .ok (.entryMode i (b.getLsbD 1) (b.getLsbD 0))
  else if b &&& 0xF8#8 = 0x08#8 then
    .ok (.displayOnOff i (b.getLsbD 2) (b.getLsbD 1) (b.getLsbD 0))
  else if b &&& 0xF3#8 = 0x10#8 then .ok (.cursorDisplayCtrl i (b.getLsbD 3) (b.getLsbD 2))
  else if b &&& 0xC0#8 = 0x40#8 then .ok (.cgRamAddr i (b.extractLsb' 0 6))
  else if b &&& 0x80#8 = 0x80#8 then .ok (.ddRamAddr i (b.extractLsb' 0 7))
  else .error (.reservedByte .basic b)

/-- A one-byte command of the Extended/Graphic set (30_encoding.md R74, R75). -/
def decodeExtendedByte (i : Nat) (b : Byte) : Except DecodeError Instr :=
  if b = 0x20#8 then .ok (.selectBasic i)
  else if b = 0x24#8 then .ok (.selectExtended i)
  else if b = 0x26#8 then .ok (.selectGraphic i)
  else if b = 0x01#8 then .ok (.standBy i)
  else if b = 0x02#8 then .ok (.enableCgRam i)
  else if b = 0x03#8 then .ok (.enableScroll i)
  else if b &&& 0xFC#8 = 0x04#8 then .ok (.reverse i (b.extractLsb' 0 2))
  else if b &&& 0xE0#8 = 0x40#8 then .ok (.scrollOffset i (b.extractLsb' 0 5))
  else if b &&& 0xF0#8 = 0x80#8 then .error (.missingSecondByte b)
  else .error (.reservedByte .extendedOrGraphic b)

/-- The two-byte command of the Extended/Graphic set (30_encoding.md R74, R87). -/
def decodeExtendedPair (i : Nat) (b1 b2 : Byte) : Except DecodeError Instr :=
  if b1 &&& 0xF0#8 = 0x80#8 then
    if b2 &&& 0xC0#8 = 0x80#8 then
      .ok (.graphicRamAddr i (b2.extractLsb' 0 6) (b1.extractLsb' 0 4))
    else .error (.badSecondByte b1 b2)
  else .error (.wrongLength .cmd 2)

/-- `decode(set, reg, bytes)` of 30_encoding.md R87, with the two reads, which are a register
selection and carry no bytes (R86). -/
def decode (w : PortWord) : Except DecodeError Instr :=
  match w.reg with
  | .cmd =>
    match w.set, w.bytes with
    | .basic, [b] => decodeBasicByte w.line b
    | .extendedOrGraphic, [b] => decodeExtendedByte w.line b
    | .extendedOrGraphic, [b1, b2] => decodeExtendedPair w.line b1 b2
    | _, bs => .error (.wrongLength .cmd bs.length)
  | .dataWr =>
    match w.bytes with
    | [h, l] => .ok (.write w.line (h ++ l))
    | bs => .error (.wrongLength .dataWr bs.length)
  | .status =>
    match w.bytes with
    | [] => .ok (.readStatus w.line)
    | bs => .error (.wrongLength .status bs.length)
  | .dataRd =>
    match w.bytes with
    | [] => .ok (.readRam w.line)
    | bs => .error (.wrongLength .dataRd bs.length)

/-- The port word of an instruction: the register and bytes of spec/opcode_table.json under the
set the table files it in; a read carries no bytes (30_encoding.md R86). -/
def encode (c : Instr) : PortWord :=
  match Machine.commandOf c with
  | some k =>
    let a := Machine.commandAccess .default k
    ⟨c.line, Machine.commandSet k, a.1, Machine.payloadBytes a.2⟩
  | none =>
    match c with
    | .readStatus i => ⟨i, .basic, .status, []⟩
    | c => ⟨c.line, .basic, .dataRd, []⟩

/-- The port word for a table word of `nbits` bits. The table gives neither line nor set: the line
is 0; one byte goes to `CMD` in the Basic set where that decodes, else in the Extended/Graphic set;
two bytes, the table's bits 15..8 first, are `GraphicRamAddr` where they match its pattern, else
`DATA_WR` (30_encoding.md R71, R76, R87: most specific pattern first; DESIGN CHOICE, log 6). No row
is wider, and a wider word is no command. -/
def tablePortWord (nbits w : Nat) : PortWord :=
  if nbits ≤ 8 then
    let b : Byte := BitVec.ofNat 8 w
    match decodeBasicByte 0 b with
    | .ok _ => ⟨0, .basic, .cmd, [b]⟩
    | .error _ => ⟨0, .extendedOrGraphic, .cmd, [b]⟩
  else if nbits ≤ 16 then
    let h : Byte := BitVec.ofNat 8 (w / 256)
    let l : Byte := BitVec.ofNat 8 w
    match decodeExtendedPair 0 h l with
    | .ok _ => ⟨0, .extendedOrGraphic, .cmd, [h, l]⟩
    | .error _ => ⟨0, .basic, .dataWr, [h, l]⟩
  else ⟨0, .basic, .cmd, []⟩

/-- The instruction read from a table word. -/
def decodeTableWord (nbits w : Nat) : Option Instr :=
  match decode (tablePortWord nbits w) with
  | .ok c => some c
  | .error _ => none

end Sys2Proof
end

