-- ==== Sys2Proof/Machine/State.lean ====
section
/-!
DEFINITION. The state of one instance of the block (10_state.md R20) as plain data, with the
inputs and the observation a model of it needs, and the state right after construction.
-/

namespace Sys2Proof.Machine

/-- The instruction set latched in the chip on a line, as the block records it (10_state.md R21). -/
inductive Mode where
  | basic | extended | graphic
  deriving DecidableEq, Repr

/-- The electrical direction of the data wires (10_state.md R25). -/
inductive Dir where
  | out | into
  deriving DecidableEq, Repr

/-- The registers private to one line (10_state.md R20; 46_shared_bus.md R243). -/
structure LineRegs where
  /-- `mode[i]`, R21 -/
  mode : Mode
  /-- `deadline[i]`, R22 -/
  deadline : Instant
  /-- `E[i]`, R24 -/
  e : Bool
  /-- `CS[i]`, R26 -/
  cs : Bool
  /-- The model's bookkeeping: nothing is known of the chip on this line
  (93_implementation_defined.md section 2, log 16). -/
  chipUnknown : Bool
  deriving DecidableEq, Repr

/-- A line right after construction at instant `t0` (10_state.md R35). -/
def LineRegs.atReset (t0 : Instant) : LineRegs where
  mode := .basic
  deadline := t0
  e := false
  cs := false
  chipUnknown := true

/-- The observable events (10_state.md R34). A `data` or `sample` value of a 4-wire bus stands in
the low four bits (log 17). -/
inductive Event where
  | rs (v : Bool)
  | rw (v : Bool)
  | en (i : Nat) (v : Bool)
  | data (v : Byte)
  | dir (d : Dir)
  | sample (v : Byte)
  | cs (i : Nat) (v : Bool)
  | link (b : Byte)
  | wait (t : Instant)
  deriving DecidableEq, Repr

/-- An event with the environment's instant at which it happened (log 1). -/
structure Stamped where
  instant : Instant
  ev : Event
  deriving DecidableEq, Repr

/-- The errors of the block (60_exceptions.md R281); the value recorded is a number (log 10). -/
inductive BlockError where
  /-- a failing pin primitive, code 1 -/
  | pinError (e : Nat)
  /-- a failing link primitive, code 2 -/
  | linkError (e : Nat)
  deriving DecidableEq, Repr

/-- What a host operation returns on the host result port (10_state.md R33, 00_scope.md R12). -/
inductive HostResult where
  /-- `Ok(())` -/
  | okUnit
  /-- `Ok((busy, address counter))` of `read_status` -/
  | okStatus (busy : Bool) (ac : BitVec 7)
  /-- `Ok(word)` of `read_ram` -/
  | okWord (w : Half)
  /-- the count `num` returns -/
  | count (n : Nat)
  /-- what `get` returns: the handle of a line is its index -/
  | handle (h : Option Nat)
  /-- `Err(e)` -/
  | err (e : BlockError)
  /-- the operation names no line and is not performed (46_shared_bus.md R242, log 7) -/
  | noHandle
  deriving DecidableEq, Repr

/-- The host operations (47_facade.md R260). `execute`, `write`, `read_status` and `read_ram` are
commands and reads, held undecoded; the others have no encoding. -/
inductive HostOp where
  | command (w : PortWord)
  | waitReady (i : Nat)
  | init (i : Nat)
  | num
  | get (index : Nat)
  deriving DecidableEq, Repr

/-- The environment of the block as plain data: its clock, and what it will answer (log 1). -/
structure Env where
  /-- the environment clock (00_scope.md R10) -/
  clock : Instant
  /-- the instant at which the clock stops, if it does (44_timing_scheduler.md R198, log 4) -/
  stopAt : Option Instant
  /-- the µs that pass before each coming primitive; beyond the end a free value -/
  ticks : List Duration
  /-- the values of the coming samples (20_memory.md R59); beyond the end a free value -/
  samples : List Byte
  /-- the outcome of each coming fallible primitive (00_scope.md R12): success or the error value;
  beyond the end success (log 10) -/
  verdicts : List (Option Nat)
  /-- how many free values have been drawn -/
  draws : Nat
  deriving DecidableEq, Repr

/-- The state of one instance. The first group is the block's own (10_state.md R20), the second
its parameters, the third what is observed of it (R34), the fourth its inputs. -/
structure State where
  /-- the per-line registers; their number is `N` -/
  lines : List LineRegs
  /-- `RS`, 10_state.md R23 -/
  rs : Bool
  /-- `RW`, 10_state.md R23 -/
  rw : Bool
  /-- `DATA`, 10_state.md R25 -/
  data : Byte
  /-- `DIR`, 10_state.md R25 -/
  dir : Dir
  /-- the parameters (00_scope.md R6 to R8), written by nothing -/
  cfg : Params
  /-- the levels the block puts on the data wires while `DIR` is `Out` (log 11) -/
  wires : Byte
  /-- the event trace, oldest first (10_state.md R34) -/
  trace : List Stamped
  /-- the results returned to the host, oldest first -/
  results : List HostResult
  /-- the host operations not yet started, next first (10_state.md R28, log 5) -/
  pending : List HostOp
  /-- the environment -/
  env : Env
  deriving DecidableEq, Repr

/-- Why the machine stops with a fault. -/
inductive Fault where
  /-- Raised by every wait, and by the busy poll for its ceiling: the environment clock stops before
  the instant `t`, so the operation never returns (44_timing_scheduler.md R198, 60_exceptions.md
  R297; log 4, log 13). Safe: the block hangs. -/
  | clockStopped (t : Instant)
  deriving DecidableEq, Repr

/-- Why the machine gives no meaning. -/
inductive Refusal where
  /-- Raised by `exec` for an instruction that has no meaning yet. Safe. -/
  | notModelled (mnemonic : String)
  /-- Raised by `step` for a port word that is no command (30_encoding.md R81, R87;
  93_implementation_defined.md U8). Safe: no host can issue it. -/
  | reservedEncoding (e : DecodeError)
  /-- Raised by the two reads on a `SER` instance, whose interface does not have them
  (47_facade.md R267, 43_serial_transport.md R176). Safe: no host can issue it. -/
  | absentOnSerial
  deriving DecidableEq, Repr

/-- The number of lines `N` (00_scope.md R6). -/
def State.numLines (s : State) : Nat := s.lines.length

/-- The registers of line `i`; of no meaning for `i >= N`, which no operation reaches. -/
def State.line (s : State) (i : Nat) : LineRegs := s.lines.getD i (.atReset 0)

/-- The state right after the construction of an instance with parameters `p` and `n` lines at
instant `t0` (10_state.md R35, 70_reset_and_hazards.md R310). The levels of `RS`, `RW` and `DATA`
are DESIGN CHOICE, unsafe (log 2). -/
def State.construct (p : Params) (n : Nat) (t0 : Instant) : State where
  lines := List.replicate n (.atReset t0)
  rs := false
  rw := false
  data := 0#8
  dir := .out
  cfg := p
  wires := 0#8
  trace := []
  results := []
  pending := []
  env := { clock := t0, stopAt := none, ticks := [], samples := [], verdicts := [], draws := 0 }

/-- The machine right after reset: construction with the default parameters (log 3) at the origin
of time (log 4). -/
def State.reset : State := .construct Config.defaultParams Config.defaultLines 0

end Sys2Proof.Machine
end

