-- ==== Sys2Proof/Machine/Ops.lean ====
section
/-!
DEFINITION. The primitives of 00_scope.md R11 over the state, how an operation in progress goes on
or ends, and raising an error (60_exceptions.md R283): the one shared operation by which anything
fails. There is no return from it (60_exceptions.md R284, R287).
-/

namespace Sys2Proof.Machine

/-- How a primitive, a helper or an access ends: with a value, with an error, or not at all. -/
inductive OpResult (α : Type) where
  | done (a : α) (s : State)
  | raised (e : BlockError) (s : State)
  | hung (f : Fault)
  deriving DecidableEq, Repr

/-- Statements execute strictly in the order written (00_scope.md R11): `f` runs only when `r` is
done. -/
def OpResult.andThen {α β : Type} (r : OpResult α) (f : α → State → OpResult β) : OpResult β :=
  match r with
  | .done a s => f a s
  | .raised e s => .raised e s
  | .hung t => .hung t

/-- `raise X(e)`: the operation ends here with this error; nothing is saved, cleaned up, booked or
retried (60_exceptions.md R283, R284). -/
def raise {α : Type} (e : BlockError) (s : State) : OpResult α := .raised e s

/-- Apply `f` to the registers of line `i`. -/
def modLine (i : Nat) (f : LineRegs → LineRegs) (s : State) : State :=
  { s with lines := s.lines.modify i f }

/-- `mode[i] <- m`. -/
def setMode (i : Nat) (m : Mode) : State → State := modLine i fun l => { l with mode := m }

/-- `deadline[i] <- t`. -/
def setDeadline (i : Nat) (t : Instant) : State → State := modLine i fun l => { l with deadline := t }

/-- The model's flag of line `i` (93_implementation_defined.md section 2). -/
def setChipUnknown (i : Nat) (b : Bool) : State → State :=
  modLine i fun l => { l with chipUnknown := b }

/-- Record an event at the present instant (10_state.md R34). -/
def record (ev : Event) (s : State) : State :=
  { s with trace := s.trace ++ [⟨s.env.clock, ev⟩] }

/-- The clock after `d` more microseconds: it never goes back and never passes the instant at which
it stops (00_scope.md R10, log 4). -/
def clockAfter (e : Env) (d : Duration) : Instant :=
  match e.stopAt with
  | none => e.clock + d
  | some stop => max e.clock (min (e.clock + d) stop)

/-- The environment after some time: the next given amount, or a free one of at least a microsecond
(log 1). -/
def envAfter (e : Env) : Env :=
  match e.ticks with
  | d :: rest => { e with clock := clockAfter e d, ticks := rest }
  | [] => { e with clock := clockAfter e (Config.freeTick e.draws + 1), draws := e.draws + 1 }

/-- Some time passes (00_scope.md R10). -/
def elapse (s : State) : State := { s with env := envAfter s.env }

/-- The environment's verdict on the next fallible primitive (00_scope.md R12, log 10). -/
def nextVerdict (s : State) : Option Nat :=
  match s.env.verdicts with
  | v :: _ => v
  | [] => none

/-- The verdict is used up. -/
def dropVerdict (s : State) : State :=
  { s with env := { s.env with verdicts := s.env.verdicts.tail } }

/-- A fallible primitive: time passes; if the environment fails it, the error is raised in the state
`onFail` gives, else it has its effect (00_scope.md R11, R12). -/
def attempt {α : Type} (mk : Nat → BlockError) (onFail : State → State)
    (effect : State → OpResult α) (s : State) : OpResult α :=
  match nextVerdict (elapse s) with
  | some e => raise (mk e) (onFail (dropVerdict (elapse s)))
  | none => effect (dropVerdict (elapse s))

/-- The output pins that `pin_write` drives (00_scope.md R11). -/
inductive Pin where
  | rs | rw
  | e (i : Nat)
  | cs (i : Nat)
  deriving DecidableEq, Repr

/-- The event of driving a pin (10_state.md R34). -/
def pinEvent (p : Pin) (v : Bool) : Event :=
  match p with
  | .rs => .rs v
  | .rw => .rw v
  | .e i => .en i v
  | .cs i => .cs i v

/-- The latch a driven pin updates (10_state.md R34). -/
def setPin (p : Pin) (v : Bool) (s : State) : State :=
  match p with
  | .rs => { s with rs := v }
  | .rw => { s with rw := v }
  | .e i => modLine i (fun l => { l with e := v }) s
  | .cs i => modLine i (fun l => { l with cs := v }) s

/-- `pin_write(P, v)` (00_scope.md R11). -/
def pinWrite (p : Pin) (v : Bool) : State → OpResult Unit :=
  attempt .pinError id fun s => .done () (record (pinEvent p v) (setPin p v s))

/-- The part of a byte that `W` data wires carry (10_state.md R25, log 17). -/
def onWires (p : Params) (v : Byte) : Byte := v &&& BitVec.ofNat 8 (2 ^ p.width - 1)

/-- After a failed `data_drive` the levels of the data wires are any value; the latch is unchanged
(10_state.md R34, 93_implementation_defined.md U7). -/
def scrambleWires (s : State) : State :=
  { s with
    wires := onWires s.cfg (Config.freeWires s.env.draws)
    env := { s.env with draws := s.env.draws + 1 } }

/-- The data wires and their latch after a drive. While `DIR = In` the block does not drive the wires
and `DATA` keeps its old value (10_state.md R25, 70_reset_and_hazards.md R321; log 12). -/
def driveWires (v : Byte) (s : State) : State :=
  match s.dir with
  | .out => { s with data := onWires s.cfg v, wires := onWires s.cfg v }
  | .into => s

/-- `data_drive(v)` (00_scope.md R11). -/
def dataDrive (v : Byte) : State → OpResult Unit :=
  attempt .pinError scrambleWires fun s =>
    .done () (record (.data (onWires s.cfg v)) (driveWires v s))

/-- The value the environment puts on the data wires (20_memory.md R59). -/
def nextSample (s : State) : Byte :=
  match s.env.samples with
  | v :: _ => onWires s.cfg v
  | [] => onWires s.cfg (Config.freeSample s.env.draws)

/-- The environment with its next sample used up. -/
def envAfterSample (e : Env) : Env :=
  match e.samples with
  | _ :: rest => { e with samples := rest }
  | [] => { e with draws := e.draws + 1 }

/-- The sample is used up. -/
def dropSample (s : State) : State := { s with env := envAfterSample s.env }

/-- `data_sample()` (00_scope.md R11). -/
def dataSample : State → OpResult Byte :=
  attempt .pinError id fun s => .done (nextSample s) (record (.sample (nextSample s)) (dropSample s))

/-- The direction latch; the wires are driven with the `DATA` latch again after `Out`
(42_parallel_transport.md R153). -/
def applyDir (d : Dir) (s : State) : State :=
  { s with dir := d, wires := if d = .out then s.data else s.wires }

/-- `set_dir(d)` (00_scope.md R11). -/
def setDir (d : Dir) : State → OpResult Unit :=
  attempt .pinError id fun s => .done () (record (.dir d) (applyDir d s))

/-- `link_write(b)` (00_scope.md R11, 10_state.md R27). -/
def linkWrite (b : Byte) : State → OpResult Unit :=
  attempt .linkError id fun s => .done () (record (.link b) s)

/-- `now()` (00_scope.md R10). -/
def now (s : State) : OpResult Instant := .done (elapse s).env.clock (elapse s)

/-- The clock is moved to `t` if it has not reached it. -/
def clockTo (t : Instant) (s : State) : State :=
  { s with env := { s.env with clock := max s.env.clock t } }

/-- Whether the clock stops before `t` without having reached it (44_timing_scheduler.md R198). -/
def neverReaches (t : Instant) (s : State) : Bool :=
  match s.env.stopAt with
  | none => false
  | some stop => decide (s.env.clock < t ∧ stop < t)

/-- `wait_until(t)` (00_scope.md R10): a no-op if `t` has passed; on return the clock has reached
`t`. -/
def waitUntil (t : Instant) (s : State) : OpResult Unit :=
  match neverReaches t (elapse s) with
  | true => .hung (.clockStopped t)
  | false => .done () (record (.wait t) (clockTo t (elapse s)))

/-- `delay(d)` is `wait_until(now() + d)` (00_scope.md R10). -/
def delay (d : Duration) (s : State) : OpResult Unit :=
  (now s).andThen fun t s => waitUntil (t + d) s

/-- Hand a result to the host (10_state.md R33). -/
def answer (r : HostResult) (s : State) : State := { s with results := s.results ++ [r] }

/-- The end of a host operation on line `i` (00_scope.md R12): `Ok` or `Err` is the result the host
gets, an `Err` also sets the model's flag of the line (93_implementation_defined.md section 2); an
operation that never returns is a hang (60_exceptions.md R297). -/
def complete (i : Nat) (r : OpResult HostResult) : Host.Outcome State Fault Refusal :=
  match r with
  | .done v s => .next (answer v s)
  | .raised e s => .next (answer (.err e) (setChipUnknown i true s))
  | .hung f => .fault f

/-- An operation given a line index: for an index that names no line it is not performed at all
(46_shared_bus.md R242, log 7). -/
def onLine (i : Nat) (op : State → OpResult HostResult) (s : State) :
    Host.Outcome State Fault Refusal :=
  if i < s.numLines then complete i (op s) else .next (answer .noHandle s)

end Sys2Proof.Machine
end

