-- ==== Sys2Proof/Machine/Flags.lean ====
section
/-!
DEFINITION. The block has no flags (10_state.md R29). What there is: the fields of the status byte
(20_memory.md R58) and the two mode-select bits of the select bytes (10_state.md R30,
30_encoding.md R75, R79).
-/

namespace Sys2Proof.Machine

/-- Bit 7 of the status byte, the chip's busy flag (20_memory.md R58). -/
def statusBusy (s : Byte) : Bool := s.getLsbD 7

/-- Bits 6..0 of the status byte, the chip's address counter (20_memory.md R58). -/
def statusAc (s : Byte) : BitVec 7 := s.extractLsb' 0 7

/-- The bit `RE` (bit 2) of a select byte (10_state.md R30). -/
def bitRe (b : Byte) : Bool := b.getLsbD 2

/-- The bit `G` (bit 1) of a select byte (10_state.md R30). -/
def bitG (b : Byte) : Bool := b.getLsbD 1

/-- The select byte that latches a mode (10_state.md R30). -/
def selectByte : Mode → Byte
  | .basic => 0x20#8
  | .extended => 0x24#8
  | .graphic => 0x26#8

/-- How many of the two mode-select bits differ between two modes (30_encoding.md R79). -/
def modeBitsChanged (m m' : Mode) : Nat :=
  (if bitRe (selectByte m) = bitRe (selectByte m') then 0 else 1)
    + (if bitG (selectByte m) = bitG (selectByte m') then 0 else 1)

/-- The command set the chip decodes with in a mode (30_encoding.md R76). -/
def modeSet : Mode → CmdSet
  | .basic => .basic
  | .extended => .extendedOrGraphic
  | .graphic => .extendedOrGraphic

end Sys2Proof.Machine
end

