-- ==== Sys2Proof/Machine/Operands.lean ====
section
/-!
DEFINITION. How a value crosses the bus: register selection, the halves of a 16-bit value, the
nibbles of a byte, the sync byte and the nibble-bytes of the serial frame (20_memory.md R51, R54 to
R56; 30_encoding.md R82 to R85).
-/

namespace Sys2Proof.Machine

/-- The level of `RS` that selects a register (20_memory.md R51). -/
def regRs : Reg → Bool
  | .cmd => false
  | .status => false
  | .dataWr => true
  | .dataRd => true

/-- The level of `RW` that selects a register (20_memory.md R51). -/
def regRw : Reg → Bool
  | .cmd => false
  | .status => true
  | .dataWr => false
  | .dataRd => true

/-- `v[15:8]`, the byte that crosses first (20_memory.md R54). -/
def highByte (v : Half) : Byte := v.extractLsb' 8 8

/-- `v[7:0]`, the byte that crosses second (20_memory.md R54). -/
def lowByte (v : Half) : Byte := v.extractLsb' 0 8

/-- `b[7:4]` on the four data wires of `PAR4` (20_memory.md R55). -/
def highNibble (b : Byte) : Byte := b >>> 4

/-- `b[3:0]` on the four data wires of `PAR4` (20_memory.md R55). -/
def lowNibble (b : Byte) : Byte := b &&& 0x0F#8

/-- `hi ++ lo` of two sampled nibbles (42_parallel_transport.md R149). -/
def joinNibbles (hi lo : Byte) : Byte := (hi <<< 4) ||| (lo &&& 0x0F#8)

/-- `sync(rs, rw) = 0xF8 | (rw << 2) | (rs << 1)` (30_encoding.md R84). -/
def syncByte (rs rw : Bool) : Byte := 0xF8#8 ||| (bitByte rw <<< 2) ||| (bitByte rs <<< 1)

/-- `nib_hi(b) = b & 0xF0` (43_serial_transport.md R174). -/
def nibHi (b : Byte) : Byte := b &&& 0xF0#8

/-- `nib_lo(b) = (b << 4) & 0xFF` (43_serial_transport.md R174). -/
def nibLo (b : Byte) : Byte := b <<< 4

/-- The nibble-bytes of one payload byte, high nibble first (43_serial_transport.md R174). -/
def nibbleBytes (b : Byte) : List Byte := [nibHi b, nibLo b]

/-- The nibble-bytes of a payload, most significant byte first (43_serial_transport.md R175). -/
def payloadNibbles : Payload → List Byte
  | .one b => nibbleBytes b
  | .two v => nibbleBytes (highByte v) ++ nibbleBytes (lowByte v)

/-- The link bytes of a serial frame (43_serial_transport.md R175). -/
def frameBytes (reg : Reg) (v : Payload) : List Byte :=
  syncByte (regRs reg) (regRw reg) :: payloadNibbles v

/-- Where a model needs the bits of a serial byte: most significant bit first
(20_memory.md R56, the spec's decision D14). -/
def serialBits (b : Byte) : List Bool :=
  [b.getLsbD 7, b.getLsbD 6, b.getLsbD 5, b.getLsbD 4,
   b.getLsbD 3, b.getLsbD 2, b.getLsbD 1, b.getLsbD 0]

end Sys2Proof.Machine
end

