-- ==== Sys2Proof/Machine/Parallel.lean ====
section
/-!
DEFINITION. The parallel bus master (42_parallel_transport.md).
-/

namespace Sys2Proof.Machine

/-- `select(rs, rw)` (R141): both pins, `RS` first. -/
def selectReg (reg : Reg) (s : State) : OpResult Unit :=
  (pinWrite .rs (regRs reg) s).andThen fun _ s =>
  pinWrite .rw (regRw reg) s

/-- `latched(i, f)` (R144): raise enable, wait the pulse width, do `f`, lower enable. -/
def latched {α : Type} (i : Nat) (f : State → OpResult α) (s : State) : OpResult α :=
  (pinWrite (.e i) true s).andThen fun _ s =>
  (delay s.cfg.tPw s).andThen fun _ s =>
  (f s).andThen fun r s =>
  (pinWrite (.e i) false s).andThen fun _ s =>
  .done r s

/-- `latch(i)` (R143) is `latched(i, nothing)` (R144). -/
def latch (i : Nat) : State → OpResult Unit := latched i fun s => .done () s

/-- `write_u8(i, b)` (R146): one pulse on 8 wires, two on 4, high nibble first. -/
def writeU8 (i : Nat) (b : Byte) (s : State) : OpResult Unit :=
  match s.cfg.bus with
  | .par4 =>
    (dataDrive (highNibble b) s).andThen fun _ s =>
    (latch i s).andThen fun _ s =>
    (dataDrive (lowNibble b) s).andThen fun _ s =>
    latch i s
  | .par8 | .ser =>
    (dataDrive b s).andThen fun _ s =>
    latch i s

/-- `write_u16(i, v)` (R147): `v[15:8]`, then `v[7:0]`. -/
def writeU16 (i : Nat) (v : Half) (s : State) : OpResult Unit :=
  (writeU8 i (highByte v) s).andThen fun _ s =>
  writeU8 i (lowByte v) s

/-- `read_u8(i)` (R149): one sampled pulse on 8 wires, two on 4, high nibble first. -/
def readU8 (i : Nat) (s : State) : OpResult Byte :=
  match s.cfg.bus with
  | .par4 =>
    (latched i dataSample s).andThen fun hi s =>
    (latched i dataSample s).andThen fun lo s =>
    .done (joinNibbles hi lo) s
  | .par8 | .ser => latched i dataSample s

/-- `read_u16(i)` (R150): the first byte read is the high byte. -/
def readU16 (i : Nat) (s : State) : OpResult Half :=
  (readU8 i s).andThen fun h s =>
  (readU8 i s).andThen fun l s =>
  .done (h ++ l) s

/-- The parallel bus write (R152): one `select`, then the bytes. -/
def parWrite (i : Nat) (reg : Reg) (v : Payload) (s : State) : OpResult Unit :=
  (selectReg reg s).andThen fun _ s =>
  match v with
  | .one b => writeU8 i b s
  | .two v => writeU16 i v s

/-- The parallel bus read of `read` from `reg` (R148, R153): the wires are inputs from before the
`select` until after the last pulse. -/
def parRead {α : Type} (i : Nat) (reg : Reg) (read : Nat → State → OpResult α) (s : State) :
    OpResult α :=
  (setDir .into s).andThen fun _ s =>
  (selectReg reg s).andThen fun _ s =>
  (read i s).andThen fun r s =>
  (setDir .out s).andThen fun _ s =>
  .done r s

end Sys2Proof.Machine
end

