-- ==== Sys2Proof/Machine/Serial.lean ====
section
/-!
DEFINITION. The serial bus master (43_serial_transport.md).
-/

namespace Sys2Proof.Machine

/-- Hand bytes to the link in order, one event each (R171, R178). -/
def linkWriteAll : List Byte → State → OpResult Unit
  | [], s => .done () s
  | b :: bs, s => (linkWrite b s).andThen fun _ s => linkWriteAll bs s

/-- The chip-select-framed byte sequence (R175). -/
def serWrite (i : Nat) (reg : Reg) (v : Payload) (s : State) : OpResult Unit :=
  (pinWrite (.cs i) true s).andThen fun _ s =>
  (linkWriteAll (frameBytes reg v) s).andThen fun _ s =>
  pinWrite (.cs i) false s

/-- `transaction(i, duration, body)` (R172): chip-select, body, chip-select, and the booking. -/
def transaction (i : Nat) (duration : Duration) (body : State → OpResult Unit) (s : State) :
    OpResult Unit :=
  (pinWrite (.cs i) true s).andThen fun _ s =>
  (body s).andThen fun _ s =>
  (pinWrite (.cs i) false s).andThen fun _ s =>
  (now s).andThen fun t s =>
  .done () (setDeadline i (t + duration) s)

end Sys2Proof.Machine
end

