-- ==== Sys2Proof/Machine/Scheduler.lean ====
section
/-!
DEFINITION. The bus accesses and the deadline scheduler (20_memory.md R52, R53;
44_timing_scheduler.md).
-/

namespace Sys2Proof.Machine

/-- `MemWrite(i, reg, n, v)` (20_memory.md R52): the write of the instance's transport. -/
def memWrite (i : Nat) (reg : Reg) (v : Payload) (s : State) : OpResult Unit :=
  match s.cfg.bus with
  | .par4 | .par8 => parWrite i reg v s
  | .ser => serWrite i reg v s

/-- The wait before an access (44_timing_scheduler.md R191). -/
def awaitDeadline (i : Nat) (s : State) : OpResult Unit := waitUntil (s.line i).deadline s

/-- The booking after an access (44_timing_scheduler.md R192): the clock is sampled once. -/
def book (i : Nat) (d : Duration) (s : State) : OpResult Unit :=
  (now s).andThen fun t s => .done () (setDeadline i (t + d) s)

/-- `emit(i, c)` (44_timing_scheduler.md R193): the scheduled transfer of one command, without mode
logic. -/
def emit (i : Nat) (c : Command) (s : State) : OpResult Unit :=
  (awaitDeadline i s).andThen fun _ s =>
  (memWrite i (commandAccess s.cfg.cursorCtrl c).1 (commandAccess s.cfg.cursorCtrl c).2 s).andThen
    fun _ s =>
  book i (executionTime c) s

/-- `sched_read(i, reg, n)` (44_timing_scheduler.md R195): a parallel read with the wait before it
and the booking of `T_READ` after it. -/
def schedRead {α : Type} (i : Nat) (reg : Reg) (read : Nat → State → OpResult α) (s : State) :
    OpResult α :=
  (awaitDeadline i s).andThen fun _ s =>
  (parRead i reg read s).andThen fun r s =>
  (book i s.cfg.tRead s).andThen fun _ s =>
  .done r s

end Sys2Proof.Machine
end

