-- ==== Sys2Proof/Machine/ModeMachine.lean ====
section
/-!
DEFINITION. The instruction-mode state machine (45_mode_machine.md): which select commands go out
before a command, and what `mode[i]` becomes.
-/

namespace Sys2Proof.Machine

/-- The loop of `poll_busy` (R222). It ends by itself within `pollFuel` reads unless the clock stops
before the ceiling; then the poll waits for an instant that never comes (44_timing_scheduler.md R198,
60_exceptions.md R297; log 13). -/
def pollLoop (i : Nat) (t0 : Instant) : Nat → State → OpResult Unit
  | 0, _ => .hung (.clockStopped (t0 + tPollCeil))
  | fuel + 1, s =>
    (schedRead i .status readU8 s).andThen fun b s =>
    match statusBusy b with
    | false => .done () s
    | true =>
      (now s).andThen fun t s =>
      match decide (tPollCeil ≤ t - t0) with
      | true => .done () s
      | false => pollLoop i t0 fuel s

/-- As many status reads as a poll from `s` can make while the clock runs: once the given times are
used up each read takes a microsecond or more (log 1), so the ceiling is reached; and no given sample
is left unread (log 13). -/
def pollFuel (s : State) : Nat := s.env.ticks.length + s.env.samples.length + tPollCeil + 2

/-- `poll_busy(i)` (R222): absent unless `BUSY_POLL`, which is legal on a parallel bus only (log 15);
reaching the ceiling is no error. -/
def pollBusy (i : Nat) (s : State) : OpResult Unit :=
  match s.cfg.busyPoll && s.cfg.bus.isParallel with
  | false => .done () s
  | true => (now s).andThen fun t0 s => pollLoop i t0 (pollFuel s) s

/-- A select command with its mode: `mode[i]` is assigned right after the `emit` returns, and not
at all if it raises (R219). -/
def emitSelect (i : Nat) (c : Command) (m : Mode) (s : State) : OpResult Unit :=
  (emit i c s).andThen fun _ s => .done () (setMode i m s)

/-- `emit(i, SelectBasic); mode[i] <- Basic`, after the busy poll (R214, R216). -/
def toBasic (i : Nat) (s : State) : OpResult Unit :=
  (pollBusy i s).andThen fun _ s => emitSelect i .selectBasic .basic s

/-- `emit(i, SelectExtended); mode[i] <- Extended`. -/
def toExtended (i : Nat) (s : State) : OpResult Unit := emitSelect i .selectExtended .extended s

/-- `emit(i, SelectGraphic); mode[i] <- Graphic`. -/
def toGraphic (i : Nat) (s : State) : OpResult Unit := emitSelect i .selectGraphic .graphic s

/-- Do `op` if `mode[i] = m`. -/
def whenMode (i : Nat) (m : Mode) (op : State → OpResult Unit) (s : State) : OpResult Unit :=
  if (s.line i).mode = m then op s else .done () s

/-- What precedes a command of a class, and for a select the mode assignment that follows it
(R214 to R218). Each path ends by emitting the command itself once (R211). -/
def execClass (i : Nat) (c : Command) (k : CmdClass) (s : State) : OpResult Unit :=
  match k with
  | .basicOp =>
    (whenMode i .graphic (toExtended i) s).andThen fun _ s =>
    (whenMode i .extended (toBasic i) s).andThen fun _ s =>
    emit i c s
  | .extOp =>
    (whenMode i .basic (toExtended i) s).andThen fun _ s =>
    emit i c s
  | .selB =>
    (whenMode i .graphic (toExtended i) s).andThen fun _ s =>
    toBasic i s
  | .selE => toExtended i s
  | .selG =>
    (whenMode i .basic (toExtended i) s).andThen fun _ s =>
    toGraphic i s
  | .neutral => emit i c s

/-- `exec(i, c)` (R211): dispatch on the class of `c`. -/
def execCommand (i : Nat) (c : Command) (s : State) : OpResult Unit :=
  execClass i c (classOf s.cfg.writePolicy c) s

end Sys2Proof.Machine
end

