-- ==== Sys2Proof/Machine/Facade.lean ====
section
/-!
DEFINITION. The host operations (47_facade.md): `execute` and the two reads, shared by the
instructions, and the operations that are no row of the opcode table.
-/

namespace Sys2Proof.Machine

/-- An operation that returns `Ok(())`. -/
def returnUnit (r : OpResult Unit) : OpResult HostResult := r.andThen fun _ s => .done .okUnit s

/-- `execute(i, c)` (R261). -/
def execute (i : Nat) (c : Command) : State → Host.Outcome State Fault Refusal :=
  onLine i fun s => returnUnit (execCommand i c s)

/-- `read_status(i)` (R264). -/
def statusBody (i : Nat) (s : State) : OpResult HostResult :=
  (schedRead i .status readU8 s).andThen fun b s => .done (.okStatus (statusBusy b) (statusAc b)) s

/-- `read_ram(i)` (R265). -/
def ramBody (i : Nat) (s : State) : OpResult HostResult :=
  (schedRead i .dataRd readU16 s).andThen fun v s => .done (.okWord v) s

/-- A read operation: absent on `SER` (R267). -/
def readOperation (i : Nat) (op : State → OpResult HostResult) (s : State) :
    Host.Outcome State Fault Refusal :=
  match s.cfg.bus.isParallel with
  | true => onLine i op s
  | false => .refused .absentOnSerial

/-- `wait_ready(i)` (R266). -/
def runWaitReady (i : Nat) : State → Host.Outcome State Fault Refusal :=
  onLine i fun s => returnUnit (awaitDeadline i s)

/-- The five commands of `init(i)` with their waits, from the two assignments on (R268). -/
def initBody (i : Nat) (s : State) : OpResult Unit :=
  (now s).andThen fun t0 s =>
  (waitUntil (t0 + tPowerUp) s).andThen fun _ s =>
  (now (setMode i .basic s)).andThen fun t s =>
  (emit i .selectBasic (setDeadline i t s)).andThen fun _ s =>
  (delay s.cfg.tInitSettle s).andThen fun _ s =>
  (emit i .selectBasic s).andThen fun _ s =>
  (delay s.cfg.tInitSettle s).andThen fun _ s =>
  (emit i (.displayOnOff true false false) s).andThen fun _ s =>
  (emit i .clear s).andThen fun _ s =>
  emit i (.entryMode true false) s

/-- `init(i)` (R268); when it returns `Ok` the chip on the line is known again
(93_implementation_defined.md section 2). -/
def runInit (i : Nat) : State → Host.Outcome State Fault Refusal :=
  onLine i fun s => returnUnit ((initBody i s).andThen fun _ s => .done () (setChipUnknown i false s))

/-- `num()` (46_shared_bus.md R241). -/
def runNum (s : State) : Host.Outcome State Fault Refusal := .next (answer (.count s.numLines) s)

/-- `get(index)` (46_shared_bus.md R242): a handle is the line index. -/
def runGet (index : Nat) (s : State) : Host.Outcome State Fault Refusal :=
  .next (answer (.handle (if index < s.numLines then some index else none)) s)

end Sys2Proof.Machine
end

