-- ==== Sys2Proof/Machine/BasicSet.lean ====
section
/-!
DEFINITION. The Basic-set commands, one meaning each (40_commands_basic.md): `execute` with the command.
Bytes, register, class and time of each are in Machine/Command.lean.
-/

namespace Sys2Proof.Machine

/-- `Write` (40_commands_basic.md R101). -/
def execWrite (i : Nat) (d : Half) (s : State) : Host.Outcome State Fault Refusal :=
  execute i (.write d) s

/-- `Clear` (40_commands_basic.md R102). -/
def execClear (i : Nat) (s : State) : Host.Outcome State Fault Refusal :=
  execute i .clear s

/-- `Home` (40_commands_basic.md R103). -/
def execHome (i : Nat) (s : State) : Host.Outcome State Fault Refusal :=
  execute i .home s

/-- `EntryMode` (40_commands_basic.md R104). -/
def execEntryMode (i : Nat) (increment shift : Bool) (s : State) : Host.Outcome State Fault Refusal :=
  execute i (.entryMode increment shift) s

/-- `DisplayOnOff` (40_commands_basic.md R105). -/
def execDisplayOnOff (i : Nat) (display cursor blink : Bool) (s : State) : Host.Outcome State Fault Refusal :=
  execute i (.displayOnOff display cursor blink) s

/-- `CursorDisplayCtrl` (40_commands_basic.md R106). -/
def execCursorDisplayCtrl (i : Nat) (shiftDisplay right : Bool) (s : State) : Host.Outcome State Fault Refusal :=
  execute i (.cursorDisplayCtrl shiftDisplay right) s

/-- `SelectBasic` (40_commands_basic.md R107). -/
def execSelectBasic (i : Nat) (s : State) : Host.Outcome State Fault Refusal :=
  execute i .selectBasic s

/-- `CgRamAddr` (40_commands_basic.md R108). -/
def execCgRamAddr (i : Nat) (addr : BitVec 6) (s : State) : Host.Outcome State Fault Refusal :=
  execute i (.cgRamAddr addr) s

/-- `DdRamAddr` (40_commands_basic.md R109). -/
def execDdRamAddr (i : Nat) (addr : BitVec 7) (s : State) : Host.Outcome State Fault Refusal :=
  execute i (.ddRamAddr addr) s

end Sys2Proof.Machine
end

