-- ==== Sys2Proof/Machine/ExtendedSet.lean ====
section
/-!
DEFINITION. The Extended/Graphic-set commands, one meaning each (41_commands_extended.md): `execute` with
the command. Bytes, register, class and time of each are in Machine/Command.lean.
-/

namespace Sys2Proof.Machine

/-- `StandBy` (41_commands_extended.md R121). -/
def execStandBy (i : Nat) (s : State) : Host.Outcome State Fault Refusal :=
  execute i .standBy s

/-- `EnableScroll` (41_commands_extended.md R122). -/
def execEnableScroll (i : Nat) (s : State) : Host.Outcome State Fault Refusal :=
  execute i .enableScroll s

/-- `EnableCgRam` (41_commands_extended.md R123). -/
def execEnableCgRam (i : Nat) (s : State) : Host.Outcome State Fault Refusal :=
  execute i .enableCgRam s

/-- `Reverse` (41_commands_extended.md R124). -/
def execReverse (i : Nat) (line : BitVec 2) (s : State) : Host.Outcome State Fault Refusal :=
  execute i (.reverse line) s

/-- `SelectExtended` (41_commands_extended.md R125). -/
def execSelectExtended (i : Nat) (s : State) : Host.Outcome State Fault Refusal :=
  execute i .selectExtended s

/-- `SelectGraphic` (41_commands_extended.md R126). -/
def execSelectGraphic (i : Nat) (s : State) : Host.Outcome State Fault Refusal :=
  execute i .selectGraphic s

/-- `ScrollOffset` (41_commands_extended.md R127). -/
def execScrollOffset (i : Nat) (offset : BitVec 5) (s : State) : Host.Outcome State Fault Refusal :=
  execute i (.scrollOffset offset) s

/-- `GraphicRamAddr` (41_commands_extended.md R128). -/
def execGraphicRamAddr (i : Nat) (x : BitVec 6) (y : BitVec 4) (s : State) : Host.Outcome State Fault Refusal :=
  execute i (.graphicRamAddr x y) s

end Sys2Proof.Machine
end

