-- ==== Sys2Proof/Machine/Reads.lean ====
section
/-!
DEFINITION. The two read operations, one meaning each (47_facade.md R264, R265).
-/

namespace Sys2Proof.Machine

/-- `read_status(i)`, the row READ_STATUS (47_facade.md R264). -/
def execReadStatus (i : Nat) (s : State) : Host.Outcome State Fault Refusal :=
  readOperation i (statusBody i) s

/-- `read_ram(i)`, the row READ_RAM (47_facade.md R265). -/
def execReadRam (i : Nat) (s : State) : Host.Outcome State Fault Refusal :=
  readOperation i (ramBody i) s

end Sys2Proof.Machine
end

