-- ==== Sys2Proof/Machine/Dispatch.lean ====
section
/-!
DEFINITION. One arm per instruction, each a direct call of its meaning.
-/

namespace Sys2Proof.Machine

def exec (i : Instr) (s : State) : Host.Outcome State Fault Refusal :=
  match i with
  | .write n d => Sys2Proof.Machine.execWrite n d s
  | .clear n => Sys2Proof.Machine.execClear n s
  | .home n => Sys2Proof.Machine.execHome n s
  | .entryMode n increment shift => Sys2Proof.Machine.execEntryMode n increment shift s
  | .displayOnOff n display cursor blink => Sys2Proof.Machine.execDisplayOnOff n display cursor blink s
  | .cursorDisplayCtrl n shiftDisplay right => Sys2Proof.Machine.execCursorDisplayCtrl n shiftDisplay right s
  | .selectBasic n => Sys2Proof.Machine.execSelectBasic n s
  | .cgRamAddr n addr => Sys2Proof.Machine.execCgRamAddr n addr s
  | .ddRamAddr n addr => Sys2Proof.Machine.execDdRamAddr n addr s
  | .standBy n => Sys2Proof.Machine.execStandBy n s
  | .enableScroll n => Sys2Proof.Machine.execEnableScroll n s
  | .enableCgRam n => Sys2Proof.Machine.execEnableCgRam n s
  | .reverse n line => Sys2Proof.Machine.execReverse n line s
  | .selectExtended n => Sys2Proof.Machine.execSelectExtended n s
  | .selectGraphic n => Sys2Proof.Machine.execSelectGraphic n s
  | .scrollOffset n offset => Sys2Proof.Machine.execScrollOffset n offset s
  | .graphicRamAddr n x y => Sys2Proof.Machine.execGraphicRamAddr n x y s
  | .readStatus n => Sys2Proof.Machine.execReadStatus n s
  | .readRam n => Sys2Proof.Machine.execReadRam n s

end Sys2Proof.Machine
end

