-- ==== Sys2Proof/Machine/Fetch.lean ====
section
/-!
DEFINITION. What the block does next: the host operation at the front of `pending`, a command
decoded (10_state.md R28, 00_scope.md R13; log 5).
-/

namespace Sys2Proof.Machine

/-- What stands at the host command port. -/
inductive Fetched where
  /-- no operation is pending: the block waits for the host -/
  | idle
  /-- a command or a read, decoded, and the state with it taken -/
  | instr (c : Instr) (s : State)
  /-- a port word that is no command -/
  | reserved (e : DecodeError)
  /-- an operation without encoding, and the state with it taken -/
  | facade (op : HostOp) (s : State)
  deriving DecidableEq, Repr

/-- Take the host operation at the front of `pending`. -/
def fetch (s : State) : Fetched :=
  match s.pending with
  | [] => .idle
  | .command w :: rest =>
    match decode w with
    | .ok c => .instr c { s with pending := rest }
    | .error e => .reserved e
  | op :: rest => .facade op { s with pending := rest }

/-- `execute(i, c)`, `read_status(i)` and `read_ram(i)` as the host issues them (47_facade.md R261,
R264, R265). -/
def issue (c : Instr) : HostOp := .command (encode c)

/-- `write(i, v)` is `execute(i, Write(v))` and nothing else (47_facade.md R262, 30_encoding.md R91). -/
def issueWrite (i : Nat) (v : Half) : HostOp := issue (.write i v)

/-- A table word put at the front of `pending`. -/
def placeWord (s : State) (nbits w : Nat) : State :=
  { s with pending := .command (tablePortWord nbits w) :: s.pending }

end Sys2Proof.Machine
end

