-- ==== Sys2Proof/Machine/Step.lean ====
section
/-!
DEFINITION. One step: one host operation, run to completion (00_scope.md R13).
-/

namespace Sys2Proof.Machine

/-- The operations that are no row of the opcode table (47_facade.md R260). -/
def runFacade (op : HostOp) (s : State) : Host.Outcome State Fault Refusal :=
  match op with
  | .command _ => .next s
  | .waitReady i => runWaitReady i s
  | .init i => runInit i s
  | .num => runNum s
  | .get index => runGet index s

/-- One step: the next host operation; with none pending the block stays as it is (log 5). -/
def step (s : State) : Host.Outcome State Fault Refusal :=
  match fetch s with
  | .idle => .next s
  | .instr c s' => exec c s'
  | .reserved e => .refused (.reservedEncoding e)
  | .facade op s' => runFacade op s'

/-- `s` with a table word as the next host operation. -/
def State.withFetchWord (s : State) (nbits w : Nat) : State := placeWord s nbits w

end Sys2Proof.Machine
end

