-- ==== Sys2Proof/Machine/Ports.lean ====
section
/-!
DEFINITION. The output ports of the block as views of the state (10_state.md R33).
-/

namespace Sys2Proof.Machine

/-- The port `rs`, present on a parallel bus. -/
def portRs (s : State) : Option Bool := if s.cfg.bus.isParallel then some s.rs else none

/-- The port `rw`, present on a parallel bus. -/
def portRw (s : State) : Option Bool := if s.cfg.bus.isParallel then some s.rw else none

/-- The port `e[i]`, present on a parallel bus for a line of the instance. -/
def portE (i : Nat) (s : State) : Option Bool :=
  if s.cfg.bus.isParallel && decide (i < s.numLines) then some (s.line i).e else none

/-- The wires `d[k]` as driven by the block: none while `DIR = In` (10_state.md R25, R33). -/
def portD (s : State) : Option Byte :=
  if s.cfg.bus.isParallel && decide (s.dir = .out) then some s.wires else none

/-- The port `cs[i]`, present on `SER` for a line of the instance. -/
def portCs (i : Nat) (s : State) : Option Bool :=
  if !s.cfg.bus.isParallel && decide (i < s.numLines) then some (s.line i).cs else none

/-- The events without their instants. -/
def State.events (s : State) : List Event := s.trace.map (·.ev)

/-- The byte an event hands to the link, if it is one. -/
def eventLink : Event → Option Byte
  | .link b => some b
  | _ => none

/-- The port `link`: the bytes handed to the synchronous link, in order. -/
def portLink (s : State) : List Byte := s.events.filterMap eventLink

end Sys2Proof.Machine
end

