-- ==== Sys2Proof/Machine/Text.lean ====
section
/-!
DEFINITION. The textual form of commands and programs (30_encoding.md R90, the spec's decision D32),
read into host operations. The braces are named by their code points.
-/

namespace Sys2Proof.Machine

/-- The pieces of a line: runs of letters, digits and underscores, and single marks. -/
inductive Token where
  | word (w : List Char)
  | mark (c : Char)
  deriving DecidableEq, Repr

/-- The brace that opens a list of fields. -/
def openBrace : Char := Char.ofNat 123

/-- The brace that closes a list of fields. -/
def closeBrace : Char := Char.ofNat 125

/-- Whether a character belongs to a word. -/
def isWordChar (c : Char) : Bool :=
  let n := c.toNat
  (48 ≤ n && n ≤ 57) || (65 ≤ n && n ≤ 90) || (97 ≤ n && n ≤ 122) || n == 95

/-- A finished word, if there is one. -/
def endWord (w : List Char) : List Token := if w = [] then [] else [.word w]

/-- The pieces of a line, given the word so far; blanks only separate, and may stand between any two
pieces (DESIGN CHOICE, log 20). -/
def tokens : List Char → List Char → List Token
  | w, [] => endWord w
  | w, c :: cs =>
    if isWordChar c then tokens (w ++ [c]) cs
    else if c = ' ' then endWord w ++ tokens [] cs
    else endWord w ++ .mark c :: tokens [] cs

/-- The value of a digit in a base of at most 16. -/
def digit (base : Nat) (c : Char) : Option Nat :=
  let n := c.toNat
  let d := if 48 ≤ n ∧ n ≤ 57 then n - 48 else if 97 ≤ n ∧ n ≤ 102 then n - 87
    else if 65 ≤ n ∧ n ≤ 70 then n - 55 else 16
  if d < base then some d else none

/-- The value of digits, given the value so far. An underscore is no digit: 00_scope.md R9 spaces the
spec's own `0b` notation with underscores and R90 does not say whether a program may, so that they are
not read is the model's choice (DESIGN CHOICE, log 20). -/
def digits (base : Nat) : Nat → List Char → Option Nat
  | acc, [] => some acc
  | acc, c :: cs => (digit base c).bind fun d => digits base (acc * base + d) cs

/-- A value: decimal, `0x` hexadecimal or `0b` binary (R90). Hexadecimal digits of either case and
leading zeros are read (DESIGN CHOICE, log 20). -/
def value : List Char → Option Nat
  | '0' :: 'x' :: c :: cs => digits 16 0 (c :: cs)
  | '0' :: 'b' :: c :: cs => digits 2 0 (c :: cs)
  | c :: cs => digits 10 0 (c :: cs)
  | [] => none

/-- A value that fits a field of `w` bits; a wider one is no command (the spec's decision D19). -/
def fieldValue (w : Nat) (cs : List Char) : Option (BitVec w) :=
  (value cs).bind fun n => if n < 2 ^ w then some (BitVec.ofNat w n) else none

/-- A one-bit field. -/
def flagValue (cs : List Char) : Option Bool := (fieldValue 1 cs).map (·.getLsbD 0)

/-- A list of fields `f=v` between braces: names and values, in order. -/
def fieldList : List Token → Option (List (List Char × List Char))
  | [.word f, .mark '=', .word v, .mark c] => if c = closeBrace then some [(f, v)] else none
  | .word f :: .mark '=' :: .word v :: .mark ',' :: rest => (fieldList rest).map ((f, v) :: ·)
  | _ => none

/-- The commands with no field. -/
def plainCommand (n : List Char) : Option Command :=
  if n = "Clear".toList then some .clear
  else if n = "Home".toList then some .home
  else if n = "SelectBasic".toList then some .selectBasic
  else if n = "SelectExtended".toList then some .selectExtended
  else if n = "SelectGraphic".toList then some .selectGraphic
  else if n = "StandBy".toList then some .standBy
  else if n = "EnableScroll".toList then some .enableScroll
  else if n = "EnableCgRam".toList then some .enableCgRam
  else none

/-- The commands with one field. -/
def unaryCommand (n v : List Char) : Option Command :=
  if n = "Write".toList then (fieldValue 16 v).map .write
  else if n = "CgRamAddr".toList then (fieldValue 6 v).map .cgRamAddr
  else if n = "DdRamAddr".toList then (fieldValue 7 v).map .ddRamAddr
  else if n = "Reverse".toList then (fieldValue 2 v).map .reverse
  else if n = "ScrollOffset".toList then (fieldValue 5 v).map .scrollOffset
  else none

/-- The commands with several fields, in the field order of R70. -/
def fieldsCommand (n : List Char) : List (List Char × List Char) → Option Command
  | [(f, a), (g, b)] =>
    if n = "EntryMode".toList ∧ f = "increment".toList ∧ g = "shift".toList then
      (flagValue a).bind fun x => (flagValue b).map fun y => .entryMode x y
    else if n = "CursorDisplayCtrl".toList ∧ f = "shift_display".toList ∧ g = "right".toList then
      (flagValue a).bind fun x => (flagValue b).map fun y => .cursorDisplayCtrl x y
    else if n = "GraphicRamAddr".toList ∧ f = "x".toList ∧ g = "y".toList then
      (fieldValue 6 a).bind fun x => (fieldValue 4 b).map fun y => .graphicRamAddr x y
    else none
  | [(f, a), (g, b), (h, c)] =>
    if n = "DisplayOnOff".toList ∧ f = "display".toList ∧ g = "cursor".toList
        ∧ h = "blink".toList then
      (flagValue a).bind fun x => (flagValue b).bind fun y => (flagValue c).map fun z =>
        .displayOnOff x y z
    else none
  | _ => none

/-- A command (R90). -/
def commandText : List Token → Option Command
  | [.word n] => plainCommand n
  | [.word n, .mark '(', .word v, .mark ')'] => unaryCommand n v
  | .word n :: .mark c :: rest =>
    if c = openBrace then (fieldList rest).bind (fieldsCommand n) else none
  | _ => none

/-- A host operation, one line of a program (R90), with the pseudo-instruction `write`
(R91). -/
def opText (line : String) : Option HostOp :=
  match tokens [] line.toList with
  | .word op :: .word i :: rest =>
    (value i).bind fun i =>
    if op = "exec".toList then (commandText rest).map fun c => issue (instrOf i c)
    else if op = "write".toList then
      match rest with
      | [.word v] => (fieldValue 16 v).map (issueWrite i)
      | _ => none
    else if rest ≠ [] then none
    else if op = "status".toList then some (issue (.readStatus i))
    else if op = "ramrd".toList then some (issue (.readRam i))
    else if op = "wait".toList then some (.waitReady i)
    else if op = "init".toList then some (.init i)
    else none
  | _ => none

/-- A program, given line by line: its host operations, or none if a line is no operation. -/
def programText : List String → Option (List HostOp)
  | [] => some []
  | l :: ls => (opText l).bind fun op => (programText ls).map (op :: ·)

end Sys2Proof.Machine
end

