-- ==== Sys2Proof/Safety.lean ====
section
/-!
DEFINITION. The terms in which statements about the block are made: a cooperative environment, the
quiescent invariant, the event sequences of the spec's tables, what an operation leaves unchanged,
and what a chip on a line is given and understands. Written from the spec's tables, not from the
machine's own functions.
-/

namespace Sys2Proof.Machine

/-- No coming primitive fails and the clock never stops: the environment of the spec's default
parameters (92_eei_decisions.md, `PinErr` and `LinkErr` empty; D3). -/
def Cooperative (s : State) : Prop := (∀ v ∈ s.env.verdicts, v = none) ∧ s.env.stopAt = none

/-- Line `i` exists and the environment is cooperative. -/
def Ready (i : Nat) (s : State) : Prop := i < s.numLines ∧ Cooperative s

/-- The quiescent invariant's conclusion (10_state.md R36). -/
def Quiescent (s : State) : Prop := s.dir = .out ∧ ∀ l ∈ s.lines, l.e = false ∧ l.cs = false

/-- The operation ends, with a value or with an error, in state `t`. -/
def OpResult.EndsIn {α : Type} (r : OpResult α) (t : State) : Prop :=
  match r with
  | .done _ u => u = t
  | .raised _ u => u = t
  | .hung _ => False

/-- The trace after an access that waited for the instant `d` first: the wait, which ends at `d`, or
at once if `d` has passed, and then only events no earlier than its end (44_timing_scheduler.md
R191). -/
def WaitsFirst (d : Instant) (s t : State) : Prop :=
  ∃ new, t.trace = s.trace ++ ⟨max (elapse s).env.clock d, .wait d⟩ :: new
    ∧ ∀ e ∈ new, max (elapse s).env.clock d ≤ e.instant

/-- The deadline of line `i` is this instant plus `d`, and no event of the trace is later than this
instant (44_timing_scheduler.md R192). -/
def Booked (i : Nat) (d : Duration) (t : State) : Prop :=
  (t.line i).deadline = t.env.clock + d ∧ ∀ e ∈ t.trace, e.instant + d ≤ (t.line i).deadline

/-- Whether a result is an `Err` (00_scope.md R12). -/
def HostResult.isErr : HostResult → Bool
  | .err _ => true
  | .okUnit | .okStatus _ _ | .okWord _ | .count _ | .handle _ | .noHandle => false

/-- An event with the instant of a wait forgotten, for the spec's tables, which print
`Wait` without it (42_parallel_transport.md R152). -/
def untimed : Event → Event
  | .wait _ => .wait 0
  | .rs v => .rs v
  | .rw v => .rw v
  | .en i v => .en i v
  | .data v => .data v
  | .dir d => .dir d
  | .sample v => .sample v
  | .cs i v => .cs i v
  | .link b => .link b

/-- The trace as the spec prints it. -/
def State.shape (s : State) : List Event := s.events.map untimed

/-- Bits 7..4 of a byte on four wires (20_memory.md R55). -/
def upperBits (b : Byte) : Byte := (b.extractLsb' 4 4).setWidth 8

/-- Bits 3..0 of a byte on four wires (20_memory.md R55). -/
def lowerBits (b : Byte) : Byte := (b.extractLsb' 0 4).setWidth 8

/-- One write cycle (42_parallel_transport.md R146, R143). -/
def writePulse (i : Nat) (v : Byte) : List Event := [.data v, .en i true, .wait 0, .en i false]

/-- One read cycle (42_parallel_transport.md R149, R144). -/
def readPulse (i : Nat) (v : Byte) : List Event := [.en i true, .wait 0, .sample v, .en i false]

/-- The cycles of one byte written (30_encoding.md R82, R83). -/
def byteEvents (b : Bus) (i : Nat) (v : Byte) : List Event :=
  match b with
  | .par4 => writePulse i (upperBits v) ++ writePulse i (lowerBits v)
  | .par8 | .ser => writePulse i v

/-- The two nibble-bytes of a serial payload byte (30_encoding.md R85): `b[7:4] ++ 0000`, then
`b[3:0] ++ 0000`. -/
def nibbleEvents (v : Byte) : List Event :=
  [.link (v.extractLsb' 4 4 ++ 0#4), .link (v.extractLsb' 0 4 ++ 0#4)]

/-- The events of a write access (42_parallel_transport.md R152, 43_serial_transport.md R175);
`toRam` is the register: `DATA_WR` (RS = 1, sync byte FA) or `CMD` (RS = 0, sync byte F8). -/
def writeEvents (b : Bus) (i : Nat) (toRam : Bool) (v : List Byte) : List Event :=
  match b with
  | .par4 | .par8 => [.rs toRam, .rw false] ++ v.flatMap (byteEvents b i)
  | .ser =>
    [.cs i true, .link (if toRam then 0xFA#8 else 0xF8#8)] ++ v.flatMap nibbleEvents ++ [.cs i false]

/-- One scheduled write: the deadline wait, then the access (44_timing_scheduler.md R193). -/
def emitEvents (b : Bus) (i : Nat) (a : Bool × List Byte) : List Event :=
  .wait 0 :: writeEvents b i a.1 a.2

/-- One scheduled read with the values sampled (42_parallel_transport.md R153,
44_timing_scheduler.md R195). -/
def readEvents (i : Nat) (ofRam : Bool) (samples : List Byte) : List Event :=
  [.wait 0, .dir .into, .rs ofRam, .rw true] ++ samples.flatMap (readPulse i) ++ [.dir .out]

/-- What goes out before a Basic-set command (45_mode_machine.md R213, R214). -/
def basicPrelude : Mode → List (Bool × List Byte)
  | .basic => []
  | .extended => [(false, [0x20#8])]
  | .graphic => [(false, [0x24#8]), (false, [0x20#8])]

/-- What goes out before an Extended/Graphic-set command (45_mode_machine.md R213, R215). -/
def extPrelude : Mode → List (Bool × List Byte)
  | .basic => [(false, [0x24#8])]
  | .extended => []
  | .graphic => []

/-- The mode after an Extended/Graphic-set command (45_mode_machine.md R213). -/
def extMode : Mode → Mode
  | .basic => .extended
  | .extended => .extended
  | .graphic => .graphic

/-- Everything an operation on line `i` leaves alone: the parameters, the number of lines, the
pending operations, every register of every other line; and time does not go back
(46_shared_bus.md R245). -/
def KeepsRest (i : Nat) (s t : State) : Prop :=
  t.cfg = s.cfg ∧ t.numLines = s.numLines ∧ t.pending = s.pending
    ∧ (∀ j, j ≠ i → t.lines[j]? = s.lines[j]?) ∧ s.env.clock ≤ t.env.clock

/-- The data latch and the wires after a value is driven: both hold it, but with the wires inputs
nothing is driven and both are as before (10_state.md R25). -/
def DataAfterDrive (v : Byte) (s t : State) : Prop :=
  (t.dir = .out → t.data = v ∧ t.wires = v) ∧ (t.dir = .into → t.data = s.data ∧ t.wires = s.wires)

/-- The pin latches after accesses, the last of which wrote `a`: on a parallel bus `RS` and `RW` as
selected, `E[i]` low, the last value driven, the chip-select as before; on `SER` only `CS[i]`, low
(10_state.md R23 to R26). -/
def PinsAfterWrite (i : Nat) (a : Bool × List Byte) (s t : State) : Prop :=
  match s.cfg.bus with
  | .par4 => t.rs = a.1 ∧ t.rw = false ∧ (t.line i).e = false ∧ (t.line i).cs = (s.line i).cs
      ∧ DataAfterDrive (lowerBits (a.2.getLastD 0#8)) s t
  | .par8 => t.rs = a.1 ∧ t.rw = false ∧ (t.line i).e = false ∧ (t.line i).cs = (s.line i).cs
      ∧ DataAfterDrive (a.2.getLastD 0#8) s t
  | .ser => t.rs = s.rs ∧ t.rw = s.rw ∧ t.data = s.data ∧ t.wires = s.wires
      ∧ (t.line i).e = (s.line i).e ∧ (t.line i).cs = false

/-- The access a command makes: whether to `DATA_WR`, and the bytes (44_timing_scheduler.md R193). -/
def accessOf (p : Params) (c : Command) : Bool × List Byte :=
  (regRs (commandAccess p.cursorCtrl c).1, payloadBytes (commandAccess p.cursorCtrl c).2)

/-- What the completion of a command means: the host gets `Ok(())`; the trace grows by `evs`, whose
last access is `a`, and by nothing else; the mode is `m`; the deadline is the instant of the booking
plus `d`; the wires are as in `dir`; the pins are as the last access leaves them; everything else is
as before. -/
def SentWith (i : Nat) (evs : List Event) (a : Bool × List Byte) (d : Duration) (m : Mode)
    (dir : Dir) (s t : State) : Prop :=
  t.results = s.results ++ [.okUnit]
    ∧ t.shape = s.shape ++ evs
    ∧ (t.line i).mode = m
    ∧ (t.line i).deadline = t.env.clock + d
    ∧ (t.line i).chipUnknown = (s.line i).chipUnknown
    ∧ t.dir = dir
    ∧ PinsAfterWrite i a s t
    ∧ KeepsRest i s t

/-- The completion of a command without polls: the selects `pre` and then `a` go out, the first after
the line's deadline, each further one after the 72 µs of the select before it. -/
def Sent (i : Nat) (pre : List (Bool × List Byte)) (a : Bool × List Byte) (d : Duration) (m : Mode)
    (s t : State) : Prop :=
  SentWith i ((pre ++ [a]).flatMap (emitEvents s.cfg.bus i)) a d m s.dir s t
    ∧ max s.env.clock (s.line i).deadline + 72 * pre.length ≤ t.env.clock

/-- What the completion of a read means: the host gets `r`; the trace grows by one read access with
the values `samples`; `DIR` is `Out` again, `RW` stays 1, `DATA` and the mode are as before; the
deadline is the instant of the booking plus `T_READ` (42_parallel_transport.md R153,
44_timing_scheduler.md R195). -/
def ReadBack (i : Nat) (ofRam : Bool) (samples : List Byte) (r : HostResult) (s t : State) : Prop :=
  t.results = s.results ++ [r]
    ∧ t.shape = s.shape ++ readEvents i ofRam samples
    ∧ (t.line i).mode = (s.line i).mode
    ∧ (t.line i).deadline = t.env.clock + s.cfg.tRead
    ∧ (t.line i).chipUnknown = (s.line i).chipUnknown
    ∧ t.dir = .out ∧ t.rs = ofRam ∧ t.rw = true ∧ t.data = s.data ∧ t.wires = s.data
    ∧ (t.line i).e = false ∧ (t.line i).cs = (s.line i).cs
    ∧ KeepsRest i s t

/-- What an operation on line `i` that failed before it booked anything leaves: the host gets `Err`;
the events `evs` stand and no others; deadline, mode and direction of the wires as given, nothing
cleaned up, the line's flag set (60_exceptions.md R283, R285). -/
def FailedInPlace (i : Nat) (err : BlockError) (evs : List Event) (d : Dir) (s t : State) : Prop :=
  t.results = s.results ++ [.err err]
    ∧ t.shape = s.shape ++ evs
    ∧ (t.line i).deadline = (s.line i).deadline
    ∧ (t.line i).mode = (s.line i).mode
    ∧ (t.line i).chipUnknown = true
    ∧ t.dir = d
    ∧ KeepsRest i s t

/-- The pin latches of a parallel bus (10_state.md R23 to R25). -/
def PinsAre (i : Nat) (rs rw : Bool) (data : Byte) (e cs : Bool) (t : State) : Prop :=
  t.rs = rs ∧ t.rw = rw ∧ t.data = data ∧ (t.line i).e = e ∧ (t.line i).cs = cs

/-! ### Where an operation fails (60_exceptions.md R283, R285) -/

/-- Whether an event is that of a primitive that can fail: every event but a wait (00_scope.md R11). -/
def Event.canFail : Event → Bool
  | .wait _ => false
  | .rs _ | .rw _ | .en _ _ | .data _ | .dir _ | .sample _ | .cs _ _ | .link _ => true

/-- The events of the primitives that can fail. -/
def fallible (evs : List Event) : List Event := evs.filter (·.canFail)

/-- The events before the `n`-th one that can fail, counted from 0: what stands when that primitive
fails (60_exceptions.md R283). -/
def beforeFailure : Nat → List Event → List Event
  | _, [] => []
  | 0, ev :: es => if ev.canFail then [] else ev :: beforeFailure 0 es
  | n + 1, ev :: es => ev :: beforeFailure (if ev.canFail then n else n + 1) es

/-- The error of the primitive whose event would have been `ev` (60_exceptions.md R281). -/
def errorAt (e : Nat) : Event → BlockError
  | .link _ => .linkError e
  | .rs _ | .rw _ | .en _ _ | .data _ | .dir _ | .sample _ | .cs _ _ | .wait _ => .pinError e

/-- The latches of the shared pins and of line `i` (10_state.md R23 to R26). -/
structure Latches where
  rs : Bool
  rw : Bool
  data : Byte
  dir : Dir
  e : Bool
  cs : Bool
  deriving DecidableEq, Repr

/-- The latches of a state. -/
def latches (i : Nat) (s : State) : Latches :=
  ⟨s.rs, s.rw, s.data, s.dir, (s.line i).e, (s.line i).cs⟩

/-- How one event changes the latches; a drive while the wires are inputs changes none (10_state.md
R25, R34). -/
def Latches.after (i : Nat) (l : Latches) : Event → Latches
  | .rs v => { l with rs := v }
  | .rw v => { l with rw := v }
  | .en j v => if j = i then { l with e := v } else l
  | .cs j v => if j = i then { l with cs := v } else l
  | .data v => if l.dir = .out then { l with data := v } else l
  | .dir d => { l with dir := d }
  | .sample _ | .link _ | .wait _ => l

/-- What an operation on line `i` leaves whose `n`-th fallible primitive of the access `acc` fails with
the value `e`, after the events `whole` of everything before that access: the host gets the error; the
events before the failing primitive stand and no others; the wait at the front of the access was for
the deadline the line still has, so nothing was booked; the latches are as those events left them,
nothing cleaned up; the line's flag is set (60_exceptions.md R283, R285, the spec's decision D28). -/
def FailedIn (i n e : Nat) (whole acc : List Event) (s t : State) : Prop :=
  (∃ ev, (fallible acc)[n]? = some ev ∧ t.results = s.results ++ [.err (errorAt e ev)])
    ∧ (∃ a u part, t.trace = s.trace ++ a ++ ⟨u, .wait (t.line i).deadline⟩ :: part
      ∧ a.map (fun x => untimed x.ev) = whole
      ∧ .wait 0 :: part.map (fun x => untimed x.ev) = beforeFailure n acc)
    ∧ latches i t = (whole ++ beforeFailure n acc).foldl (Latches.after i) (latches i s)
    ∧ (t.line i).chipUnknown = true
    ∧ KeepsRest i s t

/-- What a read of `k` samples leaves whose `n`-th fallible primitive fails: the access is the read of
some values, those the environment gives where it gives them; deadline and mode are as before; the
wires are inputs once `set_dir(In)` is done, and the enable line is high if the sample or the falling
edge of a pulse failed (60_exceptions.md R285). -/
def ReadFailed (i n e k : Nat) (ofRam : Bool) (s t : State) : Prop :=
  ∃ vs, vs.length = k
    ∧ (∀ j v, j < k → s.env.samples[j]? = some v → vs[j]? = some (onWires s.cfg v))
    ∧ FailedIn i n e [] (readEvents i ofRam vs) s t
    ∧ (t.line i).deadline = (s.line i).deadline ∧ (t.line i).mode = (s.line i).mode
    ∧ t.dir = (if n = 0 then s.dir else .into)
    ∧ (3 ≤ n → n % 3 ≠ 0 → (t.line i).e = true)

/-- The five accesses of `init`, each with the waits before its own (47_facade.md R268). -/
def initSteps : List (List Event × (Bool × List Byte)) :=
  [([.wait 0], (false, [0x20#8])), ([.wait 0], (false, [0x20#8])), ([.wait 0], (false, [0x0C#8])),
    ([], (false, [0x01#8])), ([], (false, [0x06#8]))]

/-- The events of steps of `init`. -/
def initEvents (b : Bus) (i : Nat) (steps : List (List Event × (Bool × List Byte))) : List Event :=
  steps.flatMap fun p => p.1 ++ emitEvents b i p.2

/-- An instruction, `wait_ready` or `init` on line `i` answers `t`. -/
def RunsOn (i : Nat) (s t : State) : Prop :=
  (∃ c : Instr, c.line = i ∧ exec c s = .next t) ∨ runWaitReady i s = .next t
    ∨ runInit i s = .next t

/-- An instruction answers a next state of which `post` holds. -/
def Completes (c : Instr) (s : State) (post : State → Prop) : Prop :=
  ∃ t, exec c s = .next t ∧ post t

/-- The select commands `exec` inserts before a command (45_mode_machine.md R213). -/
def insertedSelects (policy : WriteModePolicy) (c : Command) (m : Mode) : List Command :=
  let beforeBasic : List Command := match m with
    | .basic => []
    | .extended => [.selectBasic]
    | .graphic => [.selectExtended, .selectBasic]
  let beforeExt : List Command := match m with
    | .basic => [.selectExtended]
    | .extended => []
    | .graphic => []
  match c with
  | .write _ => match policy with
    | .basicSet => beforeBasic
    | .neutral => []
  | .clear | .home | .entryMode _ _ | .displayOnOff _ _ _ | .cursorDisplayCtrl _ _
  | .cgRamAddr _ | .ddRamAddr _ => beforeBasic
  | .standBy | .enableScroll | .enableCgRam | .reverse _ | .scrollOffset _
  | .graphicRamAddr _ _ => beforeExt
  | .selectBasic => match m with
    | .graphic => [.selectExtended]
    | .basic => []
    | .extended => []
  | .selectExtended => []
  | .selectGraphic => beforeExt

/-- The mode after a command returned `Ok` (45_mode_machine.md R223). -/
def modeAfter (policy : WriteModePolicy) (c : Command) (m : Mode) : Mode :=
  match c with
  | .write _ => match policy with
    | .basicSet => .basic
    | .neutral => m
  | .clear | .home | .entryMode _ _ | .displayOnOff _ _ _ | .cursorDisplayCtrl _ _
  | .cgRamAddr _ | .ddRamAddr _ | .selectBasic => .basic
  | .standBy | .enableScroll | .enableCgRam | .reverse _ | .scrollOffset _
  | .graphicRamAddr _ _ => extMode m
  | .selectExtended => .extended
  | .selectGraphic => .graphic

/-- The commands before which the chip must be in the Basic set (45_mode_machine.md R212). -/
def needsBasic (policy : WriteModePolicy) : Command → Bool
  | .write _ => decide (policy = .basicSet)
  | .clear | .home | .entryMode _ _ | .displayOnOff _ _ _ | .cursorDisplayCtrl _ _
  | .cgRamAddr _ | .ddRamAddr _ => true
  | .standBy | .enableScroll | .enableCgRam | .reverse _ | .scrollOffset _
  | .graphicRamAddr _ _ | .selectBasic | .selectExtended | .selectGraphic => false

/-- Whether the values sampled in one status read say busy: bit 7 of the byte, the top wire of the
first of two nibbles (20_memory.md R55, R58). -/
def busyRead (b : Bus) (vs : List Byte) : Bool :=
  match b with
  | .par4 => (vs.headD 0#8).getLsbD 3
  | .par8 | .ser => (vs.headD 0#8).getLsbD 7

/-- A list of events without its reads: a read runs from a wait before `Dir(In)` to `Dir(Out)`
(42_parallel_transport.md R153); the flag says whether the list starts inside one. -/
def dropReads : Bool → List Event → List Event
  | _, [] => []
  | true, .dir .out :: es => dropReads false es
  | true, _ :: es => dropReads true es
  | false, .wait _ :: .dir .into :: es => dropReads true es
  | false, e :: es => e :: dropReads false es

/-- The events of the writes among stamped events, as the spec prints them. -/
def writesIn (new : List Stamped) : List Event := dropReads false (new.map fun e => untimed e.ev)

/-- The mode a select command latches; other commands latch none (10_state.md R30). -/
def selectedMode : Command → Option Mode
  | .selectBasic => some .basic
  | .selectExtended => some .extended
  | .selectGraphic => some .graphic
  | .write _ | .clear | .home | .entryMode _ _ | .displayOnOff _ _ _ | .cursorDisplayCtrl _ _
  | .cgRamAddr _ | .ddRamAddr _ | .standBy | .enableScroll | .enableCgRam | .reverse _
  | .scrollOffset _ | .graphicRamAddr _ _ => none

/-- The level of the line that makes the chip listen: the enable line of a parallel bus, the
chip-select of `SER` (00_scope.md R6). -/
def lineLevel (b : Bus) (l : LineRegs) : Bool :=
  match b with
  | .par4 | .par8 => l.e
  | .ser => l.cs

/-- Lines of which the chip is known are low (10_state.md R36, 60_exceptions.md R285). -/
def KnownLinesLow (s : State) : Prop :=
  ∀ l ∈ s.lines, l.chipUnknown = false → lineLevel s.cfg.bus l = false

/-- Along a list of commands sent from mode `m`, each select changes at most one of the two
mode-select bits (45_mode_machine.md R220, 30_encoding.md R79). -/
def OneBitAtATime : Mode → List Command → Prop
  | _, [] => True
  | m, c :: cs =>
    match selectedMode c with
    | some m' => modeBitsChanged m m' ≤ 1 ∧ OneBitAtATime m' cs
    | none => OneBitAtATime m cs

/-- The observation is in order and the latches fit: events stand in the order of their instants and
none lies in the future; no deadline lies further ahead than the longest booking; `DATA` holds no bit
that a data wire does not carry (10_state.md R25, 44_timing_scheduler.md R192,
70_reset_and_hazards.md R326). -/
def Orderly (s : State) : Prop :=
  s.trace.Pairwise (fun a b => a.instant ≤ b.instant)
    ∧ (∀ e ∈ s.trace, e.instant ≤ s.env.clock)
    ∧ (∀ l ∈ s.lines, l.deadline ≤ s.env.clock + max 1600 s.cfg.tRead)
    ∧ s.data &&& BitVec.ofNat 8 (2 ^ s.cfg.width - 1) = s.data

/-! ### What the chip on a line is given (42_parallel_transport.md R155)

Terms of statements, no part of the machine (log 19). -/

/-- The edge of the enable pulse at which a chip takes the wires. The spec leaves it open
(91_not_in_source.md N22), so statements hold for both (42_parallel_transport.md R145). -/
inductive Edge where
  | rise | fall
  deriving DecidableEq, Repr

/-- The levels a chip sees on a parallel bus, and whether the block drives the data wires: while it
does not, its data events reach no chip (10_state.md R25). -/
structure WireView where
  rs : Bool
  rw : Bool
  data : Byte
  /-- the level of its enable line -/
  level : Bool
  /-- whether the present high level began with a rise seen here -/
  pulse : Bool
  driven : Bool
  deriving DecidableEq, Repr

/-- What the chip on line `i` sees in a state. -/
def wireView (i : Nat) (s : State) : WireView :=
  ⟨s.rs, s.rw, s.wires, (s.line i).e, false, decide (s.dir = .out)⟩

/-- How one event changes what the chip on line `i` sees; raising a line that is already high is no
rise (70_reset_and_hazards.md R313, R327). -/
def seeEvent (i : Nat) (w : WireView) : Event → WireView
  | .rs v => { w with rs := v }
  | .rw v => { w with rw := v }
  | .data v => if w.driven then { w with data := v } else w
  | .en j true => if j = i then { w with level := true, pulse := w.pulse || !w.level } else w
  | .en j false => if j = i then { w with level := false, pulse := false } else w
  | .dir d => { w with driven := decide (d = .out) }
  | .sample _ | .cs _ _ | .link _ | .wait _ => w

/-- Whether an event is the edge at which the chip on line `i` takes the wires: the rise, or the fall
of a pulse whose rise it saw. A fall without a rise gives nothing, as 70_reset_and_hazards.md R313
says of the first pulse after construction; that it is so after an `Err` too is the model's choice
(DESIGN CHOICE, log 19). -/
def takesAt (edge : Edge) (i : Nat) (w : WireView) : Event → Bool
  | .en j v => decide (j = i) && match edge with
    | .rise => v && !w.level
    | .fall => !v && w.pulse
  | .rs _ | .rw _ | .data _ | .dir _ | .sample _ | .cs _ _ | .link _ | .wait _ => false

/-- What the chip on line `i` takes at one event: `RS` and the wires, when `RW` is 0 and the block
drives the wires. -/
def takenAt (edge : Edge) (i : Nat) (w : WireView) (e : Event) : Option (Bool × Byte) :=
  if takesAt edge i w e && !w.rw && w.driven then some (w.rs, w.data) else none

/-- Everything the chip on line `i` takes from a parallel bus. -/
def takenPulses (edge : Edge) (i : Nat) : WireView → List Event → List (Bool × Byte)
  | _, [] => []
  | w, e :: es => (takenAt edge i w e).toList ++ takenPulses edge i (seeEvent i w e) es

/-- Two nibbles taken one after the other are a byte, high nibble first (20_memory.md R55). -/
def joinTaken : List (Bool × Byte) → List (Bool × Byte)
  | (r, hi) :: (_, lo) :: rest => (r, (hi <<< 4) ||| lo) :: joinTaken rest
  | [_] => []
  | [] => []

/-- The frames of the chip on line `i` of a serial link: the bytes between a rise and the next fall of
its chip-select. `level` is its level, `cur` the frame so far; a frame whose rise was not seen is lost
(70_reset_and_hazards.md R327; DESIGN CHOICE, log 19). -/
def takenFrames (i : Nat) : Bool → Option (List Byte) → List Event → List (List Byte)
  | _, _, [] => []
  | level, cur, .cs j true :: es =>
    if j = i then takenFrames i true (if level then cur else some []) es
    else takenFrames i level cur es
  | level, cur, .cs j false :: es =>
    if j = i then cur.toList ++ takenFrames i false none es else takenFrames i level cur es
  | level, cur, .link b :: es => takenFrames i level (cur.map (· ++ [b])) es
  | level, cur, .rs _ :: es => takenFrames i level cur es
  | level, cur, .rw _ :: es => takenFrames i level cur es
  | level, cur, .en _ _ :: es => takenFrames i level cur es
  | level, cur, .data _ :: es => takenFrames i level cur es
  | level, cur, .dir _ :: es => takenFrames i level cur es
  | level, cur, .sample _ :: es => takenFrames i level cur es
  | level, cur, .wait _ :: es => takenFrames i level cur es

/-- The payload bytes of a frame, with the RS bit of its sync byte (30_encoding.md R84, R85). -/
def frameTaken (rs : Bool) : List Byte → List (Bool × Byte)
  | hi :: lo :: rest => (rs, hi ||| (lo >>> 4)) :: frameTaken rs rest
  | [_] => []
  | [] => []

/-- A frame is its sync byte and its payload. -/
def frameBytesTaken : List Byte → List (Bool × Byte)
  | [] => []
  | sync :: nibbles => frameTaken (sync.getLsbD 1) nibbles

/-- The bytes the chip on line `i` takes, each with its RS, when the events happen from `s` on. -/
def chipBytes (edge : Edge) (i : Nat) (s : State) (evs : List Event) : List (Bool × Byte) :=
  match s.cfg.bus with
  | .par4 => joinTaken (takenPulses edge i (wireView i s) evs)
  | .par8 => takenPulses edge i (wireView i s) evs
  | .ser => (takenFrames i (s.line i).cs none evs).flatMap frameBytesTaken

/-- The chip on line `i` is known and listening: the model's flag is clear, as
93_implementation_defined.md section 2 asks of every claim about what the chip receives
(60_exceptions.md R286), its line is low and the data wires of a parallel bus are outputs (10_state.md R36). -/
def ChipListens (i : Nat) (s : State) : Prop :=
  (s.line i).chipUnknown = false ∧ lineLevel s.cfg.bus (s.line i) = false
    ∧ (s.cfg.bus.isParallel = true → s.dir = .out)

/-- The mode of a chip after an instruction: it refuses a select that changes both mode-select bits
(93_implementation_defined.md U1, 30_encoding.md R81). -/
def chipModeAfter (m : Mode) : Instr → Option Mode
  | .selectBasic _ => if modeBitsChanged m .basic ≤ 1 then some .basic else none
  | .selectExtended _ => if modeBitsChanged m .extended ≤ 1 then some .extended else none
  | .selectGraphic _ => if modeBitsChanged m .graphic ≤ 1 then some .graphic else none
  | .write _ _ | .clear _ | .home _ | .entryMode _ _ _ | .displayOnOff _ _ _ _
  | .cursorDisplayCtrl _ _ _ | .cgRamAddr _ _ | .ddRamAddr _ _ | .standBy _ | .enableScroll _
  | .enableCgRam _ | .reverse _ _ | .scrollOffset _ _ | .graphicRamAddr _ _ _ | .readStatus _
  | .readRam _ => some m

/-- What a chip that starts in mode `m` understands from the bytes it takes: 30_encoding.md R87
applied byte by byte, the mode following the selects (R76); none where a byte is reserved or a select
is refused. -/
def chipUnderstands (i : Nat) : Mode → List (Bool × Byte) → Option (List Instr)
  | _, [] => some []
  | m, (true, h) :: (true, l) :: rest =>
    match decode ⟨i, modeSet m, .dataWr, [h, l]⟩ with
    | .ok c => (chipUnderstands i m rest).map (c :: ·)
    | .error _ => none
  | m, (false, b) :: (false, b2) :: rest =>
    match decode ⟨i, modeSet m, .cmd, [b]⟩ with
    | .ok c =>
      match chipModeAfter m c with
      | some m' => (chipUnderstands i m' ((false, b2) :: rest)).map (c :: ·)
      | none => none
    | .error _ =>
      match decode ⟨i, modeSet m, .cmd, [b, b2]⟩ with
      | .ok c => (chipUnderstands i m rest).map (c :: ·)
      | .error _ => none
  | m, (false, b) :: rest =>
    match decode ⟨i, modeSet m, .cmd, [b]⟩ with
    | .ok c =>
      match chipModeAfter m c with
      | some m' => (chipUnderstands i m' rest).map (c :: ·)
      | none => none
    | .error _ => none
  | _, (true, _) :: _ => none

end Sys2Proof.Machine
end

