-- ==== Sys2Proof/Certificates/Slice0/Obligations.lean ====
section
/-!
DEFINITION. The statements about the model. A bus access is written (register is `DATA_WR`?, bytes);
the vocabulary (`Ready`, `Completes`, `Sent`, `ReadBack`, ...) is in Sys2Proof/Safety.lean.
-/

open Sys2Proof Sys2Proof.Machine

/-! ### Encoding -/

/-- Decoding an encoded instruction gives it back, for every instruction and every operand
(30_encoding.md R87). -/
def Obligations.DecodeOfEncode : Prop := ∀ c : Instr, decode (encode c) = .ok c

/-- A word that decodes is the encoding of what it decodes to: same line, register and bytes, and
the same set, but for `0x20` and `0x24`, which either set decodes, and for a register other than
`CMD`, whose accesses have no set (30_encoding.md R75, R81, R87). -/
def Obligations.EncodeOfDecode : Prop :=
  ∀ (w : PortWord) (c : Instr), decode w = .ok c →
    (encode c).line = w.line ∧ (encode c).reg = w.reg ∧ (encode c).bytes = w.bytes
      ∧ ((encode c).set = w.set ∨ w.reg ≠ .cmd ∨ w.bytes = [0x20#8] ∨ w.bytes = [0x24#8])

/-- Words written out from the spec's tables decode to the instructions they stand for
(30_encoding.md R73, R74, R80, R86; 95_test_vectors.md V7). -/
def Obligations.WrittenWordsDecode : Prop :=
  decode ⟨0, .basic, .cmd, [0b00000001#8]⟩ = .ok (.clear 0)
    ∧ decode ⟨0, .extendedOrGraphic, .cmd, [0b00000001#8]⟩ = .ok (.standBy 0)
    ∧ decode ⟨0, .basic, .cmd, [0b00000110#8]⟩ = .ok (.entryMode 0 true false)
    ∧ decode ⟨0, .extendedOrGraphic, .cmd, [0b00000110#8]⟩ = .ok (.reverse 0 2#2)
    ∧ decode ⟨0, .basic, .cmd, [0b10010000#8]⟩ = .ok (.ddRamAddr 0 0x10#7)
    ∧ decode ⟨0, .extendedOrGraphic, .cmd, [0b10000101#8, 0b10000011#8]⟩
        = .ok (.graphicRamAddr 0 3#6 5#4)
    ∧ decode ⟨0, .basic, .dataWr, [0x12#8, 0x34#8]⟩ = .ok (.write 0 0x1234#16)
    ∧ decode ⟨0, .basic, .status, []⟩ = .ok (.readStatus 0)

/-- The bytes reserved on `CMD` in the Basic set and in the Extended/Graphic set are exactly those of
the spec's lists for Basic and for Extended, `0x26` among the first; the list for Graphic adds `0x20`,
which the set alone does not tell (30_encoding.md R81, R87; log 22). -/
def Obligations.ReservedBytes : Prop :=
  ∀ (i : Nat) (b : Byte),
    ((∃ c, decode ⟨i, .basic, .cmd, [b]⟩ = .ok c) ↔
      ¬(b = 0x00#8 ∨ b = 0x03#8 ∨ (0x11#8 ≤ b ∧ b ≤ 0x13#8) ∨ (0x15#8 ≤ b ∧ b ≤ 0x17#8)
        ∨ (0x19#8 ≤ b ∧ b ≤ 0x1B#8) ∨ (0x1D#8 ≤ b ∧ b ≤ 0x1F#8) ∨ (0x21#8 ≤ b ∧ b ≤ 0x23#8)
        ∨ (0x25#8 ≤ b ∧ b ≤ 0x3F#8)))
    ∧ ((∃ c, decode ⟨i, .extendedOrGraphic, .cmd, [b]⟩ = .ok c) ↔
      ¬(b = 0x00#8 ∨ (0x08#8 ≤ b ∧ b ≤ 0x1F#8) ∨ (0x21#8 ≤ b ∧ b ≤ 0x23#8) ∨ b = 0x25#8
        ∨ (0x27#8 ≤ b ∧ b ≤ 0x3F#8) ∨ 0x60#8 ≤ b))
    ∧ ((∃ b2 c, decode ⟨i, .extendedOrGraphic, .cmd, [b, b2]⟩ = .ok c) ↔
      (0x80#8 ≤ b ∧ b ≤ 0x8F#8))

/-- The spec's examples of the textual form read as the operations they name, a field value that
does not fit is no command, and `write` is the same operation as `exec` of `Write` (30_encoding.md
R90, R91: the form is the spec's decision D32, the refusal D19; lines with braces are in the
tests). -/
def Obligations.ProgramTextReads : Prop :=
  programText ["exec 0 Clear", "exec 1 DdRamAddr(0x10)", "exec 0 Write(0x4141)",
      "exec 0 ScrollOffset(5)", "exec 0 Reverse(0b10)", "status 1", "ramrd 0", "wait 1", "init 0"]
    = some [issue (.clear 0), issue (.ddRamAddr 1 0x10#7), issue (.write 0 0x4141#16),
        issue (.scrollOffset 0 5#5), issue (.reverse 0 2#2), issue (.readStatus 1),
        issue (.readRam 0), .waitReady 1, .init 0]
    ∧ opText "exec 0 DdRamAddr(128)" = none
    ∧ opText "write 0 0x1234" = opText "exec 0 Write(0x1234)"

/-! ### The step -/

/-- A step runs the decoded instruction: when the port word at the front decodes to `c`, the step is
`exec c` on the state with that word taken (10_state.md R28, 00_scope.md R13; the queue and the form
of the word are the model's, log 5 and 6). -/
def Obligations.StepRunsDecodedInstr : Prop :=
  ∀ (s : State) (w : PortWord) (rest : List HostOp) (c : Instr),
    s.pending = .command w :: rest → decode w = .ok c →
      step s = exec c { s with pending := rest }

/-- What a step does with everything else at the front of the queue: a word that is no command is
refused by name (30_encoding.md R81, R87: reserved; the refusal is the model's, log 9), the operations
without encoding run (47_facade.md R260), and with nothing pending the block stays as it is (log 5). -/
def Obligations.StepRunsOtherRequests : Prop :=
  ∀ (s : State) (rest : List HostOp),
    (s.pending = [] → step s = .next s)
    ∧ (∀ w e, s.pending = .command w :: rest → decode w = .error e →
        step s = .refused (.reservedEncoding e))
    ∧ (∀ i, s.pending = .waitReady i :: rest → step s = runWaitReady i { s with pending := rest })
    ∧ (∀ i, s.pending = .init i :: rest → step s = runInit i { s with pending := rest })
    ∧ (s.pending = .num :: rest → step s = runNum { s with pending := rest })
    ∧ (∀ x, s.pending = .get x :: rest → step s = runGet x { s with pending := rest })

/-- A table word put in front runs as the instruction it decodes to, in any state (the form of the
port word and the queue are the model's, log 5 and 6). -/
def Obligations.TableWordRuns : Prop :=
  ∀ (s : State) (nbits w : Nat) (c : Instr), decodeTableWord nbits w = some c →
    step (s.withFetchWord nbits w) = exec c s

/-! ### Reset -/

/-- Construction leaves every line in Basic with its deadline at the instant of construction, every
enable and chip-select line low, the wires outputs and nothing observed, for every set of parameters
and every number of lines (10_state.md R35; the pin levels are the spec's decision D5). -/
def Obligations.ConstructionState : Prop :=
  ∀ (p : Params) (n : Nat) (t0 : Instant),
    (State.construct p n t0).numLines = n ∧ (State.construct p n t0).cfg = p
    ∧ (State.construct p n t0).env.clock = t0 ∧ (State.construct p n t0).dir = .out
    ∧ (State.construct p n t0).trace = [] ∧ (State.construct p n t0).results = []
    ∧ ∀ i, i < n → ((State.construct p n t0).line i).mode = .basic
        ∧ ((State.construct p n t0).line i).deadline = t0
        ∧ ((State.construct p n t0).line i).e = false
        ∧ ((State.construct p n t0).line i).cs = false

/-! ### The command model -/

/-- `execution_time` (30_encoding.md R89): 1600 for `Clear`, 72 for each of the other 16 variants. -/
def Obligations.ExecutionTimes : Prop :=
  executionTime .clear = 1600 ∧ ∀ c, c ≠ .clear → executionTime c = 72

/-- The select bytes and how many mode-select bits they change (10_state.md R30, 30_encoding.md
R79): one between neighbours, both between Basic and Graphic. -/
def Obligations.SelectBits : Prop :=
  selectByte .basic = 0x20#8 ∧ selectByte .extended = 0x24#8 ∧ selectByte .graphic = 0x26#8
    ∧ modeBitsChanged .basic .extended = 1 ∧ modeBitsChanged .extended .basic = 1
    ∧ modeBitsChanged .extended .graphic = 1 ∧ modeBitsChanged .graphic .extended = 1
    ∧ modeBitsChanged .basic .graphic = 2 ∧ modeBitsChanged .graphic .basic = 2

/-- The nibble-bytes of a serial payload byte: the high nibble left-aligned, then the low nibble
left-aligned, bits 3..0 zero, and the spec's examples (43_serial_transport.md R174). -/
def Obligations.NibbleBytes : Prop :=
  (∀ b : Byte, nibbleBytes b = [b.extractLsb' 4 4 ++ 0#4, b.extractLsb' 0 4 ++ 0#4])
    ∧ (∀ b : Byte, nibbleBytes b = [b &&& 0xF0#8, (b <<< 4) &&& 0xFF#8])
    ∧ nibbleBytes 0x12#8 = [0x10#8, 0x20#8] ∧ nibbleBytes 0x34#8 = [0x30#8, 0x40#8]
    ∧ nibbleBytes 0x00#8 = [0x00#8, 0x00#8] ∧ nibbleBytes 0xFF#8 = [0xF0#8, 0xF0#8]

/-- The sync byte has five ones, `RW`, `RS` and a zero, whatever the register (30_encoding.md R84). -/
def Obligations.SyncByteBits : Prop :=
  ∀ rs rw : Bool, syncByte rs rw = 0b11111#5 ++ BitVec.ofBool rw ++ BitVec.ofBool rs ++ 0#1

/-! ### Every command, where nothing fails -/

/-- `Clear`, `Home`, `EntryMode`, `DisplayOnOff`, `CgRamAddr` and `DdRamAddr` complete in every mode:
the selects of 45_mode_machine.md R213 and the byte of 30_encoding.md R73 go out, the mode is Basic,
and 1600 µs after `Clear`, 72 µs after the others are booked. -/
def Obligations.BasicCommandsComplete : Prop :=
  ∀ (i : Nat) (s : State), Ready i s → s.cfg.busyPoll = false →
    Completes (.clear i) s
        (Sent i (basicPrelude (s.line i).mode) (false, [0x01#8]) 1600 .basic s)
    ∧ Completes (.home i) s
        (Sent i (basicPrelude (s.line i).mode) (false, [0x02#8]) 72 .basic s)
    ∧ (∀ inc sh, Completes (.entryMode i inc sh) s
        (Sent i (basicPrelude (s.line i).mode)
          (false, [0b000001#6 ++ BitVec.ofBool inc ++ BitVec.ofBool sh]) 72 .basic s))
    ∧ (∀ d c b, Completes (.displayOnOff i d c b) s
        (Sent i (basicPrelude (s.line i).mode)
          (false, [0b00001#5 ++ BitVec.ofBool d ++ BitVec.ofBool c ++ BitVec.ofBool b]) 72 .basic s))
    ∧ (∀ a : BitVec 6, Completes (.cgRamAddr i a) s
        (Sent i (basicPrelude (s.line i).mode) (false, [0b01#2 ++ a]) 72 .basic s))
    ∧ (∀ a : BitVec 7, Completes (.ddRamAddr i a) s
        (Sent i (basicPrelude (s.line i).mode) (false, [0b1#1 ++ a]) 72 .basic s))

/-- `CursorDisplayCtrl` completes like the other Basic-set commands, with the byte of the parameter
`CURSOR_DISPLAY_CTRL_BYTE`; with its default value that is `0001 sr00` (30_encoding.md R78: the byte
is the spec's from general knowledge, log 14). -/
def Obligations.CursorDisplayCtrlCompletes : Prop :=
  ∀ (i : Nat) (s : State), Ready i s → s.cfg.busyPoll = false →
    (∀ sd r, Completes (.cursorDisplayCtrl i sd r) s
      (Sent i (basicPrelude (s.line i).mode) (false, [cursorCtrlByte s.cfg.cursorCtrl sd r])
        72 .basic s))
    ∧ (s.cfg.cursorCtrl = .default → ∀ sd r,
        cursorCtrlByte s.cfg.cursorCtrl sd r
          = 0b0001#4 ++ BitVec.ofBool sd ++ BitVec.ofBool r ++ 0b00#2)

/-- `Write` completes under both policies: the 16 bits go to `DATA_WR`, high byte first, after the
Basic-set selects under `basic_set`, in the mode the line is in under `neutral`
(40_commands_basic.md R101, 45_mode_machine.md R212; the policy is the spec's parameter, D21). -/
def Obligations.WriteCompletes : Prop :=
  ∀ (i : Nat) (v : Half) (s : State), Ready i s → s.cfg.busyPoll = false →
    (s.cfg.writePolicy = .basicSet →
      Completes (.write i v) s
        (Sent i (basicPrelude (s.line i).mode) (true, [v.extractLsb' 8 8, v.extractLsb' 0 8])
          72 .basic s))
    ∧ (s.cfg.writePolicy = .neutral →
      Completes (.write i v) s
        (Sent i [] (true, [v.extractLsb' 8 8, v.extractLsb' 0 8]) 72 (s.line i).mode s))

/-- `StandBy`, `EnableScroll`, `EnableCgRam`, `Reverse`, `ScrollOffset` and `GraphicRamAddr` complete
in every mode, whatever `BUSY_POLL`: one `SelectExtended` first from Basic, nothing from Extended or
Graphic; `GraphicRamAddr` is one access of two bytes, `y` first (30_encoding.md R74,
45_mode_machine.md R215; valid in both sets by the spec's decision D22). -/
def Obligations.ExtendedCommandsComplete : Prop :=
  ∀ (i : Nat) (s : State), Ready i s →
    Completes (.standBy i) s
        (Sent i (extPrelude (s.line i).mode) (false, [0x01#8]) 72 (extMode (s.line i).mode) s)
    ∧ Completes (.enableScroll i) s
        (Sent i (extPrelude (s.line i).mode) (false, [0x03#8]) 72 (extMode (s.line i).mode) s)
    ∧ Completes (.enableCgRam i) s
        (Sent i (extPrelude (s.line i).mode) (false, [0x02#8]) 72 (extMode (s.line i).mode) s)
    ∧ (∀ l : BitVec 2, Completes (.reverse i l) s
        (Sent i (extPrelude (s.line i).mode) (false, [0b000001#6 ++ l]) 72
          (extMode (s.line i).mode) s))
    ∧ (∀ o : BitVec 5, Completes (.scrollOffset i o) s
        (Sent i (extPrelude (s.line i).mode) (false, [0b010#3 ++ o]) 72
          (extMode (s.line i).mode) s))
    ∧ (∀ (x : BitVec 6) (y : BitVec 4), Completes (.graphicRamAddr i x y) s
        (Sent i (extPrelude (s.line i).mode) (false, [0b1000#4 ++ y, 0b10#2 ++ x]) 72
          (extMode (s.line i).mode) s))

/-- `SelectBasic` completes in every mode: from Graphic through `SelectExtended`, and sent also when
the line is in Basic (45_mode_machine.md R216, the spec's decision D23). -/
def Obligations.SelectBasicCompletes : Prop :=
  ∀ (i : Nat) (s : State), Ready i s → s.cfg.busyPoll = false →
    Completes (.selectBasic i) s
      (Sent i (match (s.line i).mode with
          | .graphic => [(false, [0x24#8])]
          | .basic => []
          | .extended => []) (false, [0x20#8]) 72 .basic s)

/-- `SelectExtended` completes in every mode with nothing inserted (45_mode_machine.md R217, the
spec's decision D23). -/
def Obligations.SelectExtendedCompletes : Prop :=
  ∀ (i : Nat) (s : State), Ready i s →
    Completes (.selectExtended i) s (Sent i [] (false, [0x24#8]) 72 .extended s)

/-- `SelectGraphic` completes in every mode: from Basic through `SelectExtended`, whose 72 µs pass
before `0x26` goes out, never `0x26` alone (45_mode_machine.md R218); from Graphic it is sent again (the
spec's decision D23). -/
def Obligations.SelectGraphicCompletes : Prop :=
  ∀ (i : Nat) (s : State), Ready i s →
    Completes (.selectGraphic i) s
      (Sent i (match (s.line i).mode with
          | .basic => [(false, [0x24#8])]
          | .extended => []
          | .graphic => []) (false, [0x26#8]) 72 .graphic s)

/-- Every command completes with `Ok` where nothing fails, busy polling included, whatever the chip
answers and whatever time a read books (45_mode_machine.md R222, R224). -/
def Obligations.EveryCommandReturnsOk : Prop :=
  ∀ (i : Nat) (c : Command) (s : State), Ready i s →
    Completes (instrOf i c) s fun t => t.results = s.results ++ [.okUnit]

/-! ### The reads -/

/-- `read_status` completes on a parallel bus: the byte sampled (on 4 wires its high nibble first)
gives busy = bit 7 and the address counter = bits 6..0 (20_memory.md R58; 47_facade.md R264;
`T_READ` is the spec's decision D13). -/
def Obligations.ReadStatusCompletes : Prop :=
  ∀ (i : Nat) (s : State), Ready i s →
    (s.cfg.bus = .par8 → ∀ v rest, s.env.samples = v :: rest →
      Completes (.readStatus i) s
        (ReadBack i false [v] (.okStatus (v.getLsbD 7) (v.extractLsb' 0 7)) s))
    ∧ (s.cfg.bus = .par4 → ∀ (hi lo : BitVec 4) rest,
        s.env.samples = hi.setWidth 8 :: lo.setWidth 8 :: rest →
      Completes (.readStatus i) s
        (ReadBack i false [hi.setWidth 8, lo.setWidth 8]
          (.okStatus (hi.getLsbD 3) ((hi ++ lo).extractLsb' 0 7)) s))

/-- `read_ram` completes on a parallel bus: the first byte sampled is the high byte of the word
(42_parallel_transport.md R150, 47_facade.md R265; the byte order of reads is the spec's decision
D12). -/
def Obligations.ReadRamCompletes : Prop :=
  ∀ (i : Nat) (s : State), Ready i s →
    (s.cfg.bus = .par8 → ∀ h l rest, s.env.samples = h :: l :: rest →
      Completes (.readRam i) s (ReadBack i true [h, l] (.okWord (h ++ l)) s))
    ∧ (s.cfg.bus = .par4 → ∀ (a b c d : BitVec 4) rest,
        s.env.samples = [a, b, c, d].map (BitVec.setWidth 8) ++ rest →
      Completes (.readRam i) s
        (ReadBack i true ([a, b, c, d].map (BitVec.setWidth 8)) (.okWord (a ++ b ++ c ++ d)) s))

/-- A read completes on a parallel bus whatever the chip answers, with a value that is free when no
sample is given (20_memory.md R59, 93_implementation_defined.md U5). -/
def Obligations.ReadsCompleteOnAnySample : Prop :=
  ∀ (i : Nat) (s : State), Ready i s → s.cfg.bus.isParallel = true →
    Completes (.readStatus i) s (fun t => ∃ vs busy ac,
        vs.length = 8 / s.cfg.width ∧ ReadBack i false vs (.okStatus busy ac) s t)
    ∧ Completes (.readRam i) s (fun t => ∃ vs w,
        vs.length = 16 / s.cfg.width ∧ ReadBack i true vs (.okWord w) s t)

/-- On `SER` the two reads are absent from the interface (47_facade.md R267, the spec's decision
D16); the model refuses them (log 8). -/
def Obligations.ReadsAbsentOnSerial : Prop :=
  ∀ (i : Nat) (s : State), s.cfg.bus = .ser →
    exec (.readStatus i) s = .refused .absentOnSerial
    ∧ exec (.readRam i) s = .refused .absentOnSerial

/-! ### Host operations -/

/-- An instruction for a line that does not exist is not performed: the host is told so and nothing
else changes (46_shared_bus.md R242, the spec's decision D30; log 7). -/
def Obligations.NoSuchLineNotPerformed : Prop :=
  ∀ (c : Instr) (s : State), s.numLines ≤ c.line → (c.isRead = true → s.cfg.bus.isParallel = true) →
    exec c s = .next { s with results := s.results ++ [.noHandle] }

/-- `num()` returns `N`; it changes nothing, produces no event and takes no time
(46_shared_bus.md R241). -/
def Obligations.NumReturnsLineCount : Prop :=
  ∀ (s : State) (rest : List HostOp), s.pending = .num :: rest →
    step s = .next
      { s with pending := rest, results := s.results ++ [.count s.lines.length] }

/-- `get(index)` returns the handle of an existing line, none otherwise, and changes nothing
(46_shared_bus.md R242, the spec's decision D30). -/
def Obligations.GetReturnsHandle : Prop :=
  ∀ (s : State) (x : Nat) (rest : List HostOp), s.pending = .get x :: rest →
    (x < s.numLines → step s = .next
      { s with pending := rest, results := s.results ++ [.handle (some x)] })
    ∧ (s.numLines ≤ x → step s = .next
      { s with pending := rest, results := s.results ++ [.handle none] })

/-- `wait_ready(i)` completes when the clock has reached the deadline; its only event is the wait,
and it changes no register and no pin (47_facade.md R266, the spec's decision D40). -/
def Obligations.WaitReadyWaitsOnly : Prop :=
  ∀ (i : Nat) (s : State), Ready i s →
    ∃ t, runWaitReady i s = .next t ∧ (s.line i).deadline ≤ t.env.clock
      ∧ t.results = s.results ++ [.okUnit]
      ∧ t.trace = s.trace ++ [⟨t.env.clock, .wait (s.line i).deadline⟩]
      ∧ t.lines = s.lines ∧ t.rs = s.rs ∧ t.rw = s.rw ∧ t.data = s.data ∧ t.dir = s.dir
      ∧ t.cfg = s.cfg ∧ t.pending = s.pending

/-- The second of two `wait_ready(i)` in a row returns `Ok` at once, in any environment: it adds
nothing to the time that passes anyway (44_timing_scheduler.md R196). -/
def Obligations.SecondWaitNeverBlocks : Prop :=
  ∀ (i : Nat) (s t : State), i < s.numLines → runWaitReady i s = .next t →
    ∃ u, runWaitReady i t = .next u ∧ u.results = t.results ++ [.okUnit]
      ∧ u.env.clock = (elapse t).env.clock

/-- `init(i)` completes where nothing fails: the power-up wait of 80000 µs, the two settle waits,
and the five commands `0x20 0x20 0x0C 0x01 0x06` go out in the spec's order, whatever the mode was
and without any other select; the mode is Basic, 72 µs are booked, and the chip is known
(47_facade.md R268, the spec's decision D29; the flag is the model's, log 16). Where the `n`-th
fallible primitive of its `k`-th command fails, `init` ends there with that error: what went out
stands, the mode is Basic, and the deadline is the one booked last (R269). -/
def Obligations.InitCompletes : Prop :=
  (∀ (i : Nat) (s : State), Ready i s →
    ∃ t, runInit i s = .next t ∧ t.results = s.results ++ [.okUnit]
      ∧ t.shape = s.shape ++ [.wait 0]
          ++ emitEvents s.cfg.bus i (false, [0x20#8]) ++ [.wait 0]
          ++ emitEvents s.cfg.bus i (false, [0x20#8]) ++ [.wait 0]
          ++ emitEvents s.cfg.bus i (false, [0x0C#8])
          ++ emitEvents s.cfg.bus i (false, [0x01#8])
          ++ emitEvents s.cfg.bus i (false, [0x06#8])
      ∧ (t.line i).mode = .basic ∧ (t.line i).deadline = t.env.clock + 72
      ∧ (t.line i).chipUnknown = false
      ∧ s.env.clock + 80000 + 2 * max 72 s.cfg.tInitSettle + 72 + 1600 ≤ t.env.clock
      ∧ t.dir = s.dir ∧ PinsAfterWrite i (false, [0x06#8]) s t ∧ KeepsRest i s t)
  ∧ ∀ (i k n e : Nat) (s : State) (waits : List Event) (a : Bool × List Byte)
      (rest : List (Option Nat)),
    i < s.numLines → s.env.stopAt = none → initSteps[k]? = some (waits, a) →
    let whole := initEvents s.cfg.bus i (initSteps.take k)
    n < (fallible (emitEvents s.cfg.bus i a)).length →
    s.env.verdicts = List.replicate ((fallible whole).length + n) none ++ some e :: rest →
    ∃ t, runInit i s = .next t
      ∧ FailedIn i n e (whole ++ waits) (emitEvents s.cfg.bus i a) s t
      ∧ (t.line i).mode = .basic ∧ s.env.clock + 80000 + 72 * k ≤ (t.line i).deadline

/-! ### The mode machine in any environment -/

/-- After a command returned `Ok`, in whatever environment, the mode is that of 45_mode_machine.md
R223. -/
def Obligations.ModeAfterOk : Prop :=
  ∀ (i : Nat) (c : Command) (s t : State), i < s.numLines →
    exec (instrOf i c) s = .next t → t.results = s.results ++ [.okUnit] →
      (t.line i).mode = modeAfter s.cfg.writePolicy c (s.line i).mode

/-- After a command returned `Ok`, in whatever environment and with whatever polls before it, the
deadline is the instant of the booking plus the command's execution time (44_timing_scheduler.md
R192, R193, 30_encoding.md R89). -/
def Obligations.DeadlineAfterOk : Prop :=
  ∀ (i : Nat) (c : Command) (s t : State), i < s.numLines →
    exec (instrOf i c) s = .next t → t.results = s.results ++ [.okUnit] →
      (t.line i).deadline = t.env.clock + executionTime c

/-- The mode names the last select that was completely sent (45_mode_machine.md R219, the spec's
decision D25): of the selects and the command that are to go out, the first `k` stand whole in the new
events, polls left aside, and the mode is that in force after them. After `Ok` that is all of them;
after an `Err` a proper part of the next access may stand after them. -/
def Obligations.ModeNamesLastSelectSent : Prop :=
  ∀ (i : Nat) (c : Command) (s t : State), i < s.numLines → exec (instrOf i c) s = .next t →
    let cs := insertedSelects s.cfg.writePolicy c (s.line i).mode ++ [c]
    let evs := fun c => emitEvents s.cfg.bus i (accessOf s.cfg c)
    ∃ new k part, t.trace = s.trace ++ new
      ∧ writesIn new = (cs.take k).flatMap evs ++ part
      ∧ (t.line i).mode
        = (cs.take k).foldl (fun m c => (selectedMode c).getD m) (s.line i).mode
      ∧ ((t.results = s.results ++ [.okUnit] ∧ k = cs.length ∧ part = [])
        ∨ ∃ e c', t.results = s.results ++ [.err e] ∧ cs[k]? = some c' ∧ part <+: evs c'
          ∧ part ≠ evs c')

/-- The selects change one mode-select bit at a time (45_mode_machine.md R220). Whether a command on
line `i` returned `Ok` or `Err`, the writes among its events are those of a list of commands, the last
perhaps cut short, of which each select differs from the mode in force before it in at most one of the
two bits. After `Ok` they are all of it, and a chip that is known and listens
(93_implementation_defined.md section 2), whichever edge it takes the wires at, understands that
list. -/
def Obligations.OneModeBitPerSelect : Prop :=
  ∀ (i : Nat) (c : Command) (s t : State), i < s.numLines → exec (instrOf i c) s = .next t →
    let evs := fun c => emitEvents s.cfg.bus i (accessOf s.cfg c)
    ∃ new cs, t.trace = s.trace ++ new
      ∧ OneBitAtATime (s.line i).mode cs
      ∧ writesIn new <+: cs.flatMap evs
      ∧ (t.results = s.results ++ [.okUnit] →
        writesIn new = cs.flatMap evs
        ∧ (ChipListens i s → s.cfg.cursorCtrl = .default → ∀ edge,
          chipUnderstands i (s.line i).mode (chipBytes edge i s (new.map (·.ev)))
            = some (cs.map (instrOf i))))

/-- The chip receives what was issued: whenever a command on line `i` returns `Ok`, in whatever
environment, polls included and on each of the three transports, a chip that is known and listens
takes from the wires, whichever edge it takes them at, bytes which, decoded from the mode the block had
recorded on and following the selects, are exactly the selects of 45_mode_machine.md R213 and then the
command (42_parallel_transport.md R155, 30_encoding.md R76, R87; the flag and the lines low:
60_exceptions.md R286, 93_implementation_defined.md section 2). The cursor bytes must be the default
ones. -/
def Obligations.ChipUnderstandsWhatWasIssued : Prop :=
  ∀ (i : Nat) (c : Command) (s t : State), i < s.numLines → ChipListens i s →
    s.cfg.cursorCtrl = .default →
    exec (instrOf i c) s = .next t → t.results = s.results ++ [.okUnit] →
    ∃ new, t.trace = s.trace ++ new ∧ ∀ edge,
      chipUnderstands i (s.line i).mode (chipBytes edge i s (new.map (·.ev)))
        = some ((insertedSelects s.cfg.writePolicy c (s.line i).mode ++ [c]).map (instrOf i))

/-- Where `BUSY_POLL` is on and the chip answers not busy, on 4 and on 8 wires: every Basic-set command
and `Write` under `basic_set` has one status read right before the `SelectBasic` it needs, and none in
Basic; `SelectBasic` itself has one in every mode, after the `SelectExtended` it needs from Graphic
(45_mode_machine.md R214, R216, R222; the algorithm is the spec's own, D27). -/
def Obligations.PollOnceWhenNotBusy : Prop :=
  ∀ (i : Nat) (c : Command) (s : State) (vs rest : List Byte), Ready i s →
    s.cfg.bus.isParallel = true → s.cfg.busyPoll = true → s.env.samples = vs ++ rest →
    vs.length = 8 / s.cfg.width → (∀ v ∈ vs, onWires s.cfg v = v) →
    busyRead s.cfg.bus vs = false →
    let evs := emitEvents s.cfg.bus i
    let first := match (s.line i).mode with
      | .basic => []
      | .extended => []
      | .graphic => evs (false, [0x24#8])
    let polled := first ++ readEvents i false vs ++ evs (false, [0x20#8])
    (needsBasic s.cfg.writePolicy c = true → (s.line i).mode ≠ .basic →
      Completes (instrOf i c) s fun t => t.env.samples = rest
        ∧ SentWith i (polled ++ evs (accessOf s.cfg c)) (accessOf s.cfg c) (executionTime c) .basic
          .out s t)
    ∧ (needsBasic s.cfg.writePolicy c = true → (s.line i).mode = .basic →
      Completes (instrOf i c) s fun t => t.env.samples = s.env.samples
        ∧ Sent i [] (accessOf s.cfg c) (executionTime c) .basic s t)
    ∧ Completes (.selectBasic i) s fun t => t.env.samples = rest
        ∧ SentWith i polled (false, [0x20#8]) 72 .basic .out s t

/-- The busy poll reads on while the chip is busy and stops at the first answer that is not, or once
its ceiling of 1000 µs has passed: of the reads it makes, all before the last answer busy and lie within
the ceiling, and the last answers not busy or the ceiling has passed (45_mode_machine.md R222; D27). -/
def Obligations.PollEndsWhenReadyOrAtCeiling : Prop :=
  ∀ (i : Nat) (s t : State), i < s.numLines → s.cfg.bus.isParallel = true →
    s.cfg.busyPoll = true → pollBusy i s = .done () t →
    ∃ (early : List (List Byte)) (last : List Byte) (a b : List Stamped),
      t.trace = s.trace ++ a ++ b
      ∧ a.map (fun e => untimed e.ev) = early.flatMap (readEvents i false)
      ∧ b.map (fun e => untimed e.ev) = readEvents i false last
      ∧ (∀ vs ∈ early, busyRead s.cfg.bus vs = true)
      ∧ (∀ e ∈ a, e.instant < (elapse s).env.clock + 1000)
      ∧ (busyRead s.cfg.bus last = false ∨ (elapse s).env.clock + 1000 ≤ t.env.clock)

/-- A clock that runs hangs nothing: no instruction, `wait_ready` or `init` ends in a fault, whatever
the chip answers, whatever fails and whatever time a read books; so a poll always ends
(44_timing_scheduler.md R198, 45_mode_machine.md R224, 60_exceptions.md R297). -/
def Obligations.RunningClockNeverHangs : Prop :=
  ∀ (s : State) (f : Fault), s.env.stopAt = none →
    (∀ c : Instr, exec c s ≠ .fault f) ∧ ∀ i, runWaitReady i s ≠ .fault f ∧ runInit i s ≠ .fault f

/-! ### The scheduler -/

/-- Every bus access, write or read, whether it succeeds or fails, is preceded by the wait for the
line's deadline, which takes no time of its own if the deadline has passed, and no event of the
access happens before that wait returns (44_timing_scheduler.md R191). -/
def Obligations.AccessWaitsForDeadline : Prop :=
  ∀ (i : Nat) (s t : State),
    (∀ c, (emit i c s).EndsIn t → WaitsFirst (s.line i).deadline s t)
    ∧ (∀ reg, (schedRead i reg readU8 s).EndsIn t → WaitsFirst (s.line i).deadline s t)
    ∧ (∀ reg, (schedRead i reg readU16 s).EndsIn t → WaitsFirst (s.line i).deadline s t)

/-- The booking: it cannot fail, produces no event and changes nothing but the deadline and the
clock; after an access on line `i` the deadline is the instant of the booking plus the command's
execution time, or `T_READ` after a read, and so at least that long after every event
(44_timing_scheduler.md R192). -/
def Obligations.BookingFollowsTheAccess : Prop :=
  ∀ (i : Nat) (s t : State), i < s.numLines →
    (∀ d, book i d s = .done () (setDeadline i ((elapse s).env.clock + d) (elapse s)))
    ∧ ((∀ e ∈ s.trace, e.instant ≤ s.env.clock) →
      (∀ c, emit i c s = .done () t → Booked i (executionTime c) t)
      ∧ (∀ reg b, schedRead i reg readU8 s = .done b t → Booked i s.cfg.tRead t)
      ∧ (∀ reg v, schedRead i reg readU16 s = .done v t → Booked i s.cfg.tRead t))

/-- Where no primitive takes time, a transfer takes only the wait for the old deadline: it does not
wait out the command's own execution time (44_timing_scheduler.md R194, R201). -/
def Obligations.TransferTakesOnlyTheWait : Prop :=
  ∀ (i : Nat) (c : Command) (s t : State), i < s.numLines → s.cfg.tPw = 0 → s.env.stopAt = none →
    24 ≤ s.env.ticks.length → (∀ d ∈ s.env.ticks, d = 0) → emit i c s = .done () t →
      t.env.clock = max s.env.clock (s.line i).deadline
      ∧ (t.line i).deadline = max s.env.clock (s.line i).deadline + executionTime c

/-- On the serial bus `emit` is the wait followed by one transaction around the frame
(43_serial_transport.md R172, R175). -/
def Obligations.SerialEmitIsTransaction : Prop :=
  ∀ (i : Nat) (c : Command) (s : State), s.cfg.bus = .ser →
    emit i c s =
      (awaitDeadline i s).andThen fun _ s =>
        transaction i (executionTime c)
          (linkWriteAll (frameBytes (commandAccess s.cfg.cursorCtrl c).1
            (commandAccess s.cfg.cursorCtrl c).2)) s

/-! ### Isolation of lines -/

/-- An operation on one line neither reads nor writes another line's registers: changing line `j`
beforehand, in any way, is the same as changing it afterwards (46_shared_bus.md R245). -/
def Obligations.LinesDoNotInterfere : Prop :=
  ∀ (j : Nat) (f : LineRegs → LineRegs) (s : State),
    (∀ c : Instr, c.line ≠ j →
      exec c (modLine j f s) = match exec c s with
        | .next t => .next (modLine j f t)
        | .fault e => .fault e
        | .refused e => .refused e)
    ∧ (∀ i, i ≠ j →
      runWaitReady i (modLine j f s) = match runWaitReady i s with
        | .next t => .next (modLine j f t)
        | .fault e => .fault e
        | .refused e => .refused e)
    ∧ (∀ i, i ≠ j →
      runInit i (modLine j f s) = match runInit i s with
        | .next t => .next (modLine j f t)
        | .fault e => .fault e
        | .refused e => .refused e)

/-- During an operation on one line, an instruction, `wait_ready` or `init`, no other line's enable or
chip-select moves, and so a chip on another line that is known, whichever edge it takes the wires at,
takes nothing (46_shared_bus.md R246, 42_parallel_transport.md R155; the flag:
93_implementation_defined.md section 2). -/
def Obligations.OtherChipsTakeNothing : Prop :=
  ∀ (i : Nat) (s t : State), RunsOn i s t →
    ∃ new, t.trace = s.trace ++ new
      ∧ ∀ j, j ≠ i →
        (∀ e ∈ new, ∀ v, e.ev ≠ .en j v ∧ e.ev ≠ .cs j v)
        ∧ ((s.line j).chipUnknown = false → ∀ edge, chipBytes edge j s (new.map (·.ev)) = [])

/-- What every instruction leaves alone, however it ends and whatever polls it makes: the parameters,
the queue, every register of every other line; on a parallel bus the chip-select of its own line, on
`SER` every shared pin latch and its own enable line (10_state.md R23 to R26, 46_shared_bus.md
R245). -/
def Obligations.InstructionFrame : Prop :=
  ∀ (c : Instr) (s t : State), exec c s = .next t →
    KeepsRest c.line s t
      ∧ (s.cfg.bus.isParallel = true → (t.line c.line).cs = (s.line c.line).cs)
      ∧ (s.cfg.bus = .ser → t.rs = s.rs ∧ t.rw = s.rw ∧ t.data = s.data ∧ t.wires = s.wires
          ∧ t.dir = s.dir ∧ (t.line c.line).e = (s.line c.line).e)

/-! ### Errors -/

/-- A failing pin primitive of `Home` on an 8-wire bus, at each of the five places it can fail: the
events up to it stand, it has no effect itself, nothing after it runs, nothing is cleaned up or
booked, the host gets `Err(PinError(e))` (95_test_vectors.md V10; 60_exceptions.md R283, R285, the
spec's decision D28). The drive changes `DATA` where the wires are outputs (10_state.md R25). -/
def Obligations.HomeFailsInPlace : Prop :=
  ∀ (i e : Nat) (s : State) (rest : List (Option Nat)),
    i < s.numLines → s.env.stopAt = none → s.cfg.bus = .par8 → (s.line i).mode = .basic →
    let driven := match s.dir with
      | .out => 0x02#8
      | .into => s.data
    (s.env.verdicts = some e :: rest →
      Completes (.home i) s fun t => FailedInPlace i (.pinError e) [.wait 0] s.dir s t
        ∧ PinsAre i s.rs s.rw s.data (s.line i).e (s.line i).cs t)
    ∧ (s.env.verdicts = none :: some e :: rest →
      Completes (.home i) s fun t => FailedInPlace i (.pinError e) [.wait 0, .rs false] s.dir s t
        ∧ PinsAre i false s.rw s.data (s.line i).e (s.line i).cs t)
    ∧ (s.env.verdicts = none :: none :: some e :: rest →
      Completes (.home i) s fun t =>
        FailedInPlace i (.pinError e) [.wait 0, .rs false, .rw false] s.dir s t
        ∧ PinsAre i false false s.data (s.line i).e (s.line i).cs t)
    ∧ (s.env.verdicts = none :: none :: none :: some e :: rest →
      Completes (.home i) s fun t =>
        FailedInPlace i (.pinError e) [.wait 0, .rs false, .rw false, .data 0x02#8] s.dir s t
        ∧ PinsAre i false false driven (s.line i).e (s.line i).cs t)
    ∧ (s.env.verdicts = none :: none :: none :: none :: some e :: rest →
      Completes (.home i) s fun t =>
        FailedInPlace i (.pinError e)
          [.wait 0, .rs false, .rw false, .data 0x02#8, .en i true, .wait 0] s.dir s t
        ∧ PinsAre i false false driven true (s.line i).cs t)

/-- Every command, on every transport, ends where a primitive of it fails, whichever that is: a pin,
the data wires, a chip-select edge or a byte of the link. Of the selects and the command that are to go
out, the `k`-th fails at its `n`-th fallible primitive: those before it stand whole with their mode,
of it stands what came before the failing primitive, nothing is cleaned up or booked, and on `SER` the
chip-select stays high once it rose (60_exceptions.md R281, R283, R285, the spec's decision D28;
45_mode_machine.md R219). Polls are left aside: their reads fail as ReadFailsInPlace says. -/
def Obligations.CommandFailsInPlace : Prop :=
  ∀ (i k n e : Nat) (c c' : Command) (s : State) (rest : List (Option Nat)),
    i < s.numLines → s.env.stopAt = none →
    let cs := insertedSelects s.cfg.writePolicy c (s.line i).mode ++ [c]
    let evs := fun c => emitEvents s.cfg.bus i (accessOf s.cfg c)
    ((s.cfg.busyPoll && s.cfg.bus.isParallel) = false ∨ Command.selectBasic ∉ cs) →
    cs[k]? = some c' → n < (fallible (evs c')).length →
    s.env.verdicts
      = List.replicate ((fallible ((cs.take k).flatMap evs)).length + n) none ++ some e :: rest →
    Completes (instrOf i c) s fun t =>
      FailedIn i n e ((cs.take k).flatMap evs) (evs c') s t
      ∧ (t.line i).mode = (cs.take k).foldl (fun m c => (selectedMode c).getD m) (s.line i).mode
      ∧ (k = 0 → (t.line i).deadline = (s.line i).deadline)
      ∧ (s.cfg.bus = .ser → 0 < n → (t.line i).cs = true)

/-- Each of the two reads, on 4 and on 8 wires, ends where a primitive of it fails, whichever that is:
a direction, the selection, an edge or a sample (60_exceptions.md R283, R285, the spec's decision
D28). -/
def Obligations.ReadFailsInPlace : Prop :=
  ∀ (i n e : Nat) (s : State) (rest : List (Option Nat)),
    i < s.numLines → s.env.stopAt = none → s.cfg.bus.isParallel = true →
    s.env.verdicts = List.replicate n none ++ some e :: rest →
      (n < 4 + 3 * (8 / s.cfg.width) →
        Completes (.readStatus i) s (ReadFailed i n e (8 / s.cfg.width) false s))
      ∧ (n < 4 + 3 * (16 / s.cfg.width) →
        Completes (.readRam i) s (ReadFailed i n e (16 / s.cfg.width) true s))

/-- An access that fails, write or read, books nothing and changes no mode, whatever failed; the trace
only grows (44_timing_scheduler.md R193, R195, 60_exceptions.md R285, the spec's decision D28). -/
def Obligations.FailedTransferBooksNothing : Prop :=
  ∀ (i : Nat) (e : BlockError) (s t : State),
    ((∃ c, emit i c s = .raised e t) ∨ (∃ reg, schedRead i reg readU8 s = .raised e t)
      ∨ (∃ reg, schedRead i reg readU16 s = .raised e t)) →
    (t.line i).deadline = (s.line i).deadline ∧ (t.line i).mode = (s.line i).mode
      ∧ (∃ new, t.trace = s.trace ++ new) ∧ KeepsRest i s t

/-- The error an operation returns fits the transport: an instruction, `wait_ready` or `init` returns a
link error only on `SER` (60_exceptions.md R281). -/
def Obligations.LinkErrorOnlyOnSerial : Prop :=
  ∀ (i : Nat) (s t : State) (e : Nat), RunsOn i s t →
    t.results = s.results ++ [.err (.linkError e)] → s.cfg.bus = .ser

/-- The model's flag of a line: any `Err` on the line sets it; an instruction or `wait_ready` that
returns `Ok` leaves it, and `init` that returns `Ok` clears it (93_implementation_defined.md section 2,
log 16). -/
def Obligations.ErrMarksChipUnknown : Prop :=
  ∀ (i : Nat) (s t : State), i < s.numLines →
    ((∃ c : Instr, c.line = i ∧ exec c s = .next t) ∨ runWaitReady i s = .next t →
      ∃ r, t.results = s.results ++ [r]
        ∧ (t.line i).chipUnknown = (r.isErr || (s.line i).chipUnknown))
    ∧ (runInit i s = .next t →
      ∃ r, t.results = s.results ++ [r] ∧ (t.line i).chipUnknown = r.isErr)

/-- With a clock that stops before the line's deadline, every command hangs: the operation does not
complete (44_timing_scheduler.md R198, 60_exceptions.md R297; log 4). -/
def Obligations.StoppedClockHangs : Prop :=
  ∀ (i : Nat) (c : Command) (s : State) (stop : Instant), i < s.numLines →
    s.env.stopAt = some stop → s.env.clock ≤ stop → stop < (s.line i).deadline →
      exec (instrOf i c) s = .fault (.clockStopped (s.line i).deadline)

/-! ### Invariants that every step keeps -/

/-- Every step keeps the observation in order, the deadlines bounded and `DATA` within the data wires
(10_state.md R25, 44_timing_scheduler.md R192, 70_reset_and_hazards.md R326). -/
def Obligations.StepKeepsOrderly : Prop :=
  ∀ s t : State, Orderly s → step s = .next t → Orderly t

/-- The state after reset is orderly; that `DATA` is 0 there is the model's choice (log 2). -/
def Obligations.ResetOrderly : Prop := Orderly State.reset

/-- The quiescent invariant: as long as no operation has returned `Err`, every enable and chip-select
line is low and the wires are outputs between operations (10_state.md R36). Every step keeps it. -/
def Obligations.StepKeepsQuiescent : Prop :=
  ∀ s t : State, ((∀ r ∈ s.results, r.isErr = false) → Quiescent s) → step s = .next t →
    ((∀ r ∈ t.results, r.isErr = false) → Quiescent t)

/-- The quiescent invariant holds after reset (10_state.md R36; the levels are the spec's decision D5). -/
def Obligations.ResetQuiescent : Prop :=
  (∀ r ∈ State.reset.results, r.isErr = false) → Quiescent State.reset

/-- The lines of known chips are low: as long as nothing is wrong with a line, its enable line or its
chip-select is low between operations, whatever happened on other lines (10_state.md R36,
60_exceptions.md R285, 93_implementation_defined.md section 2; the flag is the model's, log 16). Every
step keeps it. -/
def Obligations.StepKeepsKnownLinesLow : Prop :=
  ∀ s t : State, KnownLinesLow s → step s = .next t → KnownLinesLow t

/-- The lines of known chips are low after reset. -/
def Obligations.ResetKnownLinesLow : Prop := KnownLinesLow State.reset

/-- A step changes no parameter and no number of lines, forgets nothing it has shown, takes at most
one operation and does not turn back the clock (00_scope.md R6, R10, R13; 10_state.md R34). -/
def Obligations.StepOnlyAdds : Prop :=
  ∀ s t : State, step s = .next t →
    t.cfg = s.cfg ∧ t.numLines = s.numLines ∧ t.pending = s.pending.tail
      ∧ (∃ new, t.trace = s.trace ++ new)
      ∧ (∃ new, t.results = s.results ++ new ∧ new.length = min 1 s.pending.length)
      ∧ s.env.clock ≤ t.env.clock
end

