-- ==== Sys2Proof/Laws/State.lean ====
section
/-!
SUPPORT. One lemma per field per update of the state, true by `rfl`, and the reads and updates of
the per-line registers.
-/

namespace Sys2Proof.Machine

variable (s : State)

@[simp] theorem elapse_lines : (elapse s).lines = s.lines := rfl
@[simp] theorem elapse_rs : (elapse s).rs = s.rs := rfl
@[simp] theorem elapse_rw : (elapse s).rw = s.rw := rfl
@[simp] theorem elapse_data : (elapse s).data = s.data := rfl
@[simp] theorem elapse_dir : (elapse s).dir = s.dir := rfl
@[simp] theorem elapse_cfg : (elapse s).cfg = s.cfg := rfl
@[simp] theorem elapse_wires : (elapse s).wires = s.wires := rfl
@[simp] theorem elapse_trace : (elapse s).trace = s.trace := rfl
@[simp] theorem elapse_results : (elapse s).results = s.results := rfl
@[simp] theorem elapse_pending : (elapse s).pending = s.pending := rfl
@[simp] theorem elapse_env : (elapse s).env = envAfter s.env := rfl

@[simp] theorem dropVerdict_lines : (dropVerdict s).lines = s.lines := rfl
@[simp] theorem dropVerdict_rs : (dropVerdict s).rs = s.rs := rfl
@[simp] theorem dropVerdict_rw : (dropVerdict s).rw = s.rw := rfl
@[simp] theorem dropVerdict_data : (dropVerdict s).data = s.data := rfl
@[simp] theorem dropVerdict_dir : (dropVerdict s).dir = s.dir := rfl
@[simp] theorem dropVerdict_cfg : (dropVerdict s).cfg = s.cfg := rfl
@[simp] theorem dropVerdict_wires : (dropVerdict s).wires = s.wires := rfl
@[simp] theorem dropVerdict_trace : (dropVerdict s).trace = s.trace := rfl
@[simp] theorem dropVerdict_results : (dropVerdict s).results = s.results := rfl
@[simp] theorem dropVerdict_pending : (dropVerdict s).pending = s.pending := rfl
@[simp] theorem dropVerdict_env : (dropVerdict s).env = { s.env with verdicts := s.env.verdicts.tail } := rfl

@[simp] theorem dropSample_lines : (dropSample s).lines = s.lines := rfl
@[simp] theorem dropSample_rs : (dropSample s).rs = s.rs := rfl
@[simp] theorem dropSample_rw : (dropSample s).rw = s.rw := rfl
@[simp] theorem dropSample_data : (dropSample s).data = s.data := rfl
@[simp] theorem dropSample_dir : (dropSample s).dir = s.dir := rfl
@[simp] theorem dropSample_cfg : (dropSample s).cfg = s.cfg := rfl
@[simp] theorem dropSample_wires : (dropSample s).wires = s.wires := rfl
@[simp] theorem dropSample_trace : (dropSample s).trace = s.trace := rfl
@[simp] theorem dropSample_results : (dropSample s).results = s.results := rfl
@[simp] theorem dropSample_pending : (dropSample s).pending = s.pending := rfl
@[simp] theorem dropSample_env : (dropSample s).env = envAfterSample s.env := rfl

@[simp] theorem record_lines (ev : Event) : (record ev s).lines = s.lines := rfl
@[simp] theorem record_rs (ev : Event) : (record ev s).rs = s.rs := rfl
@[simp] theorem record_rw (ev : Event) : (record ev s).rw = s.rw := rfl
@[simp] theorem record_data (ev : Event) : (record ev s).data = s.data := rfl
@[simp] theorem record_dir (ev : Event) : (record ev s).dir = s.dir := rfl
@[simp] theorem record_cfg (ev : Event) : (record ev s).cfg = s.cfg := rfl
@[simp] theorem record_wires (ev : Event) : (record ev s).wires = s.wires := rfl
@[simp] theorem record_trace (ev : Event) : (record ev s).trace = s.trace ++ [⟨s.env.clock, ev⟩] := rfl
@[simp] theorem record_results (ev : Event) : (record ev s).results = s.results := rfl
@[simp] theorem record_pending (ev : Event) : (record ev s).pending = s.pending := rfl
@[simp] theorem record_env (ev : Event) : (record ev s).env = s.env := rfl

@[simp] theorem modLine_lines (i : Nat) (f : LineRegs → LineRegs) : (modLine i f s).lines = s.lines.modify i f := rfl
@[simp] theorem modLine_rs (i : Nat) (f : LineRegs → LineRegs) : (modLine i f s).rs = s.rs := rfl
@[simp] theorem modLine_rw (i : Nat) (f : LineRegs → LineRegs) : (modLine i f s).rw = s.rw := rfl
@[simp] theorem modLine_data (i : Nat) (f : LineRegs → LineRegs) : (modLine i f s).data = s.data := rfl
@[simp] theorem modLine_dir (i : Nat) (f : LineRegs → LineRegs) : (modLine i f s).dir = s.dir := rfl
@[simp] theorem modLine_cfg (i : Nat) (f : LineRegs → LineRegs) : (modLine i f s).cfg = s.cfg := rfl
@[simp] theorem modLine_wires (i : Nat) (f : LineRegs → LineRegs) : (modLine i f s).wires = s.wires := rfl
@[simp] theorem modLine_trace (i : Nat) (f : LineRegs → LineRegs) : (modLine i f s).trace = s.trace := rfl
@[simp] theorem modLine_results (i : Nat) (f : LineRegs → LineRegs) : (modLine i f s).results = s.results := rfl
@[simp] theorem modLine_pending (i : Nat) (f : LineRegs → LineRegs) : (modLine i f s).pending = s.pending := rfl
@[simp] theorem modLine_env (i : Nat) (f : LineRegs → LineRegs) : (modLine i f s).env = s.env := rfl

@[simp] theorem clockTo_lines (t : Instant) : (clockTo t s).lines = s.lines := rfl
@[simp] theorem clockTo_rs (t : Instant) : (clockTo t s).rs = s.rs := rfl
@[simp] theorem clockTo_rw (t : Instant) : (clockTo t s).rw = s.rw := rfl
@[simp] theorem clockTo_data (t : Instant) : (clockTo t s).data = s.data := rfl
@[simp] theorem clockTo_dir (t : Instant) : (clockTo t s).dir = s.dir := rfl
@[simp] theorem clockTo_cfg (t : Instant) : (clockTo t s).cfg = s.cfg := rfl
@[simp] theorem clockTo_wires (t : Instant) : (clockTo t s).wires = s.wires := rfl
@[simp] theorem clockTo_trace (t : Instant) : (clockTo t s).trace = s.trace := rfl
@[simp] theorem clockTo_results (t : Instant) : (clockTo t s).results = s.results := rfl
@[simp] theorem clockTo_pending (t : Instant) : (clockTo t s).pending = s.pending := rfl
@[simp] theorem clockTo_env (t : Instant) : (clockTo t s).env = { s.env with clock := max s.env.clock t } := rfl

@[simp] theorem answer_lines (r : HostResult) : (answer r s).lines = s.lines := rfl
@[simp] theorem answer_rs (r : HostResult) : (answer r s).rs = s.rs := rfl
@[simp] theorem answer_rw (r : HostResult) : (answer r s).rw = s.rw := rfl
@[simp] theorem answer_data (r : HostResult) : (answer r s).data = s.data := rfl
@[simp] theorem answer_dir (r : HostResult) : (answer r s).dir = s.dir := rfl
@[simp] theorem answer_cfg (r : HostResult) : (answer r s).cfg = s.cfg := rfl
@[simp] theorem answer_wires (r : HostResult) : (answer r s).wires = s.wires := rfl
@[simp] theorem answer_trace (r : HostResult) : (answer r s).trace = s.trace := rfl
@[simp] theorem answer_results (r : HostResult) : (answer r s).results = s.results ++ [r] := rfl
@[simp] theorem answer_pending (r : HostResult) : (answer r s).pending = s.pending := rfl
@[simp] theorem answer_env (r : HostResult) : (answer r s).env = s.env := rfl

@[simp] theorem applyDir_lines (d : Dir) : (applyDir d s).lines = s.lines := rfl
@[simp] theorem applyDir_rs (d : Dir) : (applyDir d s).rs = s.rs := rfl
@[simp] theorem applyDir_rw (d : Dir) : (applyDir d s).rw = s.rw := rfl
@[simp] theorem applyDir_data (d : Dir) : (applyDir d s).data = s.data := rfl
@[simp] theorem applyDir_dir (d : Dir) : (applyDir d s).dir = d := rfl
@[simp] theorem applyDir_cfg (d : Dir) : (applyDir d s).cfg = s.cfg := rfl
@[simp] theorem applyDir_wires (d : Dir) : (applyDir d s).wires = if d = .out then s.data else s.wires := rfl
@[simp] theorem applyDir_trace (d : Dir) : (applyDir d s).trace = s.trace := rfl
@[simp] theorem applyDir_results (d : Dir) : (applyDir d s).results = s.results := rfl
@[simp] theorem applyDir_pending (d : Dir) : (applyDir d s).pending = s.pending := rfl
@[simp] theorem applyDir_env (d : Dir) : (applyDir d s).env = s.env := rfl

@[simp] theorem scrambleWires_lines : (scrambleWires s).lines = s.lines := rfl
@[simp] theorem scrambleWires_rs : (scrambleWires s).rs = s.rs := rfl
@[simp] theorem scrambleWires_rw : (scrambleWires s).rw = s.rw := rfl
@[simp] theorem scrambleWires_data : (scrambleWires s).data = s.data := rfl
@[simp] theorem scrambleWires_dir : (scrambleWires s).dir = s.dir := rfl
@[simp] theorem scrambleWires_cfg : (scrambleWires s).cfg = s.cfg := rfl
@[simp] theorem scrambleWires_trace : (scrambleWires s).trace = s.trace := rfl
@[simp] theorem scrambleWires_results : (scrambleWires s).results = s.results := rfl
@[simp] theorem scrambleWires_pending : (scrambleWires s).pending = s.pending := rfl
@[simp] theorem scrambleWires_env : (scrambleWires s).env = { s.env with draws := s.env.draws + 1 } := rfl

@[simp] theorem driveWires_lines (v : Byte) : (driveWires v s).lines = s.lines := by
  unfold driveWires; split <;> rfl
@[simp] theorem driveWires_rs (v : Byte) : (driveWires v s).rs = s.rs := by
  unfold driveWires; split <;> rfl
@[simp] theorem driveWires_rw (v : Byte) : (driveWires v s).rw = s.rw := by
  unfold driveWires; split <;> rfl
@[simp] theorem driveWires_dir (v : Byte) : (driveWires v s).dir = s.dir := by
  unfold driveWires; split <;> rfl
@[simp] theorem driveWires_cfg (v : Byte) : (driveWires v s).cfg = s.cfg := by
  unfold driveWires; split <;> rfl
@[simp] theorem driveWires_trace (v : Byte) : (driveWires v s).trace = s.trace := by
  unfold driveWires; split <;> rfl
@[simp] theorem driveWires_results (v : Byte) : (driveWires v s).results = s.results := by
  unfold driveWires; split <;> rfl
@[simp] theorem driveWires_pending (v : Byte) : (driveWires v s).pending = s.pending := by
  unfold driveWires; split <;> rfl
@[simp] theorem driveWires_env (v : Byte) : (driveWires v s).env = s.env := by
  unfold driveWires; split <;> rfl
@[simp] theorem driveWires_data (v : Byte) :
    (driveWires v s).data = if s.dir = .out then onWires s.cfg v else s.data := by
  unfold driveWires; split <;> simp_all
@[simp] theorem driveWires_wires (v : Byte) :
    (driveWires v s).wires = if s.dir = .out then onWires s.cfg v else s.wires := by
  unfold driveWires; split <;> simp_all

@[simp] theorem setMode_rs (i : Nat) (m : Mode) : (setMode i m s).rs = s.rs := rfl
@[simp] theorem setMode_rw (i : Nat) (m : Mode) : (setMode i m s).rw = s.rw := rfl
@[simp] theorem setMode_data (i : Nat) (m : Mode) : (setMode i m s).data = s.data := rfl
@[simp] theorem setMode_dir (i : Nat) (m : Mode) : (setMode i m s).dir = s.dir := rfl
@[simp] theorem setMode_cfg (i : Nat) (m : Mode) : (setMode i m s).cfg = s.cfg := rfl
@[simp] theorem setMode_wires (i : Nat) (m : Mode) : (setMode i m s).wires = s.wires := rfl
@[simp] theorem setMode_trace (i : Nat) (m : Mode) : (setMode i m s).trace = s.trace := rfl
@[simp] theorem setMode_results (i : Nat) (m : Mode) : (setMode i m s).results = s.results := rfl
@[simp] theorem setMode_pending (i : Nat) (m : Mode) : (setMode i m s).pending = s.pending := rfl
@[simp] theorem setMode_env (i : Nat) (m : Mode) : (setMode i m s).env = s.env := rfl

@[simp] theorem setDeadline_rs (i : Nat) (t : Instant) : (setDeadline i t s).rs = s.rs := rfl
@[simp] theorem setDeadline_rw (i : Nat) (t : Instant) : (setDeadline i t s).rw = s.rw := rfl
@[simp] theorem setDeadline_data (i : Nat) (t : Instant) : (setDeadline i t s).data = s.data := rfl
@[simp] theorem setDeadline_dir (i : Nat) (t : Instant) : (setDeadline i t s).dir = s.dir := rfl
@[simp] theorem setDeadline_cfg (i : Nat) (t : Instant) : (setDeadline i t s).cfg = s.cfg := rfl
@[simp] theorem setDeadline_wires (i : Nat) (t : Instant) : (setDeadline i t s).wires = s.wires := rfl
@[simp] theorem setDeadline_trace (i : Nat) (t : Instant) : (setDeadline i t s).trace = s.trace := rfl
@[simp] theorem setDeadline_results (i : Nat) (t : Instant) : (setDeadline i t s).results = s.results := rfl
@[simp] theorem setDeadline_pending (i : Nat) (t : Instant) : (setDeadline i t s).pending = s.pending := rfl
@[simp] theorem setDeadline_env (i : Nat) (t : Instant) : (setDeadline i t s).env = s.env := rfl

@[simp] theorem setChipUnknown_rs (i : Nat) (b : Bool) : (setChipUnknown i b s).rs = s.rs := rfl
@[simp] theorem setChipUnknown_rw (i : Nat) (b : Bool) : (setChipUnknown i b s).rw = s.rw := rfl
@[simp] theorem setChipUnknown_data (i : Nat) (b : Bool) : (setChipUnknown i b s).data = s.data := rfl
@[simp] theorem setChipUnknown_dir (i : Nat) (b : Bool) : (setChipUnknown i b s).dir = s.dir := rfl
@[simp] theorem setChipUnknown_cfg (i : Nat) (b : Bool) : (setChipUnknown i b s).cfg = s.cfg := rfl
@[simp] theorem setChipUnknown_wires (i : Nat) (b : Bool) : (setChipUnknown i b s).wires = s.wires := rfl
@[simp] theorem setChipUnknown_trace (i : Nat) (b : Bool) : (setChipUnknown i b s).trace = s.trace := rfl
@[simp] theorem setChipUnknown_results (i : Nat) (b : Bool) : (setChipUnknown i b s).results = s.results := rfl
@[simp] theorem setChipUnknown_pending (i : Nat) (b : Bool) : (setChipUnknown i b s).pending = s.pending := rfl
@[simp] theorem setChipUnknown_env (i : Nat) (b : Bool) : (setChipUnknown i b s).env = s.env := rfl

@[simp] theorem setPin_data (p : Pin) (v : Bool) : (setPin p v s).data = s.data := by cases p <;> rfl
@[simp] theorem setPin_dir (p : Pin) (v : Bool) : (setPin p v s).dir = s.dir := by cases p <;> rfl
@[simp] theorem setPin_cfg (p : Pin) (v : Bool) : (setPin p v s).cfg = s.cfg := by cases p <;> rfl
@[simp] theorem setPin_wires (p : Pin) (v : Bool) : (setPin p v s).wires = s.wires := by cases p <;> rfl
@[simp] theorem setPin_trace (p : Pin) (v : Bool) : (setPin p v s).trace = s.trace := by cases p <;> rfl
@[simp] theorem setPin_results (p : Pin) (v : Bool) : (setPin p v s).results = s.results := by cases p <;> rfl
@[simp] theorem setPin_pending (p : Pin) (v : Bool) : (setPin p v s).pending = s.pending := by cases p <;> rfl
@[simp] theorem setPin_env (p : Pin) (v : Bool) : (setPin p v s).env = s.env := by cases p <;> rfl

@[simp] theorem numLines_modLine (i : Nat) (f : LineRegs → LineRegs) :
    (modLine i f s).numLines = s.numLines := by simp [State.numLines]

@[simp] theorem numLines_setMode (i : Nat) (m : Mode) : (setMode i m s).numLines = s.numLines :=
  numLines_modLine s i _

@[simp] theorem numLines_setDeadline (i : Nat) (t : Instant) :
    (setDeadline i t s).numLines = s.numLines := numLines_modLine s i _

@[simp] theorem numLines_setChipUnknown (i : Nat) (b : Bool) :
    (setChipUnknown i b s).numLines = s.numLines := numLines_modLine s i _

@[simp] theorem numLines_setPin (p : Pin) (v : Bool) : (setPin p v s).numLines = s.numLines := by
  cases p <;> simp [setPin, State.numLines, modLine]

/-- Equal per-line registers are read equally. -/
theorem line_congr {s t : State} (h : s.lines = t.lines) (i : Nat) : s.line i = t.line i := by
  simp [State.line, h]

/-- Equal per-line registers have equal numbers of lines. -/
theorem numLines_congr {s t : State} (h : s.lines = t.lines) : s.numLines = t.numLines := by
  simp [State.numLines, h]

/-- Reading back the line that was updated. -/
theorem line_modLine_same (i : Nat) (f : LineRegs → LineRegs) (h : i < s.numLines) :
    (modLine i f s).line i = f (s.line i) := by
  have h' : i < s.lines.length := h
  simp [State.line, modLine, List.getD_eq_getElem?_getD, h']

/-- Another line is as before. -/
theorem getElem_modLine_ne (i j : Nat) (f : LineRegs → LineRegs) (h : j ≠ i) :
    (modLine i f s).lines[j]? = s.lines[j]? := by
  have h' : ¬ i = j := fun e => h e.symm
  simp [modLine, h']

/-- Another line is read as before. -/
theorem line_modLine_ne (i j : Nat) (f : LineRegs → LineRegs) (h : j ≠ i) :
    (modLine i f s).line j = s.line j := by
  rw [State.line, State.line, List.getD_eq_getElem?_getD, List.getD_eq_getElem?_getD,
    getElem_modLine_ne s i j f h]

/-- Updates of two different lines commute. -/
theorem modLine_comm (i j : Nat) (f g : LineRegs → LineRegs) (h : j ≠ i) :
    modLine i f (modLine j g s) = modLine j g (modLine i f s) := by
  have : (s.lines.modify j g).modify i f = (s.lines.modify i f).modify j g := by
    apply List.ext_getElem?
    intro k
    simp only [List.getElem?_modify]
    cases s.lines[k]? with
    | none => simp
    | some l => by_cases h1 : i = k <;> by_cases h2 : j = k <;> simp_all
  simp [modLine, this]

end Sys2Proof.Machine
end

