-- ==== Sys2Proof/Laws/Ops.lean ====
section
/-!
SUPPORT. Once for all operations: a relation that every primitive update on a line keeps is kept by
every helper, access, command and host operation on that line (`Closed`), however the operation
ends. Frames and invariants are its instances.
-/

namespace Sys2Proof.Machine

/-- However an operation ends, its last state has `P`. -/
def OpResult.Ends {α : Type} (r : OpResult α) (P : State → Prop) : Prop :=
  match r with
  | .done _ t => P t
  | .raised _ t => P t
  | .hung _ => True

/-- The pins an operation on line `i` may drive (46_shared_bus.md R245). -/
def Pin.ofLine (i : Nat) : Pin → Prop
  | .rs | .rw => True
  | .e j => j = i
  | .cs j => j = i

/-- The events an operation on line `i` may produce (46_shared_bus.md R246). -/
def Event.ofLine (i : Nat) : Event → Prop
  | .en j _ => j = i
  | .cs j _ => j = i
  | .rs _ | .rw _ | .data _ | .dir _ | .sample _ | .link _ | .wait _ => True

/-- A relation between states that contains every primitive update an operation on line `i` can
make, and is reflexive and transitive. -/
structure Closed (i : Nat) (R : State → State → Prop) : Prop where
  refl : ∀ s, R s s
  trans : ∀ s t u, R s t → R t u → R s u
  elapse : ∀ s, R s (elapse s)
  dropVerdict : ∀ s, R s (dropVerdict s)
  dropSample : ∀ s, R s (dropSample s)
  clockTo : ∀ s t, R s (clockTo t s)
  record : ∀ s ev, ev.ofLine i → R s (record ev s)
  setPin : ∀ s p v, p.ofLine i → R s (setPin p v s)
  drive : ∀ s v, R s (driveWires v s)
  scramble : ∀ s, R s (scrambleWires s)
  applyDir : ∀ s d, R s (applyDir d s)
  setMode : ∀ s m, R s (setMode i m s)
  setDeadline : ∀ s t, R s (setDeadline i t s)
  setChipUnknown : ∀ s b, R s (setChipUnknown i b s)

variable {i : Nat} {R : State → State → Prop}

/-- What happens after a related state is related. -/
theorem ends_trans {α : Type} (h : Closed i R) {s t : State} {r : OpResult α} (h0 : R s t)
    (hr : r.Ends (R t)) : r.Ends (R s) := by
  cases r with
  | done a u => exact h.trans _ _ _ h0 hr
  | raised e u => exact h.trans _ _ _ h0 hr
  | hung f => trivial

/-- Sequencing stays in the relation. -/
theorem ends_andThen {α β : Type} (h : Closed i R) {s : State} {r : OpResult α}
    {f : α → State → OpResult β} (hr : r.Ends (R s)) (hf : ∀ a t, (f a t).Ends (R t)) :
    (r.andThen f).Ends (R s) := by
  cases r with
  | done a t => exact ends_trans h hr (hf a t)
  | raised e t => exact hr
  | hung e => trivial

/-- A fallible primitive stays in the relation. -/
theorem ends_attempt {α : Type} (h : Closed i R) (mk : Nat → BlockError) (onFail : State → State)
    (effect : State → OpResult α) (hFail : ∀ s, R s (onFail s))
    (hEffect : ∀ s, (effect s).Ends (R s)) (s : State) :
    (attempt mk onFail effect s).Ends (R s) := by
  have h0 : R s (Machine.dropVerdict (Machine.elapse s)) :=
    h.trans _ _ _ (h.elapse s) (h.dropVerdict _)
  unfold attempt
  split
  · exact h.trans _ _ _ h0 (hFail _)
  · exact ends_trans h h0 (hEffect _)

theorem ends_pinWrite (h : Closed i R) (p : Pin) (v : Bool) (hp : p.ofLine i) (s : State) :
    (pinWrite p v s).Ends (R s) := by
  apply ends_attempt h _ _ _ (fun s => h.refl s)
  intro s
  refine h.trans _ _ _ (h.setPin s p v hp) (h.record _ _ ?_)
  cases p with
  | rs => trivial
  | rw => trivial
  | e j => exact hp
  | cs j => exact hp

theorem ends_dataDrive (h : Closed i R) (v : Byte) (s : State) : (dataDrive v s).Ends (R s) := by
  apply ends_attempt h _ _ _ h.scramble
  intro s
  exact h.trans _ _ _ (h.drive s v) (h.record _ _ trivial)

theorem ends_dataSample (h : Closed i R) (s : State) : (dataSample s).Ends (R s) := by
  apply ends_attempt h _ _ _ (fun s => h.refl s)
  intro s
  exact h.trans _ _ _ (h.dropSample s) (h.record _ _ trivial)

theorem ends_setDir (h : Closed i R) (d : Dir) (s : State) : (setDir d s).Ends (R s) := by
  apply ends_attempt h _ _ _ (fun s => h.refl s)
  intro s
  exact h.trans _ _ _ (h.applyDir s d) (h.record _ _ trivial)

theorem ends_linkWrite (h : Closed i R) (b : Byte) (s : State) : (linkWrite b s).Ends (R s) := by
  apply ends_attempt h _ _ _ (fun s => h.refl s)
  intro s
  exact h.record _ _ trivial

theorem ends_now (h : Closed i R) (s : State) : (now s).Ends (R s) := h.elapse s

theorem ends_waitUntil (h : Closed i R) (t : Instant) (s : State) :
    (waitUntil t s).Ends (R s) := by
  unfold waitUntil
  split
  · trivial
  · exact h.trans _ _ _ (h.elapse s) (h.trans _ _ _ (h.clockTo _ t) (h.record _ _ trivial))

theorem ends_delay (h : Closed i R) (d : Duration) (s : State) : (delay d s).Ends (R s) :=
  ends_andThen h (ends_now h s) fun _ _ => ends_waitUntil h _ _

theorem ends_selectReg (h : Closed i R) (reg : Reg) (s : State) : (selectReg reg s).Ends (R s) :=
  ends_andThen h (ends_pinWrite h .rs _ trivial s) fun _ s => ends_pinWrite h .rw _ trivial s

theorem ends_latched {α : Type} (h : Closed i R) (f : State → OpResult α)
    (hf : ∀ s, (f s).Ends (R s)) (s : State) : (latched i f s).Ends (R s) := by
  refine ends_andThen h (ends_pinWrite h (.e i) _ rfl s) fun _ s => ?_
  refine ends_andThen h (ends_delay h _ s) fun _ s => ?_
  refine ends_andThen h (hf s) fun r s => ?_
  exact ends_andThen h (ends_pinWrite h (.e i) _ rfl s) fun _ s => h.refl s

theorem ends_latch (h : Closed i R) (s : State) : (latch i s).Ends (R s) :=
  ends_latched h (fun s => .done () s) (fun s => h.refl s) s

theorem ends_writeU8 (h : Closed i R) (b : Byte) (s : State) : (writeU8 i b s).Ends (R s) := by
  unfold writeU8
  split
  · refine ends_andThen h (ends_dataDrive h _ s) fun _ s => ?_
    refine ends_andThen h (ends_latch h s) fun _ s => ?_
    exact ends_andThen h (ends_dataDrive h _ s) fun _ s => ends_latch h s
  · exact ends_andThen h (ends_dataDrive h _ s) fun _ s => ends_latch h s
  · exact ends_andThen h (ends_dataDrive h _ s) fun _ s => ends_latch h s

theorem ends_writeU16 (h : Closed i R) (v : Half) (s : State) : (writeU16 i v s).Ends (R s) :=
  ends_andThen h (ends_writeU8 h _ s) fun _ s => ends_writeU8 h _ s

theorem ends_readU8 (h : Closed i R) (s : State) : (readU8 i s).Ends (R s) := by
  have hl := ends_latched h dataSample (ends_dataSample h)
  unfold readU8
  split
  · exact ends_andThen h (hl s) fun _ s => ends_andThen h (hl s) fun _ s => h.refl s
  · exact hl s
  · exact hl s

theorem ends_readU16 (h : Closed i R) (s : State) : (readU16 i s).Ends (R s) :=
  ends_andThen h (ends_readU8 h s) fun _ s => ends_andThen h (ends_readU8 h s) fun _ s => h.refl s

theorem ends_parWrite (h : Closed i R) (reg : Reg) (v : Payload) (s : State) :
    (parWrite i reg v s).Ends (R s) := by
  refine ends_andThen h (ends_selectReg h reg s) fun _ s => ?_
  cases v with
  | one b => exact ends_writeU8 h b s
  | two v => exact ends_writeU16 h v s

theorem ends_parRead {α : Type} (h : Closed i R) (reg : Reg) (read : Nat → State → OpResult α)
    (hr : ∀ s, (read i s).Ends (R s)) (s : State) : (parRead i reg read s).Ends (R s) := by
  refine ends_andThen h (ends_setDir h _ s) fun _ s => ?_
  refine ends_andThen h (ends_selectReg h reg s) fun _ s => ?_
  refine ends_andThen h (hr s) fun r s => ?_
  exact ends_andThen h (ends_setDir h _ s) fun _ s => h.refl s

theorem ends_linkWriteAll (h : Closed i R) (bs : List Byte) :
    ∀ s, (linkWriteAll bs s).Ends (R s) := by
  induction bs with
  | nil => exact fun s => h.refl s
  | cons b bs ih => exact fun s => ends_andThen h (ends_linkWrite h b s) fun _ s => ih s

theorem ends_serWrite (h : Closed i R) (reg : Reg) (v : Payload) (s : State) :
    (serWrite i reg v s).Ends (R s) := by
  refine ends_andThen h (ends_pinWrite h (.cs i) _ rfl s) fun _ s => ?_
  refine ends_andThen h (ends_linkWriteAll h _ s) fun _ s => ?_
  exact ends_pinWrite h (.cs i) _ rfl s

theorem ends_memWrite (h : Closed i R) (reg : Reg) (v : Payload) (s : State) :
    (memWrite i reg v s).Ends (R s) := by
  unfold memWrite
  split
  · exact ends_parWrite h reg v s
  · exact ends_parWrite h reg v s
  · exact ends_serWrite h reg v s

theorem ends_awaitDeadline (h : Closed i R) (s : State) : (awaitDeadline i s).Ends (R s) :=
  ends_waitUntil h _ s

theorem ends_book (h : Closed i R) (d : Duration) (s : State) : (book i d s).Ends (R s) :=
  ends_andThen h (ends_now h s) fun _ s => h.setDeadline s _

theorem ends_emit (h : Closed i R) (c : Command) (s : State) : (emit i c s).Ends (R s) := by
  refine ends_andThen h (ends_awaitDeadline h s) fun _ s => ?_
  exact ends_andThen h (ends_memWrite h _ _ s) fun _ s => ends_book h _ s

theorem ends_schedRead {α : Type} (h : Closed i R) (reg : Reg) (read : Nat → State → OpResult α)
    (hr : ∀ s, (read i s).Ends (R s)) (s : State) : (schedRead i reg read s).Ends (R s) := by
  refine ends_andThen h (ends_awaitDeadline h s) fun _ s => ?_
  refine ends_andThen h (ends_parRead h reg read hr s) fun r s => ?_
  exact ends_andThen h (ends_book h _ s) fun _ s => h.refl s

theorem ends_pollLoop (h : Closed i R) (t0 : Instant) (fuel : Nat) :
    ∀ s, (pollLoop i t0 fuel s).Ends (R s) := by
  induction fuel with
  | zero => exact fun s => trivial
  | succ n ih =>
    intro s
    refine ends_andThen h (ends_schedRead h _ _ (ends_readU8 h) s) fun b s => ?_
    split
    · exact h.refl s
    · refine ends_andThen h (ends_now h s) fun t s => ?_
      split
      · exact h.refl s
      · exact ih s

theorem ends_pollBusy (h : Closed i R) (s : State) : (pollBusy i s).Ends (R s) := by
  unfold pollBusy
  split
  · exact h.refl s
  · exact ends_andThen h (ends_now h s) fun t s => ends_pollLoop h t _ s

theorem ends_emitSelect (h : Closed i R) (c : Command) (m : Mode) (s : State) :
    (emitSelect i c m s).Ends (R s) :=
  ends_andThen h (ends_emit h c s) fun _ s => h.setMode s m

theorem ends_toBasic (h : Closed i R) (s : State) : (toBasic i s).Ends (R s) :=
  ends_andThen h (ends_pollBusy h s) fun _ s => ends_emitSelect h _ _ s

theorem ends_whenMode (h : Closed i R) (m : Mode) (op : State → OpResult Unit)
    (hop : ∀ s, (op s).Ends (R s)) (s : State) : (whenMode i m op s).Ends (R s) := by
  unfold whenMode
  split
  · exact hop s
  · exact h.refl s

theorem ends_execClass (h : Closed i R) (c : Command) (k : CmdClass) (s : State) :
    (execClass i c k s).Ends (R s) := by
  have hx := ends_whenMode h .graphic (toExtended i) (ends_emitSelect h _ _)
  have hb := ends_whenMode h .extended (toBasic i) (ends_toBasic h)
  have he := ends_whenMode h .basic (toExtended i) (ends_emitSelect h _ _)
  cases k with
  | basicOp =>
    exact ends_andThen h (hx s) fun _ s => ends_andThen h (hb s) fun _ s => ends_emit h c s
  | extOp => exact ends_andThen h (he s) fun _ s => ends_emit h c s
  | selB => exact ends_andThen h (hx s) fun _ s => ends_toBasic h s
  | selE => exact ends_emitSelect h _ _ s
  | selG => exact ends_andThen h (he s) fun _ s => ends_emitSelect h _ _ s
  | neutral => exact ends_emit h c s

theorem ends_execCommand (h : Closed i R) (c : Command) (s : State) :
    (execCommand i c s).Ends (R s) := ends_execClass h c _ s

theorem ends_returnUnit (h : Closed i R) {s : State} {r : OpResult Unit} (hr : r.Ends (R s)) :
    (returnUnit r).Ends (R s) := ends_andThen h hr fun _ s => h.refl s

theorem ends_statusBody (h : Closed i R) (s : State) : (statusBody i s).Ends (R s) :=
  ends_andThen h (ends_schedRead h _ _ (ends_readU8 h) s) fun _ s => h.refl s

theorem ends_ramBody (h : Closed i R) (s : State) : (ramBody i s).Ends (R s) :=
  ends_andThen h (ends_schedRead h _ _ (ends_readU16 h) s) fun _ s => h.refl s

theorem ends_initBody (h : Closed i R) (s : State) : (initBody i s).Ends (R s) := by
  refine ends_andThen h (ends_now h s) fun _ s => ?_
  refine ends_andThen h (ends_waitUntil h _ s) fun _ s => ?_
  refine ends_andThen h (ends_trans h (h.setMode s .basic) (ends_now h _)) fun t s => ?_
  refine ends_andThen h (ends_trans h (h.setDeadline s t) (ends_emit h _ _)) fun _ s => ?_
  refine ends_andThen h (ends_delay h _ s) fun _ s => ?_
  refine ends_andThen h (ends_emit h _ s) fun _ s => ?_
  refine ends_andThen h (ends_delay h _ s) fun _ s => ?_
  refine ends_andThen h (ends_emit h _ s) fun _ s => ?_
  exact ends_andThen h (ends_emit h _ s) fun _ s => ends_emit h _ s

end Sys2Proof.Machine
end

