-- ==== Sys2Proof/Laws/Runs.lean ====
section
/-!
SUPPORT. What each primitive, helper and access does in a cooperative environment: it is done, with
exactly these events and these latches (`Goes`).
-/

namespace Sys2Proof.Machine

/-- What the pins and one line show, without the deadline. -/
structure PinView where
  rs : Bool
  rw : Bool
  data : Byte
  wires : Byte
  dir : Dir
  mode : Mode
  e : Bool
  cs : Bool
  chipUnknown : Bool
  samples : List Byte

/-- The view of a state and a line. -/
def pinView (i : Nat) (s : State) : PinView where
  rs := s.rs
  rw := s.rw
  data := s.data
  wires := s.wires
  dir := s.dir
  mode := (s.line i).mode
  e := (s.line i).e
  cs := (s.line i).cs
  chipUnknown := (s.line i).chipUnknown
  samples := s.env.samples

/-- From `s` to `t` the trace grew by `evs`, no result was handed out, nothing outside line `i` and
the shared pins changed, and the environment is still cooperative. -/
structure Good (i : Nat) (s : State) (evs : List Event) (t : State) : Prop where
  coop : Cooperative t
  results : t.results = s.results
  shape : t.shape = s.shape ++ evs
  rest : KeepsRest i s t

theorem KeepsRest.refl (i : Nat) (s : State) : KeepsRest i s s :=
  ⟨rfl, rfl, rfl, fun _ _ => rfl, Nat.le_refl _⟩

theorem KeepsRest.trans {i : Nat} {s t u : State} (h : KeepsRest i s t) (k : KeepsRest i t u) :
    KeepsRest i s u :=
  ⟨k.1.trans h.1, k.2.1.trans h.2.1, k.2.2.1.trans h.2.2.1,
    fun j hj => (k.2.2.2.1 j hj).trans (h.2.2.2.1 j hj), Nat.le_trans h.2.2.2.2 k.2.2.2.2⟩

theorem Good.refl {i : Nat} {s : State} (h : Cooperative s) : Good i s [] s :=
  ⟨h, rfl, (List.append_nil _).symm, .refl i s⟩

theorem Good.trans {i : Nat} {s t u : State} {e1 e2 : List Event} (h : Good i s e1 t)
    (k : Good i t e2 u) : Good i s (e1 ++ e2) u :=
  ⟨k.coop, k.results.trans h.results, by rw [k.shape, h.shape, List.append_assoc],
    h.rest.trans k.rest⟩

theorem Good.ready {i : Nat} {s t : State} {evs : List Event} (h : Good i s evs t)
    (hs : Ready i s) : Ready i t := ⟨h.rest.2.1 ▸ hs.1, h.coop⟩

/-- An operation is done with `a`, having produced `evs` and left the pins as in `v`. -/
def Goes {α : Type} (i : Nat) (s : State) (evs : List Event) (v : PinView) (a : α)
    (r : OpResult α) : Prop :=
  ∃ t, r = .done a t ∧ Good i s evs t ∧ pinView i t = v

theorem goes_andThen {α β : Type} {i : Nat} {s : State} {e1 e2 : List Event} {v1 v2 : PinView}
    {a : α} {b : β} {r : OpResult α} {f : α → State → OpResult β} (h : Goes i s e1 v1 a r)
    (k : ∀ t, Good i s e1 t → pinView i t = v1 → Goes i t e2 v2 b (f a t)) :
    Goes i s (e1 ++ e2) v2 b (r.andThen f) := by
  obtain ⟨t, rfl, hg, hv⟩ := h
  obtain ⟨u, hu, hg2, hv2⟩ := k t hg hv
  exact ⟨u, hu, hg.trans hg2, hv2⟩

theorem goes_done {α : Type} {i : Nat} {s : State} (h : Cooperative s) (a : α) :
    Goes i s [] (pinView i s) a (.done a s) := ⟨s, rfl, .refl h, rfl⟩

theorem clock_le_envAfter (e : Env) : e.clock ≤ (envAfter e).clock := by
  unfold envAfter clockAfter
  split <;> split <;> simp

@[simp] theorem envAfter_stopAt (e : Env) : (envAfter e).stopAt = e.stopAt := by
  unfold envAfter; split <;> rfl

@[simp] theorem envAfter_verdicts (e : Env) : (envAfter e).verdicts = e.verdicts := by
  unfold envAfter; split <;> rfl

@[simp] theorem envAfter_samples (e : Env) : (envAfter e).samples = e.samples := by
  unfold envAfter; split <;> rfl

@[simp] theorem envAfterSample_stopAt (e : Env) : (envAfterSample e).stopAt = e.stopAt := by
  unfold envAfterSample; split <;> rfl

@[simp] theorem envAfterSample_verdicts (e : Env) :
    (envAfterSample e).verdicts = e.verdicts := by
  unfold envAfterSample; split <;> rfl

@[simp] theorem envAfterSample_clock (e : Env) : (envAfterSample e).clock = e.clock := by
  unfold envAfterSample; split <;> rfl

@[simp] theorem envAfterSample_samples (e : Env) :
    (envAfterSample e).samples = e.samples.tail := by
  unfold envAfterSample; split <;> simp_all

theorem Cooperative.nextVerdict {s : State} (h : Cooperative s) : nextVerdict s = none := by
  unfold Machine.nextVerdict
  split
  · rename_i v r hv
    exact h.1 v (by simp [hv])
  · rfl

theorem Cooperative.elapse {s : State} (h : Cooperative s) : Cooperative (elapse s) := by
  simpa [Cooperative] using h

theorem Cooperative.dropVerdict {s : State} (h : Cooperative s) : Cooperative (dropVerdict s) :=
  ⟨fun v hv => h.1 v (List.mem_of_mem_tail hv), h.2⟩

@[simp] theorem shape_record (s : State) (ev : Event) :
    (record ev s).shape = s.shape ++ [untimed ev] := by
  simp [State.shape, State.events]

/-- The shape depends on the trace only. -/
theorem shape_congr {s t : State} (h : s.trace = t.trace) : s.shape = t.shape := by
  simp [State.shape, State.events, h]

/-- Time passes and the verdict is used up: nothing shows. -/
theorem good_tick {i : Nat} {s : State} (h : Cooperative s) :
    Good i s [] (dropVerdict (elapse s)) :=
  ⟨h.elapse.dropVerdict, rfl, (List.append_nil _).symm,
    ⟨rfl, rfl, rfl, fun _ _ => rfl, clock_le_envAfter s.env⟩⟩

theorem pinView_tick (i : Nat) (s : State) :
    pinView i (dropVerdict (elapse s)) = pinView i s := by
  simp [pinView, State.line]

/-- A fallible primitive in a cooperative environment is its effect. -/
theorem attempt_coop {α : Type} {s : State} (h : Cooperative s) (mk : Nat → BlockError)
    (onFail : State → State) (effect : State → OpResult α) :
    attempt mk onFail effect s = effect (dropVerdict (elapse s)) := by
  unfold attempt
  rw [h.elapse.nextVerdict]

/-- The latches after driving a pin. -/
def PinView.set (v : PinView) (p : Pin) (b : Bool) : PinView :=
  match p with
  | .rs => { v with rs := b }
  | .rw => { v with rw := b }
  | .e _ => { v with e := b }
  | .cs _ => { v with cs := b }

theorem pinView_setPin {i : Nat} {s : State} (hi : i < s.numLines) (p : Pin) (b : Bool)
    (hp : p.ofLine i) : pinView i (setPin p b s) = (pinView i s).set p b := by
  cases p with
  | rs => rfl
  | rw => rfl
  | e j =>
    obtain rfl : j = i := hp
    have := line_modLine_same s j (fun l => { l with e := b }) hi
    simp only [pinView, setPin, PinView.set, this]
    rfl
  | cs j =>
    obtain rfl : j = i := hp
    have := line_modLine_same s j (fun l => { l with cs := b }) hi
    simp only [pinView, setPin, PinView.set, this]
    rfl

theorem keepsRest_setPin {i : Nat} (s : State) (p : Pin) (b : Bool) (hp : p.ofLine i) :
    KeepsRest i s (setPin p b s) := by
  refine ⟨by simp, by simp, by simp, fun j hj => ?_, by simp⟩
  cases p with
  | rs => rfl
  | rw => rfl
  | e k =>
    obtain rfl : k = i := hp
    exact getElem_modLine_ne s k j _ hj
  | cs k =>
    obtain rfl : k = i := hp
    exact getElem_modLine_ne s k j _ hj

/-- Recording an event after an update that shows nothing. -/
theorem good_record {i : Nat} {s t : State} (hc : Cooperative t) (hr : t.results = s.results)
    (ht : t.trace = s.trace) (hk : KeepsRest i s t) (ev : Event) :
    Good i s [untimed ev] (record ev t) :=
  ⟨hc, hr, by rw [shape_record, shape_congr ht], hk⟩

theorem pinView_record (i : Nat) (s : State) (ev : Event) :
    pinView i (record ev s) = pinView i s := rfl

theorem goes_of_tick {α : Type} {i : Nat} {s : State} {evs : List Event} {v : PinView} {a : α}
    {r : OpResult α} (h : Cooperative s) (hg : Goes i (dropVerdict (elapse s)) evs v a r) :
    Goes i s evs v a r := by
  obtain ⟨t, ht, hg, hv⟩ := hg
  exact ⟨t, ht, by simpa using (good_tick h).trans hg, hv⟩

/-- `pin_write` is done, with its event and its latch. -/
theorem goes_pinWrite {i : Nat} {s : State} (h : Ready i s) (p : Pin) (b : Bool)
    (hp : p.ofLine i) :
    Goes i s [pinEvent p b] ((pinView i s).set p b) () (pinWrite p b s) := by
  have h' := (good_tick (i := i) h.2).ready h
  unfold pinWrite
  rw [attempt_coop h.2]
  refine goes_of_tick h.2 ⟨_, rfl, ?_, ?_⟩
  · have := good_record (i := i) (s := dropVerdict (elapse s))
      (t := setPin p b (dropVerdict (elapse s))) (by simpa [Cooperative] using h'.2) (by simp)
      (by simp) (keepsRest_setPin _ p b hp) (pinEvent p b)
    cases p <;> exact this
  · rw [pinView_record, pinView_setPin h'.1 p b hp, pinView_tick]

/-- The latch and the wires after a value is driven, which with the wires inputs are as before. -/
def PinView.drive (w : PinView) (v : Byte) : PinView :=
  match w.dir with
  | .out => { w with data := v, wires := v }
  | .into => w

@[simp] theorem PinView.drive_drive (w : PinView) (v v' : Byte) (b : Bool) :
    ({ w.drive v with e := b } : PinView).drive v' = { w.drive v' with e := b } := by
  obtain ⟨rs, rw, data, wires, dir, mode, e, cs, unknown, samples⟩ := w
  cases dir <;> rfl

@[simp] theorem PinView.drive_dir (w : PinView) (v : Byte) : (w.drive v).dir = w.dir := by
  obtain ⟨rs, rw, data, wires, dir, mode, e, cs, unknown, samples⟩ := w
  cases dir <;> rfl

theorem pinView_driveWires (i : Nat) (s : State) (v : Byte) :
    pinView i (driveWires v s) = (pinView i s).drive (onWires s.cfg v) := by
  cases hd : s.dir <;> simp [pinView, driveWires, PinView.drive, hd, State.line]

theorem goes_dataDrive {i : Nat} {s : State} (h : Ready i s) (v : Byte) :
    Goes i s [.data (onWires s.cfg v)] ((pinView i s).drive (onWires s.cfg v)) ()
      (dataDrive v s) := by
  unfold dataDrive
  rw [attempt_coop h.2]
  refine goes_of_tick h.2 ⟨_, rfl, ?_, ?_⟩
  · exact good_record (i := i) (s := dropVerdict (elapse s))
      (t := driveWires v (dropVerdict (elapse s)))
      (by simpa [Cooperative] using h.2.elapse.dropVerdict) (by simp) (by simp)
      ⟨by simp, numLines_congr (by simp), by simp, fun _ _ => by simp, by simp⟩
      (.data (onWires s.cfg v))
  · rw [pinView_record, pinView_driveWires, pinView_tick]
    simp

theorem goes_dataSample {i : Nat} {s : State} (h : Ready i s) :
    ∃ v, (∀ x r, s.env.samples = x :: r → v = onWires s.cfg x) ∧
      Goes i s [.sample v] { pinView i s with samples := s.env.samples.tail } v
        (dataSample s) := by
  refine ⟨nextSample (dropVerdict (elapse s)), ?_, ?_⟩
  · intro x r hx
    simp [nextSample, hx]
  · unfold dataSample
    rw [attempt_coop h.2]
    refine goes_of_tick h.2 ⟨_, rfl, ?_, ?_⟩
    · exact good_record (i := i) (s := dropVerdict (elapse s))
        (t := dropSample (dropVerdict (elapse s)))
        (by simpa [Cooperative] using h.2.elapse.dropVerdict) rfl rfl
        ⟨rfl, rfl, rfl, fun _ _ => rfl, by simp⟩ (.sample (nextSample (dropVerdict (elapse s))))
    · simp [pinView, State.line]

theorem goes_setDir {i : Nat} {s : State} (h : Ready i s) (d : Dir) :
    Goes i s [.dir d]
      { pinView i s with dir := d, wires := if d = .out then s.data else s.wires } ()
      (setDir d s) := by
  unfold setDir
  rw [attempt_coop h.2]
  refine goes_of_tick h.2 ⟨_, rfl, ?_, ?_⟩
  · exact good_record (i := i) (s := dropVerdict (elapse s))
      (t := applyDir d (dropVerdict (elapse s)))
      h.2.elapse.dropVerdict rfl rfl ⟨rfl, rfl, rfl, fun _ _ => rfl, Nat.le_refl _⟩ (.dir d)
  · simp [pinView, State.line]

theorem goes_linkWrite {i : Nat} {s : State} (h : Ready i s) (b : Byte) :
    Goes i s [.link b] (pinView i s) () (linkWrite b s) := by
  unfold linkWrite
  rw [attempt_coop h.2]
  refine goes_of_tick h.2 ⟨_, rfl, ?_, ?_⟩
  · exact good_record (i := i) (s := dropVerdict (elapse s))
      (t := dropVerdict (elapse s))
      h.2.elapse.dropVerdict rfl rfl ⟨rfl, rfl, rfl, fun _ _ => rfl, Nat.le_refl _⟩ (.link b)
  · simp [pinView, State.line]

/-- `wait_until(t)` is done where the clock does not stop, in this state. -/
theorem waitUntil_coop {s : State} (h : Cooperative s) (t : Instant) :
    waitUntil t s = .done () (record (.wait t) (clockTo t (elapse s))) := by
  have h2 : (elapse s).env.stopAt = none := h.elapse.2
  unfold waitUntil neverReaches
  rw [h2]

theorem goes_waitUntil {i : Nat} {s : State} (h : Cooperative s) (t : Instant) :
    Goes i s [.wait 0] (pinView i s) () (waitUntil t s) := by
  rw [waitUntil_coop h t]
  refine ⟨_, rfl, ?_, ?_⟩
  · refine good_record (i := i) (s := s) (t := clockTo t (elapse s)) h.elapse rfl rfl
      ⟨rfl, rfl, rfl, fun _ _ => rfl, ?_⟩ (.wait t)
    exact Nat.le_trans (clock_le_envAfter s.env) (Nat.le_max_left _ _)
  · simp [pinView, State.line]

theorem goes_now {i : Nat} {s : State} (h : Cooperative s) :
    Goes i s [] (pinView i s) (elapse s).env.clock (now s) :=
  ⟨_, rfl, ⟨h.elapse, rfl, (List.append_nil _).symm,
    ⟨rfl, rfl, rfl, fun _ _ => rfl, clock_le_envAfter s.env⟩⟩, by simp [pinView, State.line]⟩

theorem goes_delay {i : Nat} {s : State} (h : Cooperative s) (d : Duration) :
    Goes i s [.wait 0] (pinView i s) () (delay d s) := by
  refine goes_andThen (goes_now h) fun t hg hv => ?_
  exact hv ▸ goes_waitUntil hg.coop _

theorem goes_selectReg {i : Nat} {s : State} (h : Ready i s) (reg : Reg) :
    Goes i s [.rs (regRs reg), .rw (regRw reg)]
      { pinView i s with rs := regRs reg, rw := regRw reg } () (selectReg reg s) := by
  refine goes_andThen (goes_pinWrite h .rs _ trivial) fun t hg hv => ?_
  have := goes_pinWrite (hg.ready h) .rw (regRw reg) trivial
  rwa [hv] at this

/-- One pulse around `f`. -/
theorem goes_latched {α : Type} {i : Nat} {s : State} (h : Ready i s) {f : State → OpResult α}
    {evs : List Event} {a : α} {v : PinView}
    (hf : ∀ t, Good i s [.en i true, .wait 0] t →
      pinView i t = { pinView i s with e := true } → Goes i t evs v a (f t)) :
    Goes i s ([.en i true, .wait 0] ++ evs ++ [.en i false]) { v with e := false } a
      (latched i f s) := by
  have h1 := goes_pinWrite h (.e i) true rfl
  have : Goes i s ([.en i true] ++ ([.wait 0] ++ (evs ++ ([.en i false] ++ []))))
      { v with e := false } a (latched i f s) := by
    refine goes_andThen h1 fun t1 g1 v1 => ?_
    refine goes_andThen (goes_delay g1.coop _) fun t2 g2 v2 => ?_
    have g12 := g1.trans g2
    refine goes_andThen (hf t2 g12 (v2.trans v1)) fun t3 g3 v3 => ?_
    have h4 := goes_pinWrite ((g12.trans g3).ready h) (.e i) false rfl
    refine goes_andThen h4 fun t4 g4 v4 => ?_
    have := goes_done (i := i) g4.coop a
    rw [v4, v3] at this
    exact this
  simpa using this

theorem goes_latch {i : Nat} {s : State} (h : Ready i s) :
    Goes i s [.en i true, .wait 0, .en i false] { pinView i s with e := false } ()
      (latch i s) := by
  have := goes_latched (f := fun s => .done () s) (evs := []) (a := ())
    (v := { pinView i s with e := true }) h fun t hg hv => hv ▸ goes_done hg.coop ()
  exact this

/-- One write cycle: drive, then a pulse. -/
theorem goes_cycle {i : Nat} {s : State} (h : Ready i s) (v : Byte) :
    Goes i s (writePulse i (onWires s.cfg v))
      { (pinView i s).drive (onWires s.cfg v) with e := false } ()
      ((dataDrive v s).andThen fun _ s => latch i s) := by
  refine goes_andThen (goes_dataDrive h v) fun t hg hv => ?_
  have := goes_latch (hg.ready h)
  rwa [hv] at this

end Sys2Proof.Machine
end

