-- ==== Sys2Proof/Laws/Accesses.lean ====
section
/-!
SUPPORT. What a bus access, a scheduled transfer and a scheduled read do in a cooperative
environment.
-/

namespace Sys2Proof.Machine

theorem onWires_par8 {p : Params} (h : p.bus = .par8) (v : Byte) : onWires p v = v := by
  have : ∀ v : Byte, v &&& BitVec.ofNat 8 (2 ^ 8 - 1) = v := by decide
  simpa [onWires, Params.width, h] using this v

theorem onWires_high {p : Params} (h : p.bus = .par4) (v : Byte) :
    onWires p (highNibble v) = upperBits v := by
  have : ∀ v : Byte, (v >>> 4) &&& BitVec.ofNat 8 (2 ^ 4 - 1)
      = BitVec.setWidth 8 (v.extractLsb' 4 4) := by decide
  simpa [onWires, Params.width, h, highNibble, upperBits] using this v

theorem onWires_low {p : Params} (h : p.bus = .par4) (v : Byte) :
    onWires p (lowNibble v) = lowerBits v := by
  have : ∀ v : Byte, (v &&& 0x0F#8) &&& BitVec.ofNat 8 (2 ^ 4 - 1)
      = BitVec.setWidth 8 (v.extractLsb' 0 4) := by decide
  simpa [onWires, Params.width, h, lowNibble, lowerBits] using this v

/-- The value the data wires carry last when a byte is written. -/
def lastDriven (b : Bus) (v : Byte) : Byte :=
  match b with
  | .par4 => lowerBits v
  | .par8 | .ser => v

theorem goes_writeU8 {i : Nat} {s : State} (h : Ready i s) (hb : s.cfg.bus.isParallel = true)
    (v : Byte) :
    Goes i s (byteEvents s.cfg.bus i v)
      { (pinView i s).drive (lastDriven s.cfg.bus v) with e := false } ()
      (writeU8 i v s) := by
  unfold writeU8
  cases hbus : s.cfg.bus with
  | ser => simp [hbus, Bus.isParallel] at hb
  | par8 =>
    have := goes_cycle h v
    rw [onWires_par8 hbus] at this
    simpa [byteEvents, lastDriven] using this
  | par4 =>
    have h1 := goes_cycle h (highNibble v)
    rw [onWires_high hbus] at h1
    have : Goes i s (writePulse i (upperBits v) ++ writePulse i (lowerBits v))
        { (pinView i s).drive (lowerBits v) with e := false } ()
        (((dataDrive (highNibble v) s).andThen fun _ s => latch i s).andThen fun _ s =>
          (dataDrive (lowNibble v) s).andThen fun _ s => latch i s) := by
      refine goes_andThen h1 fun t hg hv => ?_
      have h2 := goes_cycle (hg.ready h) (lowNibble v)
      rw [onWires_low (by rw [hg.rest.1]; exact hbus), hv, PinView.drive_drive] at h2
      exact h2
    have assoc : ((dataDrive (highNibble v) s).andThen fun _ s =>
        (latch i s).andThen fun _ s => (dataDrive (lowNibble v) s).andThen fun _ s => latch i s)
        = ((dataDrive (highNibble v) s).andThen fun _ s => latch i s).andThen fun _ s =>
          (dataDrive (lowNibble v) s).andThen fun _ s => latch i s := by
      cases dataDrive (highNibble v) s <;> rfl
    simp only [byteEvents, lastDriven]
    rw [assoc]
    exact this

/-- The pins after a write access (10_state.md R23 to R26). -/
def PinView.afterWrite (v : PinView) (b : Bus) (toRam : Bool) (bytes : List Byte) : PinView :=
  match b with
  | .par4 | .par8 =>
    { ({ v with rs := toRam, rw := false } : PinView).drive (lastDriven b (bytes.getLastD 0#8)) with
      e := false }
  | .ser => { v with cs := false }

theorem goes_parWrite {i : Nat} {s : State} (h : Ready i s) (hb : s.cfg.bus.isParallel = true)
    (reg : Reg) (hr : regRw reg = false) (v : Payload) :
    Goes i s (writeEvents s.cfg.bus i (regRs reg) (payloadBytes v))
      ((pinView i s).afterWrite s.cfg.bus (regRs reg) (payloadBytes v)) () (parWrite i reg v s) := by
  have h1 := goes_selectReg h reg
  rw [hr] at h1
  have key : Goes i s ([.rs (regRs reg), .rw false]
        ++ (payloadBytes v).flatMap (byteEvents s.cfg.bus i))
      { ({ pinView i s with rs := regRs reg, rw := false } : PinView).drive
          (lastDriven s.cfg.bus ((payloadBytes v).getLastD 0#8)) with e := false } ()
      (parWrite i reg v s) := by
    refine goes_andThen h1 fun t hg hv => ?_
    have ht := hg.ready h
    have hc : t.cfg = s.cfg := hg.rest.1
    cases v with
    | one b =>
      have := goes_writeU8 ht (by rw [hc]; exact hb) b
      rw [hv, hc] at this
      rw [payloadBytes, List.flatMap_singleton]
      exact this
    | two w =>
      have h2 := goes_writeU8 ht (by rw [hc]; exact hb) (highByte w)
      rw [hv, hc] at h2
      have : Goes i t (byteEvents s.cfg.bus i (highByte w) ++ byteEvents s.cfg.bus i (lowByte w))
          { ({ pinView i s with rs := regRs reg, rw := false } : PinView).drive
              (lastDriven s.cfg.bus (lowByte w)) with e := false } () (writeU16 i w t) := by
        refine goes_andThen h2 fun u gu vu => ?_
        have h3 := goes_writeU8 (gu.ready ht) (by rw [gu.rest.1, hc]; exact hb) (lowByte w)
        rw [vu, gu.rest.1, hc, PinView.drive_drive] at h3
        exact h3
      rw [payloadBytes, List.flatMap_cons, List.flatMap_singleton]
      exact this
  cases hbus : s.cfg.bus with
  | ser => simp [hbus, Bus.isParallel] at hb
  | par8 => rw [hbus] at key; exact key
  | par4 => rw [hbus] at key; exact key

theorem goes_linkWriteAll {i : Nat} (bs : List Byte) : ∀ {s : State}, Ready i s →
    Goes i s (bs.map Event.link) (pinView i s) () (linkWriteAll bs s) := by
  induction bs with
  | nil => exact fun h => goes_done h.2 ()
  | cons b bs ih =>
    intro s h
    refine goes_andThen (e1 := [.link b]) (goes_linkWrite h b) fun t hg hv => ?_
    exact hv ▸ ih (hg.ready h)

theorem frame_links (reg : Reg) (hr : regRw reg = false) (v : Payload) :
    (frameBytes reg v).map Event.link
      = .link (if regRs reg then 0xFA#8 else 0xF8#8) :: (payloadBytes v).flatMap nibbleEvents := by
  have h1 : ∀ b : Byte, nibHi b = b.extractLsb' 4 4 ++ 0#4 := by decide
  have h2 : ∀ b : Byte, nibLo b = b.extractLsb' 0 4 ++ 0#4 := by decide
  have h3 : syncByte (regRs reg) false = if regRs reg then 0xFA#8 else 0xF8#8 := by
    cases regRs reg <;> decide
  simp only [frameBytes, hr, h3]
  cases v <;>
    simp [payloadNibbles, nibbleBytes, h1, h2, payloadBytes, nibbleEvents, highByte, lowByte]

theorem goes_serWrite {i : Nat} {s : State} (h : Ready i s) (hb : s.cfg.bus = .ser) (reg : Reg)
    (hr : regRw reg = false) (v : Payload) :
    Goes i s (writeEvents s.cfg.bus i (regRs reg) (payloadBytes v))
      ((pinView i s).afterWrite s.cfg.bus (regRs reg) (payloadBytes v)) () (serWrite i reg v s) := by
  have : Goes i s ([.cs i true] ++ ((frameBytes reg v).map Event.link ++ [.cs i false]))
      { pinView i s with cs := false } () (serWrite i reg v s) := by
    refine goes_andThen (goes_pinWrite h (.cs i) true rfl) fun t hg hv => ?_
    refine goes_andThen (goes_linkWriteAll _ (hg.ready h)) fun u gu vu => ?_
    have h3 := goes_pinWrite (gu.ready (hg.ready h)) (.cs i) false rfl
    rw [vu, hv] at h3
    exact h3
  rw [frame_links reg hr v] at this
  simpa [hb, writeEvents, PinView.afterWrite] using this

theorem goes_memWrite {i : Nat} {s : State} (h : Ready i s) (reg : Reg) (hr : regRw reg = false)
    (v : Payload) :
    Goes i s (writeEvents s.cfg.bus i (regRs reg) (payloadBytes v))
      ((pinView i s).afterWrite s.cfg.bus (regRs reg) (payloadBytes v)) () (memWrite i reg v s) := by
  unfold memWrite
  split
  · rename_i hb; exact goes_parWrite h (by rw [hb]; rfl) reg hr v
  · rename_i hb; exact goes_parWrite h (by rw [hb]; rfl) reg hr v
  · rename_i hb; exact goes_serWrite h hb reg hr v

/-- The waiting for a deadline is done when it has passed. -/
theorem clock_awaitDeadline {i : Nat} {s t : State} (h : Cooperative s)
    (e : awaitDeadline i s = .done () t) : max s.env.clock (s.line i).deadline ≤ t.env.clock := by
  rw [awaitDeadline, waitUntil_coop h] at e
  cases e
  exact Nat.max_le.2 ⟨Nat.le_trans (clock_le_envAfter s.env) (Nat.le_max_left _ _),
    Nat.le_max_right _ _⟩

theorem goes_awaitDeadline {i : Nat} {s : State} (h : Cooperative s) :
    Goes i s [.wait 0] (pinView i s) () (awaitDeadline i s) := goes_waitUntil h _

theorem keepsRest_modLine (i : Nat) (f : LineRegs → LineRegs) (s : State) :
    KeepsRest i s (modLine i f s) :=
  ⟨rfl, by simp, rfl, fun j hj => getElem_modLine_ne s i j f hj, Nat.le_refl _⟩

theorem good_modLine {i : Nat} {s : State} (h : Cooperative s) (f : LineRegs → LineRegs) :
    Good i s [] (modLine i f s) :=
  ⟨h, rfl, (List.append_nil _).symm, keepsRest_modLine i f s⟩

/-- The booking: nothing shows but the deadline, which is this instant plus the duration. -/
theorem book_coop {i : Nat} {s : State} (h : Ready i s) (d : Duration) :
    ∃ t, book i d s = .done () t ∧ Good i s [] t ∧ pinView i t = pinView i s
      ∧ (t.line i).deadline = t.env.clock + d := by
  obtain ⟨u, hu, gu, vu⟩ := goes_now (i := i) h.2
  have hr := gu.ready h
  have hl := line_modLine_same u i (fun l => { l with deadline := (elapse s).env.clock + d }) hr.1
  refine ⟨setDeadline i ((elapse s).env.clock + d) u, by simp [book, hu, OpResult.andThen],
    gu.trans (good_modLine gu.coop _), ?_, ?_⟩
  · rw [← vu]
    simp only [pinView, setDeadline, hl]
    rfl
  · obtain rfl : elapse s = u := by simpa [now] using hu
    simp only [setDeadline, hl, modLine_env]

theorem regRw_commandAccess (k : CursorCtrlBytes) (c : Command) :
    regRw (commandAccess k c).1 = false := by cases c <;> rfl

/-- `emit` in a cooperative environment. -/
theorem emit_coop {i : Nat} {s : State} (h : Ready i s) (c : Command) :
    ∃ t, emit i c s = .done () t ∧ Good i s (emitEvents s.cfg.bus i (accessOf s.cfg c)) t
      ∧ pinView i t = (pinView i s).afterWrite s.cfg.bus (accessOf s.cfg c).1 (accessOf s.cfg c).2
      ∧ (t.line i).deadline = t.env.clock + executionTime c
      ∧ max s.env.clock (s.line i).deadline ≤ t.env.clock := by
  obtain ⟨t1, h1, g1, v1⟩ := goes_awaitDeadline (i := i) h.2
  have r1 := g1.ready h
  have hc : t1.cfg = s.cfg := g1.rest.1
  obtain ⟨t2, h2, g2, v2⟩ := goes_memWrite r1 (commandAccess s.cfg.cursorCtrl c).1
    (regRw_commandAccess _ c) (commandAccess s.cfg.cursorCtrl c).2
  obtain ⟨t3, h3, g3, v3, d3⟩ := book_coop (g2.ready r1) (executionTime c)
  refine ⟨t3, ?_, ?_, ?_, d3, Nat.le_trans (clock_awaitDeadline h.2 h1)
    (g2.trans g3).rest.2.2.2.2⟩
  · simp [emit, h1, OpResult.andThen, hc, h2, h3]
  · have := (g1.trans g2).trans g3
    rw [hc] at this
    simpa [emitEvents, accessOf] using this
  · rw [v3, v2, v1, hc]; rfl

/-- A byte read on a parallel bus: as many samples as cycles. -/
theorem goes_readU8 {i : Nat} {s : State} (h : Ready i s) (hb : s.cfg.bus.isParallel = true) :
    ∃ vs b, vs.length = 8 / s.cfg.width
      ∧ (s.cfg.bus = .par8 → vs = [b] ∧ ∀ x r, s.env.samples = x :: r → b = x)
      ∧ (s.cfg.bus = .par4 → ∀ x y r, s.env.samples = x :: y :: r →
          vs = [onWires s.cfg x, onWires s.cfg y]
            ∧ b = joinNibbles (onWires s.cfg x) (onWires s.cfg y))
      ∧ Goes i s (vs.flatMap (readPulse i))
        { pinView i s with e := false, samples := s.env.samples.drop vs.length } b
        (readU8 i s) := by
  have one : ∀ {s : State}, Ready i s → ∃ v,
      (∀ x r, s.env.samples = x :: r → v = onWires s.cfg x) ∧
      Goes i s (readPulse i v) { pinView i s with e := false, samples := s.env.samples.tail } v
        (latched i dataSample s) := by
    intro s h
    have hp := goes_pinWrite h (.e i) true rfl
    obtain ⟨t1, e1, g1, w1⟩ := hp
    obtain ⟨t2, e2, g2, w2⟩ := goes_delay (i := i) g1.coop t1.cfg.tPw
    have r2 := (g1.trans g2).ready h
    have hs : t2.env.samples = s.env.samples := by
      have : (pinView i t2).samples = (pinView i s).samples := by rw [w2, w1]; rfl
      exact this
    have hc : t2.cfg = s.cfg := (g1.trans g2).rest.1
    obtain ⟨v, hv, t3, e3, g3, w3⟩ := goes_dataSample (i := i) r2
    refine ⟨v, fun x r hx => by rw [hv x r (hs.trans hx), hc], ?_⟩
    have r3 := g3.ready r2
    obtain ⟨t4, e4, g4, w4⟩ := goes_pinWrite r3 (.e i) false rfl
    refine ⟨t4, ?_, ?_, ?_⟩
    · simp [latched, e1, e2, e3, e4, OpResult.andThen]
    · have := ((g1.trans g2).trans g3).trans g4
      simpa [readPulse, pinEvent] using this
    · rw [w4, w3, w2, w1, hs]; rfl
  cases hbus : s.cfg.bus with
  | ser => simp [hbus, Bus.isParallel] at hb
  | par8 =>
    obtain ⟨v, hv, hg⟩ := one h
    refine ⟨[v], v, by simp [Params.width, hbus], fun _ => ⟨rfl, fun x r hx => ?_⟩,
      by simp, ?_⟩
    · rw [hv x r hx, onWires_par8 hbus]
    · simpa [readU8, hbus] using hg
  | par4 =>
    obtain ⟨v, hv, t, e, g, w⟩ := one h
    obtain ⟨v2, hv2, t2, e2, g2, w2⟩ := one (g.ready h)
    have hs : t.env.samples = s.env.samples.tail := congrArg PinView.samples w
    refine ⟨[v, v2], joinNibbles v v2, by simp [Params.width, hbus], by simp,
      fun _ x y r hx => ?_, ?_⟩
    · have a := hv x (y :: r) hx
      have b := hv2 y r (by rw [hs, hx]; rfl)
      rw [g.rest.1] at b
      rw [a, b]; exact ⟨rfl, rfl⟩
    · refine ⟨t2, ?_, ?_, ?_⟩
      · simp [readU8, hbus, e, e2, OpResult.andThen]
      · simpa using g.trans g2
      · rw [w2, w, hs]
        simp only [← List.drop_one, List.drop_drop]
        rfl

end Sys2Proof.Machine
end

