-- ==== Sys2Proof/Laws/Failures.lean ====
section
/-!
SUPPORT. What each primitive, helper and write access does while the clock runs, whatever the
environment makes of it: it is done, or it ends at the first primitive that fails (`Tracks`).
-/

namespace Sys2Proof.Machine

/-- From `s` to `t` the trace grew by `evs`, the latches followed them, and nothing else of line `i`,
no other line and no result changed; the clock still runs. -/
structure Moves (i : Nat) (s : State) (evs : List Event) (t : State) : Prop where
  runs : t.env.stopAt = none
  results : t.results = s.results
  trace : ∃ new, t.trace = s.trace ++ new ∧ new.map (fun x => untimed x.ev) = evs
  rest : KeepsRest i s t
  latches : latches i t = evs.foldl (Latches.after i) (latches i s)
  mode : (t.line i).mode = (s.line i).mode
  deadline : (t.line i).deadline = (s.line i).deadline
  chipUnknown : (t.line i).chipUnknown = (s.line i).chipUnknown

theorem Moves.refl {i : Nat} {s : State} (h : s.env.stopAt = none) : Moves i s [] s :=
  ⟨h, rfl, ⟨[], (List.append_nil _).symm, rfl⟩, .refl i s, rfl, rfl, rfl, rfl⟩

theorem Moves.trans {i : Nat} {s t u : State} {e1 e2 : List Event} (h : Moves i s e1 t)
    (k : Moves i t e2 u) : Moves i s (e1 ++ e2) u :=
  ⟨k.runs, k.results.trans h.results, by
    obtain ⟨n1, h1, rfl⟩ := h.trace
    obtain ⟨n2, h2, rfl⟩ := k.trace
    exact ⟨n1 ++ n2, by rw [h2, h1, List.append_assoc], List.map_append⟩,
    h.rest.trans k.rest, by rw [k.latches, h.latches, List.foldl_append], k.mode.trans h.mode,
    k.deadline.trans h.deadline, k.chipUnknown.trans h.chipUnknown⟩

theorem Moves.shape {i : Nat} {s t : State} {evs : List Event} (h : Moves i s evs t) :
    t.shape = s.shape ++ evs := by
  obtain ⟨new, hn, rfl⟩ := h.trace
  simp [State.shape, State.events, hn]

/-- The operation used up as many verdicts as `evs` has primitives that can fail, all of success, and
is done; or the first verdict of failure among them ended it. -/
def Tracks {α : Type} (i : Nat) (s : State) (evs : List Event) (r : OpResult α) : Prop :=
  (∃ a t, r = .done a t ∧ Moves i s evs t
      ∧ (∀ v ∈ s.env.verdicts.take (fallible evs).length, v = none)
      ∧ t.env.verdicts = s.env.verdicts.drop (fallible evs).length)
    ∨ ∃ n e ev t, r = .raised (errorAt e ev) t ∧ Moves i s (beforeFailure n evs) t
      ∧ (fallible evs)[n]? = some ev ∧ s.env.verdicts[n]? = some (some e)
      ∧ ∀ v ∈ s.env.verdicts.take n, v = none

@[simp] theorem fallible_append (a b : List Event) : fallible (a ++ b) = fallible a ++ fallible b :=
  List.filter_append ..

/-- A wait stands whatever fails after it. -/
theorem beforeFailure_wait {ev : Event} (h : ev.canFail = false) (n : Nat) (es : List Event) :
    beforeFailure n (ev :: es) = ev :: beforeFailure n es := by
  cases n <;> simp [beforeFailure, h]

/-- The first failure among `a` and `b` is one of `a`. -/
theorem beforeFailure_left (a b : List Event) : ∀ n, n < (fallible a).length →
    beforeFailure n (a ++ b) = beforeFailure n a := by
  induction a with
  | nil => intro n h; simp [fallible] at h
  | cons ev a ih =>
    intro n h
    cases hc : ev.canFail with
    | false =>
      rw [List.cons_append, beforeFailure_wait hc, beforeFailure_wait hc, ih]
      simpa [fallible, hc] using h
    | true =>
      cases n with
      | zero => simp [beforeFailure, hc]
      | succ n =>
        have := ih n (by simpa [fallible, hc] using h)
        simp [beforeFailure, hc, this]

/-- The first failure among `a` and `b` is one of `b`. -/
theorem beforeFailure_right (a b : List Event) : ∀ n,
    beforeFailure ((fallible a).length + n) (a ++ b) = a ++ beforeFailure n b := by
  induction a with
  | nil => intro n; simp [fallible]
  | cons ev a ih =>
    intro n
    cases hc : ev.canFail with
    | false =>
      have hf : fallible (ev :: a) = fallible a := by simp [fallible, hc]
      rw [hf, List.cons_append, beforeFailure_wait hc, ih]; rfl
    | true =>
      have : (fallible (ev :: a)).length + n = (fallible a).length + n + 1 := by
        simp [fallible, hc]; omega
      rw [this]
      simp [beforeFailure, hc, ih n]

theorem tracks_done {α : Type} {i : Nat} {s : State} (h : s.env.stopAt = none) (a : α) :
    Tracks i s [] (.done a s) :=
  .inl ⟨a, s, rfl, .refl h, by simp [fallible], by simp [fallible]⟩

/-- What follows an operation that failed does not matter. -/
theorem tracks_raised {α β : Type} {i : Nat} {s t : State} {e1 : List Event} {x : BlockError}
    (h : Tracks i s e1 (.raised x t : OpResult α)) (e2 : List Event) :
    Tracks i s (e1 ++ e2) (.raised x t : OpResult β) := by
  rcases h with ⟨a, u, hu, -⟩ | ⟨n, e, ev, u, hu, hm, hn, hv, hs⟩
  · cases hu
  · cases hu
    have hlt : n < (fallible e1).length := (List.getElem?_eq_some_iff.1 hn).1
    refine .inr ⟨n, e, ev, t, rfl, ?_, ?_, hv, hs⟩
    · rwa [beforeFailure_left _ _ _ hlt]
    · rw [fallible_append, List.getElem?_append_left hlt]; exact hn

theorem mem_take_add {α : Type} {l : List α} {m n : Nat} {v : α} (h : v ∈ l.take (m + n)) :
    v ∈ l.take m ∨ v ∈ (l.drop m).take n := by
  rw [List.take_add] at h
  exact List.mem_append.1 h

theorem tracks_andThen {α β : Type} {i : Nat} {s : State} {e1 e2 : List Event} {r : OpResult α}
    {f : α → State → OpResult β} (h : Tracks i s e1 r)
    (k : ∀ a t, r = .done a t → Moves i s e1 t → Tracks i t e2 (f a t)) :
    Tracks i s (e1 ++ e2) (r.andThen f) := by
  rcases h with ⟨a, t, rfl, hm, hs, hv⟩ | ⟨n, e, ev, t, rfl, h⟩
  · rcases k a t rfl hm with ⟨b, u, hu, hm2, hs2, hv2⟩ | ⟨n, e, ev, u, hu, hm2, hn, hv2, hs2⟩
    · refine .inl ⟨b, u, hu, hm.trans hm2, fun v hmem => ?_, ?_⟩
      · rw [fallible_append, List.length_append] at hmem
        rcases mem_take_add hmem with h | h
        · exact hs v h
        · exact hs2 v (by rwa [hv])
      · rw [hv2, hv, List.drop_drop, fallible_append, List.length_append]
    · refine .inr ⟨(fallible e1).length + n, e, ev, u, hu, ?_, ?_, ?_, fun v hmem => ?_⟩
      · rw [beforeFailure_right]; exact hm.trans hm2
      · simpa [List.getElem?_append_right] using hn
      · rw [hv, List.getElem?_drop] at hv2; exact hv2
      · rcases mem_take_add hmem with h | h
        · exact hs v h
        · exact hs2 v (by rwa [hv])
  · exact tracks_raised (α := α) (.inr ⟨n, e, ev, t, rfl, h⟩) e2

/-- With a failure among its verdicts the operation fails there. -/
theorem tracks_fails {α : Type} {i n e : Nat} {s : State} {evs : List Event} {r : OpResult α}
    {rest : List (Option Nat)} (h : Tracks i s evs r)
    (hv : s.env.verdicts = List.replicate n none ++ some e :: rest)
    (hn : n < (fallible evs).length) :
    ∃ ev t, r = .raised (errorAt e ev) t ∧ (fallible evs)[n]? = some ev
      ∧ Moves i s (beforeFailure n evs) t := by
  have hget : s.env.verdicts[n]? = some (some e) := by simp [hv]
  rcases h with ⟨a, t, -, -, hs, -⟩ | ⟨m, e', ev, t, hr, hm, hev, hv', hs⟩
  · have := hs _ (List.mem_of_getElem? (i := n) (by rw [List.getElem?_take_of_lt hn]; exact hget))
    cases this
  · have hle : m = n := by
      rcases Nat.lt_trichotomy m n with h | h | h
      · simp [hv, List.getElem?_append_left, h] at hv'
      · exact h
      · have := hs _ (List.mem_of_getElem? (i := n) (by rw [List.getElem?_take_of_lt h]; exact hget))
        cases this
    subst hle
    obtain rfl : e' = e := by rw [hget] at hv'; simpa using hv'.symm
    exact ⟨ev, t, hr, hev, hm⟩

/-- With as many verdicts of success as it has primitives that can fail the operation is done. -/
theorem tracks_passes {α : Type} {i : Nat} {s : State} {evs : List Event} {r : OpResult α}
    {rest : List (Option Nat)} (h : Tracks i s evs r)
    (hv : s.env.verdicts = List.replicate (fallible evs).length none ++ rest) :
    ∃ a t, r = .done a t ∧ Moves i s evs t ∧ t.env.verdicts = rest := by
  rcases h with ⟨a, t, hr, hm, -, hd⟩ | ⟨m, e, ev, t, -, -, hev, hv', -⟩
  · exact ⟨a, t, hr, hm, by simp [hd, hv]⟩
  · have hlt : m < (fallible evs).length := (List.getElem?_eq_some_iff.1 hev).1
    simp [hv, List.getElem?_append_left, hlt] at hv'

/-! ### Primitives -/

theorem moves_tick {i : Nat} {s : State} (h : s.env.stopAt = none) :
    Moves i s [] (dropVerdict (elapse s)) :=
  ⟨by simp [h], rfl, ⟨[], (List.append_nil _).symm, rfl⟩,
    ⟨rfl, rfl, rfl, fun _ _ => rfl, clock_le_envAfter s.env⟩, rfl, rfl, rfl, rfl⟩

/-- A fallible primitive fails in place, or has its effect. -/
theorem tracks_attempt {α : Type} {i : Nat} {s : State} (h : s.env.stopAt = none)
    (mk : Nat → BlockError) (onFail : State → State) (effect : State → OpResult α) (ev : Event)
    (hc : ev.canFail = true) (hmk : ∀ e, mk e = errorAt e ev)
    (hfail : Moves i (dropVerdict (elapse s)) [] (onFail (dropVerdict (elapse s))))
    (heff : ∃ a t, effect (dropVerdict (elapse s)) = .done a t
      ∧ Moves i (dropVerdict (elapse s)) [ev] t ∧ t.env.verdicts = s.env.verdicts.tail) :
    Tracks i s [ev] (attempt mk onFail effect s) := by
  have hv : nextVerdict (elapse s) = nextVerdict s := by simp [nextVerdict]
  have hf : fallible [ev] = [ev] := by simp [fallible, hc]
  unfold attempt
  rw [hv]
  cases hn : nextVerdict s with
  | none =>
    obtain ⟨a, t, he, hm, hd⟩ := heff
    refine .inl ⟨a, t, he, by simpa using (moves_tick h).trans hm, fun v hmem => ?_, ?_⟩
    · unfold nextVerdict at hn
      cases hl : s.env.verdicts <;> simp_all
    · simp [hd, hf]
  | some e =>
    refine .inr ⟨0, e, ev, onFail (dropVerdict (elapse s)), by simp [raise, hmk], ?_,
      by simp [hf], ?_, by simp⟩
    · simpa [beforeFailure, hc] using (moves_tick h).trans hfail
    · unfold nextVerdict at hn
      cases hl : s.env.verdicts <;> simp_all

/-- Recording an event after an update of the latches that it announces. -/
theorem moves_record {i : Nat} {s t : State} (hr : t.env.stopAt = none)
    (hs : t.results = s.results) (ht : t.trace = s.trace) (hk : KeepsRest i s t) (ev : Event)
    (hl : latches i t = (latches i s).after i (untimed ev))
    (hm : (t.line i).mode = (s.line i).mode) (hd : (t.line i).deadline = (s.line i).deadline)
    (hu : (t.line i).chipUnknown = (s.line i).chipUnknown) :
    Moves i s [untimed ev] (record ev t) :=
  ⟨hr, hs, ⟨[⟨t.env.clock, ev⟩], by simp [record, ht], rfl⟩, hk, hl, hm, hd, hu⟩

theorem tracks_pinWrite {i : Nat} {s : State} (hi : i < s.numLines) (h : s.env.stopAt = none)
    (p : Pin) (b : Bool) (hp : p.ofLine i) : Tracks i s [pinEvent p b] (pinWrite p b s) := by
  have hu : untimed (pinEvent p b) = pinEvent p b := by cases p <;> rfl
  refine tracks_attempt h _ _ _ _ (by cases p <;> rfl) (by cases p <;> exact fun _ => rfl)
    (.refl (by simp [h])) ⟨(), _, rfl, ?_, ?_⟩
  · have hi' : i < (dropVerdict (elapse s)).numLines := hi
    have key : Moves i (dropVerdict (elapse s)) [untimed (pinEvent p b)]
        (record (pinEvent p b) (setPin p b (dropVerdict (elapse s)))) := by
      refine moves_record (by simp [h]) (by simp) (by simp) (keepsRest_setPin _ p b hp) _
        ?_ ?_ ?_ ?_ <;> cases p with
        | rs => simp [setPin, latches, pinEvent, untimed, Latches.after, State.line]
        | rw => simp [setPin, latches, pinEvent, untimed, Latches.after, State.line]
        | e j =>
          obtain rfl : j = i := hp
          have := line_modLine_same (dropVerdict (elapse s)) j (fun l => { l with e := b }) hi'
          simp [setPin, latches, pinEvent, untimed, Latches.after, this]
        | cs j =>
          obtain rfl : j = i := hp
          have := line_modLine_same (dropVerdict (elapse s)) j (fun l => { l with cs := b }) hi'
          simp [setPin, latches, pinEvent, untimed, Latches.after, this]
    rwa [hu] at key
  · simp [dropVerdict]

theorem tracks_dataDrive {i : Nat} {s : State} (h : s.env.stopAt = none) (v : Byte) :
    Tracks i s [.data (onWires s.cfg v)] (dataDrive v s) := by
  refine tracks_attempt h _ _ _ _ rfl (fun _ => rfl) ?_ ⟨(), _, rfl, ?_, ?_⟩
  · exact ⟨by simp [scrambleWires, h], rfl, ⟨[], (List.append_nil _).symm, rfl⟩,
      ⟨rfl, rfl, rfl, fun _ _ => rfl, Nat.le_refl _⟩, rfl, rfl, rfl, rfl⟩
  · refine moves_record (s := dropVerdict (elapse s)) (t := driveWires v (dropVerdict (elapse s)))
      (by simp [h]) (by simp) (by simp)
      ⟨by simp, numLines_congr (by simp), by simp, fun _ _ => by simp, by simp⟩
      (.data (onWires s.cfg v)) ?_ ?_ ?_ ?_
    · cases hd : s.dir <;>
        simp [latches, driveWires, untimed, Latches.after, State.line, hd]
    all_goals simp [State.line]
  · simp [dropVerdict]

theorem tracks_dataSample {i : Nat} {s : State} (h : s.env.stopAt = none) :
    Tracks i s [.sample (nextSample (dropVerdict (elapse s)))] (dataSample s) := by
  refine tracks_attempt h _ _ _ _ rfl (fun _ => rfl) (.refl (by simp [h])) ⟨_, _, rfl, ?_, ?_⟩
  · exact moves_record (s := dropVerdict (elapse s)) (t := dropSample (dropVerdict (elapse s))) (by simp [h]) rfl rfl
      ⟨rfl, rfl, rfl, fun _ _ => rfl, by simp⟩ (.sample _) rfl rfl rfl rfl
  · simp [dropVerdict, dropSample]

theorem tracks_setDir {i : Nat} {s : State} (h : s.env.stopAt = none) (d : Dir) :
    Tracks i s [.dir d] (setDir d s) := by
  refine tracks_attempt h _ _ _ _ rfl (fun _ => rfl) (.refl (by simp [h])) ⟨_, _, rfl, ?_, ?_⟩
  · exact moves_record (s := dropVerdict (elapse s)) (t := applyDir d (dropVerdict (elapse s))) (by simp [h]) rfl rfl
      ⟨rfl, rfl, rfl, fun _ _ => rfl, Nat.le_refl _⟩ (.dir d) rfl rfl rfl rfl
  · simp [dropVerdict]

theorem tracks_linkWrite {i : Nat} {s : State} (h : s.env.stopAt = none) (b : Byte) :
    Tracks i s [.link b] (linkWrite b s) := by
  refine tracks_attempt h _ _ _ _ rfl (fun _ => rfl) (.refl (by simp [h])) ⟨_, _, rfl, ?_, ?_⟩
  · exact moves_record (s := dropVerdict (elapse s)) (t := dropVerdict (elapse s)) (by simp [h]) rfl rfl
      ⟨rfl, rfl, rfl, fun _ _ => rfl, Nat.le_refl _⟩ (.link b) rfl rfl rfl rfl
  · simp [dropVerdict]

/-- A wait is done while the clock runs, in this state. -/
theorem waitUntil_runs {s : State} (h : s.env.stopAt = none) (t : Instant) :
    waitUntil t s = .done () (record (.wait t) (clockTo t (elapse s))) := by
  have h2 : (elapse s).env.stopAt = none := by simpa using h
  unfold waitUntil neverReaches
  rw [h2]

theorem tracks_waitUntil {i : Nat} {s : State} (h : s.env.stopAt = none) (t : Instant) :
    Tracks i s [.wait 0] (waitUntil t s) := by
  rw [waitUntil_runs h]
  refine .inl ⟨(), _, rfl, ?_, by simp [fallible, Event.canFail], ?_⟩
  · exact moves_record (s := s) (t := clockTo t (elapse s)) (by simpa [clockTo] using h) rfl rfl
      ⟨rfl, rfl, rfl, fun _ _ => rfl,
        Nat.le_trans (clock_le_envAfter s.env) (Nat.le_max_left _ _)⟩ (.wait t) rfl rfl rfl rfl
  · simp [fallible, Event.canFail, clockTo, elapse]

theorem tracks_now {i : Nat} {s : State} (h : s.env.stopAt = none) : Tracks i s [] (now s) := by
  refine .inl ⟨_, _, rfl, ?_, by simp [fallible], by simp [fallible]⟩
  exact ⟨by simpa using h, rfl, ⟨[], (List.append_nil _).symm, rfl⟩,
    ⟨rfl, rfl, rfl, fun _ _ => rfl, clock_le_envAfter s.env⟩, rfl, rfl, rfl, rfl⟩

theorem tracks_delay {i : Nat} {s : State} (h : s.env.stopAt = none) (d : Duration) :
    Tracks i s [.wait 0] (delay d s) :=
  tracks_andThen (tracks_now h) fun _ _ _ m => tracks_waitUntil m.runs _

/-! ### Helpers and accesses -/

theorem Moves.lt {i : Nat} {s t : State} {evs : List Event} (m : Moves i s evs t)
    (h : i < s.numLines) : i < t.numLines := m.rest.2.1 ▸ h

theorem tracks_selectReg {i : Nat} {s : State} (hi : i < s.numLines) (h : s.env.stopAt = none)
    (reg : Reg) : Tracks i s [.rs (regRs reg), .rw (regRw reg)] (selectReg reg s) :=
  tracks_andThen (tracks_pinWrite hi h .rs _ trivial) fun _ _ _ m =>
    tracks_pinWrite (m.lt hi) m.runs .rw _ trivial

/-- One pulse around `f`. -/
theorem tracks_latched {α : Type} {i : Nat} {s : State} (hi : i < s.numLines)
    (h : s.env.stopAt = none) {f : State → OpResult α} {evs : List Event}
    (hf : ∀ t, Moves i s [.en i true, .wait 0] t → Tracks i t evs (f t)) :
    Tracks i s ([.en i true, .wait 0] ++ evs ++ [.en i false]) (latched i f s) := by
  have : Tracks i s ([.en i true] ++ ([.wait 0] ++ (evs ++ ([.en i false] ++ []))))
      (latched i f s) :=
    tracks_andThen (tracks_pinWrite hi h (.e i) true rfl) fun _ _ _ m1 =>
    tracks_andThen (tracks_delay m1.runs _) fun _ _ _ m2 =>
    tracks_andThen (hf _ (m1.trans m2)) fun a _ _ m3 =>
    tracks_andThen (tracks_pinWrite ((m1.trans m2).trans m3 |>.lt hi) m3.runs (.e i) false rfl)
      fun _ _ _ m4 => tracks_done m4.runs a
  simpa using this

/-- One write cycle. -/
theorem tracks_cycle {i : Nat} {s : State} (hi : i < s.numLines) (h : s.env.stopAt = none)
    (v : Byte) :
    Tracks i s (writePulse i (onWires s.cfg v))
      ((dataDrive v s).andThen fun _ s => latch i s) :=
  tracks_andThen (tracks_dataDrive h v) fun _ _ _ m =>
    tracks_latched (evs := []) (m.lt hi) m.runs fun _ m2 => tracks_done m2.runs ()

theorem tracks_writeU8 {i : Nat} {s : State} (hi : i < s.numLines) (h : s.env.stopAt = none)
    (hb : s.cfg.bus.isParallel = true) (v : Byte) :
    Tracks i s (byteEvents s.cfg.bus i v) (writeU8 i v s) := by
  unfold writeU8
  cases hbus : s.cfg.bus with
  | ser => simp [hbus, Bus.isParallel] at hb
  | par8 =>
    have := tracks_cycle hi h v
    rwa [onWires_par8 hbus] at this
  | par4 =>
    have h1 := tracks_cycle hi h (highNibble v)
    rw [onWires_high hbus] at h1
    have assoc : ((dataDrive (highNibble v) s).andThen fun _ s =>
        (latch i s).andThen fun _ s => (dataDrive (lowNibble v) s).andThen fun _ s => latch i s)
        = ((dataDrive (highNibble v) s).andThen fun _ s => latch i s).andThen fun _ s =>
          (dataDrive (lowNibble v) s).andThen fun _ s => latch i s := by
      cases dataDrive (highNibble v) s <;> rfl
    simp only [byteEvents]
    rw [assoc]
    refine tracks_andThen h1 fun _ t _ m => ?_
    have h2 := tracks_cycle (m.lt hi) m.runs (lowNibble v)
    rwa [onWires_low (by rw [m.rest.1]; exact hbus)] at h2

theorem tracks_parWrite {i : Nat} {s : State} (hi : i < s.numLines) (h : s.env.stopAt = none)
    (hb : s.cfg.bus.isParallel = true) (reg : Reg) (hr : regRw reg = false) (v : Payload) :
    Tracks i s (writeEvents s.cfg.bus i (regRs reg) (payloadBytes v)) (parWrite i reg v s) := by
  have h1 := tracks_selectReg hi h reg
  rw [hr] at h1
  have key : Tracks i s ([.rs (regRs reg), .rw false]
      ++ (payloadBytes v).flatMap (byteEvents s.cfg.bus i)) (parWrite i reg v s) := by
    refine tracks_andThen h1 fun _ t _ m => ?_
    have hc : t.cfg = s.cfg := m.rest.1
    cases v with
    | one b =>
      have := tracks_writeU8 (m.lt hi) m.runs (by rw [hc]; exact hb) b
      rw [hc] at this
      simpa [payloadBytes] using this
    | two w =>
      have h2 := tracks_writeU8 (m.lt hi) m.runs (by rw [hc]; exact hb) (highByte w)
      rw [hc] at h2
      have : Tracks i t (byteEvents s.cfg.bus i (highByte w) ++ byteEvents s.cfg.bus i (lowByte w))
          (writeU16 i w t) := by
        refine tracks_andThen h2 fun _ u _ m2 => ?_
        have hc2 : u.cfg = s.cfg := m2.rest.1.trans hc
        have := tracks_writeU8 (m2.lt (m.lt hi)) m2.runs (by rw [hc2]; exact hb) (lowByte w)
        rwa [hc2] at this
      simpa [payloadBytes, highByte, lowByte] using this
  cases hbus : s.cfg.bus with
  | ser => simp [hbus, Bus.isParallel] at hb
  | par8 => rw [hbus] at key; exact key
  | par4 => rw [hbus] at key; exact key

theorem tracks_linkWriteAll {i : Nat} (bs : List Byte) : ∀ {s : State}, s.env.stopAt = none →
    Tracks i s (bs.map Event.link) (linkWriteAll bs s) := by
  induction bs with
  | nil => exact fun h => tracks_done h ()
  | cons b bs ih =>
    exact fun h => tracks_andThen (e1 := [.link b]) (tracks_linkWrite h b) fun _ _ _ m => ih m.runs

theorem tracks_serWrite {i : Nat} {s : State} (hi : i < s.numLines) (h : s.env.stopAt = none)
    (hb : s.cfg.bus = .ser) (reg : Reg) (hr : regRw reg = false) (v : Payload) :
    Tracks i s (writeEvents s.cfg.bus i (regRs reg) (payloadBytes v)) (serWrite i reg v s) := by
  have : Tracks i s ([.cs i true] ++ ((frameBytes reg v).map Event.link ++ [.cs i false]))
      (serWrite i reg v s) :=
    tracks_andThen (tracks_pinWrite hi h (.cs i) true rfl) fun _ _ _ m =>
    tracks_andThen (tracks_linkWriteAll _ m.runs) fun _ _ _ m2 =>
    tracks_pinWrite (m2.lt (m.lt hi)) m2.runs (.cs i) false rfl
  rw [frame_links reg hr v] at this
  simpa [hb, writeEvents] using this

/-- A write access, on each transport. -/
theorem tracks_memWrite {i : Nat} {s : State} (hi : i < s.numLines) (h : s.env.stopAt = none)
    (reg : Reg) (hr : regRw reg = false) (v : Payload) :
    Tracks i s (writeEvents s.cfg.bus i (regRs reg) (payloadBytes v)) (memWrite i reg v s) := by
  unfold memWrite
  split
  · rename_i hb; exact tracks_parWrite hi h (by rw [hb]; rfl) reg hr v
  · rename_i hb; exact tracks_parWrite hi h (by rw [hb]; rfl) reg hr v
  · rename_i hb; exact tracks_serWrite hi h hb reg hr v

/-! ### A scheduled transfer -/

/-- What an access on line `i` in state `s` starts with: the wait for the line's deadline. -/
theorem awaitDeadline_runs {i : Nat} {s : State} (h : s.env.stopAt = none) :
    ∃ u t, awaitDeadline i s = .done () t ∧ t.trace = s.trace ++ [⟨u, .wait (s.line i).deadline⟩]
      ∧ t.env.verdicts = s.env.verdicts ∧ Moves i s [.wait 0] t := by
  have hw := waitUntil_runs h (s.line i).deadline
  obtain ⟨a, t, ht, hm, hv⟩ := tracks_passes (rest := s.env.verdicts)
    (tracks_waitUntil (i := i) h (s.line i).deadline) (by simp [fallible, Event.canFail])
  rw [hw] at ht
  cases ht
  exact ⟨_, _, hw, rfl, hv, hm⟩

theorem fallible_emitEvents (b : Bus) (i : Nat) (a : Bool × List Byte) :
    fallible (emitEvents b i a) = fallible (writeEvents b i a.1 a.2) := rfl

/-- `emit` that fails: the error, the events before it, and the wait for the deadline the line still
has. -/
theorem emit_fails {i n e : Nat} {s : State} {rest : List (Option Nat)} (hi : i < s.numLines)
    (h : s.env.stopAt = none) (c : Command)
    (hn : n < (fallible (emitEvents s.cfg.bus i (accessOf s.cfg c))).length)
    (hv : s.env.verdicts = List.replicate n none ++ some e :: rest) :
    ∃ ev t u part, emit i c s = .raised (errorAt e ev) t
      ∧ (fallible (emitEvents s.cfg.bus i (accessOf s.cfg c)))[n]? = some ev
      ∧ Moves i s (beforeFailure n (emitEvents s.cfg.bus i (accessOf s.cfg c))) t
      ∧ t.trace = s.trace ++ ⟨u, .wait (t.line i).deadline⟩ :: part
      ∧ .wait 0 :: part.map (fun x => untimed x.ev)
        = beforeFailure n (emitEvents s.cfg.bus i (accessOf s.cfg c)) := by
  obtain ⟨u, t1, h1, ht1, hv1, m1⟩ := awaitDeadline_runs (i := i) h
  have hc : t1.cfg = s.cfg := m1.rest.1
  have track := tracks_memWrite (m1.lt hi) m1.runs (commandAccess s.cfg.cursorCtrl c).1
    (regRw_commandAccess _ c) (commandAccess s.cfg.cursorCtrl c).2
  rw [hc] at track
  obtain ⟨ev, t, hr, hev, m2⟩ := tracks_fails track (hv1.trans hv) hn
  obtain ⟨new, hnew, hmap⟩ := m2.trace
  have hd : (t.line i).deadline = (s.line i).deadline := m2.deadline.trans m1.deadline
  have hb : beforeFailure n (emitEvents s.cfg.bus i (accessOf s.cfg c)) = .wait 0 ::
      beforeFailure n (writeEvents s.cfg.bus i (accessOf s.cfg c).1 (accessOf s.cfg c).2) :=
    beforeFailure_wait rfl n _
  refine ⟨ev, t, u, new, ?_, hev, ?_, ?_, ?_⟩
  · simp [emit, h1, OpResult.andThen, hc, hr]
  · rw [hb]; exact m1.trans m2
  · rw [hnew, ht1, hd]; simp
  · rw [hb, hmap]; rfl

/-- `emit` that is done: its verdicts are used up, its events stand, and its time is booked. -/
theorem emit_passes {i : Nat} {s : State} {rest : List (Option Nat)} (hi : i < s.numLines)
    (h : s.env.stopAt = none) (c : Command)
    (hv : s.env.verdicts = List.replicate
      (fallible (emitEvents s.cfg.bus i (accessOf s.cfg c))).length none ++ rest) :
    ∃ t, emit i c s = .done () (setDeadline i (t.env.clock + executionTime c) t)
      ∧ Moves i s (emitEvents s.cfg.bus i (accessOf s.cfg c)) t ∧ t.env.verdicts = rest
      ∧ (s.line i).deadline ≤ t.env.clock := by
  obtain ⟨u, t1, h1, ht1, hv1, m1⟩ := awaitDeadline_runs (i := i) h
  have hc : t1.cfg = s.cfg := m1.rest.1
  have hclock : (s.line i).deadline ≤ t1.env.clock := by
    rw [awaitDeadline, waitUntil_runs h] at h1
    cases h1
    exact Nat.le_max_right _ _
  have track := tracks_memWrite (m1.lt hi) m1.runs (commandAccess s.cfg.cursorCtrl c).1
    (regRw_commandAccess _ c) (commandAccess s.cfg.cursorCtrl c).2
  rw [hc] at track
  obtain ⟨a, t2, hr, m2, hv2⟩ := tracks_passes track (hv1.trans hv)
  obtain ⟨b, t3, hr3, m3, hv3⟩ := tracks_passes (rest := t2.env.verdicts) (tracks_now (i := i) m2.runs)
    (by simp [fallible])
  have m := (m1.trans m2).trans m3
  rw [List.append_nil] at m
  refine ⟨t3, ?_, m, hv3.trans hv2,
    Nat.le_trans hclock (Nat.le_trans m2.rest.2.2.2.2 m3.rest.2.2.2.2)⟩
  cases hr3
  simp [emit, h1, OpResult.andThen, hc, hr, book, now]

end Sys2Proof.Machine
end

