-- ==== Sys2Proof/Laws/Modes.lean ====
section
/-!
SUPPORT. What the mode machine does in a cooperative environment: a select with its assignment, the
paths of the Basic-set and the Extended/Graphic-set commands without busy polling, and how such a
path completes an instruction.
-/

namespace Sys2Proof.Machine

/-- The operation is done, having sent the accesses `pre` and then `a` on line `i`, with mode `m`
and `d` booked. -/
def Sends (i : Nat) (pre : List (Bool × List Byte)) (a : Bool × List Byte) (d : Duration) (m : Mode)
    (s : State) (r : OpResult Unit) : Prop :=
  ∃ t, r = .done () t ∧ Good i s ((pre ++ [a]).flatMap (emitEvents s.cfg.bus i)) t
    ∧ pinView i t = { (pinView i s).afterWrite s.cfg.bus a.1 a.2 with mode := m }
    ∧ (t.line i).deadline = t.env.clock + d
    ∧ max s.env.clock (s.line i).deadline + 72 * pre.length ≤ t.env.clock

/-- A write access leaves the mode, the direction and the flag. -/
theorem afterWrite_rest (v : PinView) (b : Bus) (x : Bool) (l : List Byte) :
    (v.afterWrite b x l).mode = v.mode ∧ (v.afterWrite b x l).dir = v.dir
      ∧ (v.afterWrite b x l).chipUnknown = v.chipUnknown := by
  obtain ⟨rs, rw, data, wires, dir, mode, e, cs, unknown, samples⟩ := v
  cases b <;> cases dir <;> exact ⟨rfl, rfl, rfl⟩

/-- Every command books 72 µs or more (30_encoding.md R89). -/
theorem le_executionTime (c : Command) : 72 ≤ executionTime c := by
  cases c <;> simp [executionTime, tExec, tExecClear]

/-- `emit` alone. -/
theorem sends_emit {i : Nat} {s : State} (h : Ready i s) (c : Command) :
    Sends i [] (accessOf s.cfg c) (executionTime c) (s.line i).mode s (emit i c s) := by
  obtain ⟨t, e, g, v, d, hc⟩ := emit_coop h c
  refine ⟨t, e, by simpa using g, ?_, d, hc⟩
  have hm : (pinView i t).mode = (s.line i).mode := by rw [v]; exact (afterWrite_rest _ _ _ _).1
  rw [← v, ← hm]

/-- A select and its assignment. -/
theorem sends_emitSelect {i : Nat} {s : State} (h : Ready i s) (c : Command) (m : Mode) :
    Sends i [] (accessOf s.cfg c) (executionTime c) m s (emitSelect i c m s) := by
  obtain ⟨t, e, g, v, d, hc⟩ := sends_emit h c
  have hl := line_modLine_same t i (fun l => { l with mode := m }) (g.ready h).1
  refine ⟨setMode i m t, by simp [emitSelect, e, OpResult.andThen], ?_, ?_, ?_, hc⟩
  · have := g.trans (good_modLine (i := i) g.coop (fun l => { l with mode := m }))
    rw [List.append_nil] at this
    exact this
  · simp only [pinView, setMode, hl]
    exact congrArg (fun w : PinView => { w with mode := m }) v
  · simp only [setMode, hl, modLine_env]; exact d

/-- The pins after two write accesses are those after the second. -/
theorem afterWrite_twice (v : PinView) (b : Bus) (x y : Bool) (l l' : List Byte) (m : Mode) :
    ({ v.afterWrite b x l with mode := m } : PinView).afterWrite b y l'
      = { v.afterWrite b y l' with mode := m } := by
  obtain ⟨rs, rw, data, wires, dir, mode, e, cs, unknown, samples⟩ := v
  cases b <;> cases dir <;> rfl

/-- A select, and then something that sends. -/
theorem sends_select_then {i : Nat} {s : State} (h : Ready i s) (c : Command) (m : Mode)
    (f : State → OpResult Unit) (pre : List (Bool × List Byte)) (a : Bool × List Byte)
    (d : Duration) (m' : Mode)
    (k : ∀ t, Ready i t → t.cfg = s.cfg → (t.line i).mode = m → Sends i pre a d m' t (f t)) :
    Sends i (accessOf s.cfg c :: pre) a d m' s ((emitSelect i c m s).andThen fun _ s => f s) := by
  obtain ⟨t, e, g, v, dl, hc⟩ := sends_emitSelect h c m
  obtain ⟨u, e2, g2, v2, d2, hc2⟩ := k t (g.ready h) g.rest.1 (congrArg PinView.mode v)
  refine ⟨u, by simp [e, OpResult.andThen, e2], ?_, ?_, d2, ?_⟩
  · rw [g.rest.1] at g2
    simpa using g.trans g2
  · rw [v2, v, g.rest.1, afterWrite_twice]
  · have := le_executionTime c
    simp only [List.length_cons, List.length_nil, Instant, Duration] at *
    omega

theorem pollBusy_off {i : Nat} {s : State} (h : s.cfg.busyPoll = false) :
    pollBusy i s = .done () s := by simp [pollBusy, h]

theorem toBasic_off {i : Nat} {s : State} (h : s.cfg.busyPoll = false) :
    toBasic i s = emitSelect i .selectBasic .basic s := by
  simp [toBasic, pollBusy_off h, OpResult.andThen]

theorem whenMode_ne {i : Nat} {m m' : Mode} {op : State → OpResult Unit} {s : State}
    (h : (s.line i).mode = m') (hne : m' ≠ m) : whenMode i m op s = .done () s := by
  simp [whenMode, h, hne]

theorem whenMode_eq {i : Nat} {m : Mode} {op : State → OpResult Unit} {s : State}
    (h : (s.line i).mode = m) : whenMode i m op s = op s := by simp [whenMode, h]

/-- The path of a Basic-set command (45_mode_machine.md R214). -/
theorem sends_basicOp {i : Nat} {s : State} (h : Ready i s) (hp : s.cfg.busyPoll = false)
    (c : Command) :
    Sends i (basicPrelude (s.line i).mode) (accessOf s.cfg c) (executionTime c) .basic s
      (execClass i c .basicOp s) := by
  have fromExt : ∀ s, Ready i s → s.cfg.busyPoll = false → (s.line i).mode = .extended →
      Sends i [(false, [0x20#8])] (accessOf s.cfg c) (executionTime c) .basic s
        ((whenMode i .extended (toBasic i) s).andThen fun _ s => emit i c s) := by
    intro s h hp hm
    rw [whenMode_eq hm, toBasic_off hp]
    refine sends_select_then h .selectBasic .basic _ [] _ _ _ fun t r hc hm => ?_
    have := sends_emit r c
    rwa [hc, hm] at this
  unfold execClass
  cases hm : (s.line i).mode with
  | basic =>
    simp only [whenMode_ne hm (show Mode.basic ≠ .graphic by decide), OpResult.andThen,
      whenMode_ne hm (show Mode.basic ≠ .extended by decide)]
    have := sends_emit h c
    rwa [hm] at this
  | extended =>
    simp only [whenMode_ne hm (show Mode.extended ≠ .graphic by decide)]
    exact fromExt s h hp hm
  | graphic =>
    simp only [whenMode_eq hm]
    refine sends_select_then h .selectExtended .extended _ [(false, [0x20#8])] _ _ _
      fun t r hc hm => ?_
    have := fromExt t r (by rw [hc]; exact hp) hm
    rwa [hc] at this

/-- The path of an Extended/Graphic-set command (45_mode_machine.md R215). -/
theorem sends_extOp {i : Nat} {s : State} (h : Ready i s) (c : Command) :
    Sends i (extPrelude (s.line i).mode) (accessOf s.cfg c) (executionTime c)
      (extMode (s.line i).mode) s (execClass i c .extOp s) := by
  unfold execClass
  have direct := sends_emit h c
  cases hm : (s.line i).mode with
  | basic =>
    simp only [whenMode_eq hm]
    refine sends_select_then h .selectExtended .extended _ [] _ _ _ fun t r hc hm => ?_
    have := sends_emit r c
    rwa [hc, hm] at this
  | extended =>
    rw [hm] at direct
    simp only [whenMode_ne hm (show Mode.extended ≠ .basic by decide)]
    exact direct
  | graphic =>
    rw [hm] at direct
    simp only [whenMode_ne hm (show Mode.graphic ≠ .basic by decide)]
    exact direct

/-- An instruction whose command is sent completes as sent. -/
theorem completes_sent {i : Nat} {s : State} {pre : List (Bool × List Byte)}
    {a : Bool × List Byte} {d : Duration} {m : Mode} {c : Instr} {cmd : Command} (h : Ready i s)
    (hx : exec c s = execute i cmd s) (hs : Sends i pre a d m s (execCommand i cmd s)) :
    Completes c s (Sent i pre a d m s) := by
  obtain ⟨t, e, g, v, hd, hc⟩ := hs
  obtain ⟨-, hdir', hu'⟩ := afterWrite_rest (pinView i s) s.cfg.bus a.1 a.2
  have hrs : t.rs = _ := congrArg PinView.rs v
  have hrw : t.rw = _ := congrArg PinView.rw v
  have hdt : t.data = _ := congrArg PinView.data v
  have hw : t.wires = _ := congrArg PinView.wires v
  have hdir : t.dir = _ := congrArg PinView.dir v
  have hm : (t.line i).mode = _ := congrArg PinView.mode v
  have he : (t.line i).e = _ := congrArg PinView.e v
  have hcs : (t.line i).cs = _ := congrArg PinView.cs v
  have hu : (t.line i).chipUnknown = _ := congrArg PinView.chipUnknown v
  refine ⟨answer .okUnit t, ?_, ⟨by simp [g.results], g.shape, hm, hd, hu.trans hu',
    hdir.trans hdir', ?_, g.rest⟩, hc⟩
  · rw [hx]; simp [execute, onLine, h.1, complete, returnUnit, e, OpResult.andThen]
  · show PinsAfterWrite i a s t
    unfold PinsAfterWrite
    unfold DataAfterDrive
    cases hb : s.cfg.bus <;> cases hd : s.dir <;>
      simp [hb, hd, hrs, hrw, hdt, he, hcs, hw, hdir, PinView.afterWrite, PinView.drive, pinView,
        lastDriven]

end Sys2Proof.Machine
end

