-- ==== Sys2Proof/Laws/PerInstr.lean ====
section
/-!
SUPPORT. A family of statements about the instruction as syntax, one lemma per constructor: the line
index passes through the encoding, and the register an instruction is encoded for has `RW` high
exactly if the instruction is a read (20_memory.md R51, 30_encoding.md R86).
-/

namespace Sys2Proof.Laws.LinePassesThrough

/-- The line of the port word, and the direction of its register. -/
def Statement (c : Instr) : Prop :=
  (encode c).line = c.line ∧ Machine.regRw (encode c).reg = c.isRead

theorem write (i : Nat) (d : Half) : Statement (.write i d) := ⟨rfl, rfl⟩

theorem clear (i : Nat) : Statement (.clear i) := ⟨rfl, rfl⟩

theorem home (i : Nat) : Statement (.home i) := ⟨rfl, rfl⟩

theorem entryMode (i : Nat) (a b : Bool) : Statement (.entryMode i a b) := ⟨rfl, rfl⟩

theorem displayOnOff (i : Nat) (a b c : Bool) : Statement (.displayOnOff i a b c) := ⟨rfl, rfl⟩

theorem cursorDisplayCtrl (i : Nat) (a b : Bool) : Statement (.cursorDisplayCtrl i a b) := ⟨rfl, rfl⟩

theorem selectBasic (i : Nat) : Statement (.selectBasic i) := ⟨rfl, rfl⟩

theorem cgRamAddr (i : Nat) (a : BitVec 6) : Statement (.cgRamAddr i a) := ⟨rfl, rfl⟩

theorem ddRamAddr (i : Nat) (a : BitVec 7) : Statement (.ddRamAddr i a) := ⟨rfl, rfl⟩

theorem standBy (i : Nat) : Statement (.standBy i) := ⟨rfl, rfl⟩

theorem enableScroll (i : Nat) : Statement (.enableScroll i) := ⟨rfl, rfl⟩

theorem enableCgRam (i : Nat) : Statement (.enableCgRam i) := ⟨rfl, rfl⟩

theorem reverse (i : Nat) (a : BitVec 2) : Statement (.reverse i a) := ⟨rfl, rfl⟩

theorem selectExtended (i : Nat) : Statement (.selectExtended i) := ⟨rfl, rfl⟩

theorem selectGraphic (i : Nat) : Statement (.selectGraphic i) := ⟨rfl, rfl⟩

theorem scrollOffset (i : Nat) (a : BitVec 5) : Statement (.scrollOffset i a) := ⟨rfl, rfl⟩

theorem graphicRamAddr (i : Nat) (x : BitVec 6) (y : BitVec 4) : Statement (.graphicRamAddr i x y) := ⟨rfl, rfl⟩

theorem readStatus (i : Nat) : Statement (.readStatus i) := ⟨rfl, rfl⟩

theorem readRam (i : Nat) : Statement (.readRam i) := ⟨rfl, rfl⟩

end Sys2Proof.Laws.LinePassesThrough
end

