-- ==== Sys2Proof/Tests/Slice0.lean ====
section
/-!
SUPPORT. Tests: ill-formed terms are refused, written words decode, single steps do what the spec's
vectors say (95_test_vectors.md), and the hypotheses of every statement can be met.
-/

namespace Sys2Proof.Tests

open Sys2Proof Sys2Proof.Machine

/-! ### WellFormed -/

/-- 0x20 is `SelectBasic`, so it cannot be a byte of `CursorDisplayCtrl` (92_eei_decisions.md). -/
theorem test_cursor_bytes_overlap_refused : CursorCtrlBytes.wf ⟨0x10, 0x14, 0x18, 0x20⟩ = false := by
  decide

/-- 0x5F is `CgRamAddr(0x1F)`. -/
theorem test_cursor_first_byte_overlap_refused :
    CursorCtrlBytes.wf ⟨0x5F, 0x14, 0x18, 0x1C⟩ = false := by decide

/-- `BUSY_POLL` on `SER` is not legal (00_scope.md R8). -/
theorem test_poll_on_serial_refused :
    Params.pollLegal { Config.defaultParams with bus := .ser, busyPoll := true } = false := by decide

/-- An instance has a line (00_scope.md R6). -/
theorem test_no_lines_refused : Params.wf Config.defaultParams 0 = false := by decide

/-- The default parameters are legal. -/
theorem test_default_params_wf : Params.wf Config.defaultParams Config.defaultLines = true := by
  decide

/-- Line 2 of 2 does not exist. -/
theorem test_line_out_of_range_refused : Instr.lineOk 2 (.clear 2) = false := by decide

/-- `SER` has no reads (47_facade.md R267). -/
theorem test_read_on_serial_refused : Instr.available .ser (.readStatus 0) = false := by decide

/-- Neither is such an instruction well-formed; the last line's `Clear` is. -/
theorem test_instr_wf :
    Instr.wf { Config.defaultParams with bus := .ser } 2 (.readRam 0) = false
      ∧ Instr.wf Config.defaultParams 2 (.clear 2) = false
      ∧ Instr.wf Config.defaultParams 2 (.clear 1) = true := by decide

/-! ### Decoding: words written out from 30_encoding.md R73, R74, R80, R86 -/

/-- The port word of a byte in the Basic set, on line 1. -/
def basicByte (b : Byte) : PortWord := ⟨1, .basic, .cmd, [b]⟩

/-- The port word of a byte in the Extended/Graphic set, on line 1. -/
def extByte (b : Byte) : PortWord := ⟨1, .extendedOrGraphic, .cmd, [b]⟩

theorem test_decode_write :
    decode ⟨1, .basic, .dataWr, [0b00010010#8, 0b00110100#8]⟩ = .ok (.write 1 0x1234#16) := by decide
theorem test_decode_clear : decode (basicByte 0b00000001#8) = .ok (.clear 1) := by decide
theorem test_decode_home : decode (basicByte 0b00000010#8) = .ok (.home 1) := by decide
theorem test_decode_entryMode :
    decode (basicByte 0b00000110#8) = .ok (.entryMode 1 true false) := by decide
theorem test_decode_displayOnOff :
    decode (basicByte 0b00001100#8) = .ok (.displayOnOff 1 true false false) := by decide
theorem test_decode_cursorDisplayCtrl :
    decode (basicByte 0b00010100#8) = .ok (.cursorDisplayCtrl 1 false true) := by decide
theorem test_decode_selectBasic :
    decode (extByte 0b00100000#8) = .ok (.selectBasic 1)
      ∧ decode (basicByte 0b00100000#8) = .ok (.selectBasic 1) := by decide
theorem test_decode_cgRamAddr :
    decode (basicByte 0b01010101#8) = .ok (.cgRamAddr 1 0b010101#6) := by decide
theorem test_decode_ddRamAddr :
    decode (basicByte 0b10010000#8) = .ok (.ddRamAddr 1 0b0010000#7) := by decide
theorem test_decode_standBy : decode (extByte 0b00000001#8) = .ok (.standBy 1) := by decide
theorem test_decode_enableScroll : decode (extByte 0b00000011#8) = .ok (.enableScroll 1) := by decide
theorem test_decode_enableCgRam : decode (extByte 0b00000010#8) = .ok (.enableCgRam 1) := by decide
theorem test_decode_reverse : decode (extByte 0b00000110#8) = .ok (.reverse 1 0b10#2) := by decide
theorem test_decode_selectExtended :
    decode (basicByte 0b00100100#8) = .ok (.selectExtended 1)
      ∧ decode (extByte 0b00100100#8) = .ok (.selectExtended 1) := by decide
theorem test_decode_selectGraphic :
    decode (extByte 0b00100110#8) = .ok (.selectGraphic 1) := by decide
theorem test_decode_scrollOffset :
    decode (extByte 0b01000101#8) = .ok (.scrollOffset 1 0b00101#5) := by decide
theorem test_decode_graphicRamAddr :
    decode ⟨1, .extendedOrGraphic, .cmd, [0b10000101#8, 0b10000011#8]⟩
      = .ok (.graphicRamAddr 1 0b000011#6 0b0101#4) := by decide
theorem test_decode_readStatus : decode ⟨1, .basic, .status, []⟩ = .ok (.readStatus 1) := by decide
theorem test_decode_readRam : decode ⟨1, .basic, .dataRd, []⟩ = .ok (.readRam 1) := by decide

/-- V7: the reserved rows; and `0x26` in Basic (30_encoding.md R81). -/
theorem test_decode_reserved :
    decode ⟨1, .extendedOrGraphic, .cmd, [0x85#8, 0xC3#8]⟩ = .error (.badSecondByte 0x85#8 0xC3#8)
      ∧ decode (basicByte 0x22#8) = .error (.reservedByte .basic 0x22#8)
      ∧ decode (extByte 0x22#8) = .error (.reservedByte .extendedOrGraphic 0x22#8)
      ∧ decode (basicByte 0x26#8) = .error (.reservedByte .basic 0x26#8)
      ∧ decode (basicByte 0x03#8) = .error (.reservedByte .basic 0x03#8)
      ∧ decode (extByte 0x0C#8) = .error (.reservedByte .extendedOrGraphic 0x0C#8) := by decide

/-- A table word: 8 bits in the Basic set first, 16 bits high byte first. -/
theorem test_table_words :
    decodeTableWord 8 0x0C = some (.displayOnOff 0 true false false)
      ∧ decodeTableWord 8 0x03 = some (.enableScroll 0)
      ∧ decodeTableWord 16 0x8583 = some (.graphicRamAddr 0 3#6 5#4)
      ∧ decodeTableWord 16 0x1234 = some (.write 0 0x1234#16)
      ∧ decodeTableWord 8 0x00 = none := by decide

/-- The lines of 30_encoding.md R90 with braces. -/
theorem test_text_with_braces :
    opText ("exec 0 GraphicRamAddr" ++ String.singleton openBrace ++ "x=3,y=5"
        ++ String.singleton closeBrace) = some (issue (.graphicRamAddr 0 3#6 5#4))
      ∧ opText ("exec 0 DisplayOnOff" ++ String.singleton openBrace ++ "display=1, cursor=0, blink=0"
        ++ String.singleton closeBrace) = some (issue (.displayOnOff 0 true false false))
      ∧ opText ("exec 0 EntryMode" ++ String.singleton openBrace ++ "shift=0,increment=1"
        ++ String.singleton closeBrace) = none := by decide

/-! ### Single steps, in the zero-cost environment of the spec's vectors -/

/-- Parameters on a bus, with nothing open. -/
def params (b : Bus) : Params :=
  { bus := b, tPw := 0, tInitSettle := 0, tRead := 72, writePolicy := .basicSet, busyPoll := false,
    cursorCtrl := .default }

/-- Two fresh lines, and time that does not pass by itself. -/
def fresh (p : Params) : State :=
  let s := State.construct p 2 0
  { s with env := { s.env with ticks := List.replicate 60 0 } }

/-- Line 1 in a mode. -/
def inMode (m : Mode) (p : Params) : State := setMode 1 m (fresh p)

/-- With samples to come. -/
def sampling (v : List Byte) (s : State) : State := { s with env := { s.env with samples := v } }

/-- With verdicts to come. -/
def failing (v : List (Option Nat)) (s : State) : State :=
  { s with env := { s.env with verdicts := v } }

/-- The outcome is a next state of which `p` holds. -/
def after (o : Host.Outcome State Fault Refusal) (p : State → Bool) : Bool :=
  match o with
  | .next t => p t
  | .fault _ => false
  | .refused _ => false

theorem after_next {o : Host.Outcome State Fault Refusal} {p : State → Bool} (h : after o p = true) :
    ∃ t, o = .next t ∧ p t = true := by
  cases o with
  | next t => exact ⟨t, rfl, h⟩
  | fault e => cases h
  | refused e => cases h

/-- What an instruction sends, the mode and the deadline it leaves. -/
def leaves (c : Instr) (s : State) (evs : List Event) (m : Mode) (d : Instant) : Bool :=
  after (exec c s) fun t =>
    t.shape == evs && (t.line 1).mode == m && (t.line 1).deadline == d && t.results == [.okUnit]

/-- What a serial instruction from Basic or Extended hands to the link. -/
def links (c : Instr) (m : Mode) (bs : List Byte) : Bool :=
  after (exec c (inMode m (params .ser))) fun t => portLink t == bs

/-- V2. -/
theorem test_write_par8 : leaves (.write 1 0x1234#16) (fresh (params .par8))
    [.wait 0, .rs true, .rw false, .data 0x12, .en 1 true, .wait 0, .en 1 false,
      .data 0x34, .en 1 true, .wait 0, .en 1 false] .basic 72 = true := by decide

/-- V3. -/
theorem test_write_par4 : leaves (.write 1 0x1234#16) (fresh (params .par4))
    [.wait 0, .rs true, .rw false, .data 0x1, .en 1 true, .wait 0, .en 1 false,
      .data 0x2, .en 1 true, .wait 0, .en 1 false, .data 0x3, .en 1 true, .wait 0, .en 1 false,
      .data 0x4, .en 1 true, .wait 0, .en 1 false] .basic 72 = true := by decide

/-- V2. -/
theorem test_clear_par8 : leaves (.clear 1) (fresh (params .par8))
    [.wait 0, .rs false, .rw false, .data 0x01, .en 1 true, .wait 0, .en 1 false]
    .basic 1600 = true := by decide

/-- V6, the worst row: the deadline is 72 + 72 + 1600. -/
theorem test_clear_from_graphic : after (exec (.clear 1) (inMode .graphic (params .ser)))
    (fun t => portLink t == [0xF8, 0x20, 0x40, 0xF8, 0x20, 0x00, 0xF8, 0x00, 0x10]
      && (t.line 1).deadline == 1744 && (t.line 1).mode == .basic) = true := by decide

/-- V3. -/
theorem test_home_par4 : leaves (.home 1) (fresh (params .par4))
    [.wait 0, .rs false, .rw false, .data 0x0, .en 1 true, .wait 0, .en 1 false,
      .data 0x2, .en 1 true, .wait 0, .en 1 false] .basic 72 = true := by decide

/-- V4. -/
theorem test_links_basic :
    links (.home 1) .basic [0xF8, 0x00, 0x20] = true
      ∧ links (.entryMode 1 true false) .basic [0xF8, 0x00, 0x60] = true
      ∧ links (.displayOnOff 1 true false false) .basic [0xF8, 0x00, 0xC0] = true
      ∧ links (.cursorDisplayCtrl 1 false true) .basic [0xF8, 0x10, 0x40] = true
      ∧ links (.selectBasic 1) .basic [0xF8, 0x20, 0x00] = true
      ∧ links (.cgRamAddr 1 0x15#6) .basic [0xF8, 0x50, 0x50] = true
      ∧ links (.ddRamAddr 1 0x7F#7) .basic [0xF8, 0xF0, 0xF0] = true
      ∧ links (.write 1 0x4141#16) .basic [0xFA, 0x40, 0x10, 0x40, 0x10] = true := by decide

/-- V4. -/
theorem test_links_extended :
    links (.standBy 1) .extended [0xF8, 0x00, 0x10] = true
      ∧ links (.enableScroll 1) .extended [0xF8, 0x00, 0x30] = true
      ∧ links (.enableCgRam 1) .extended [0xF8, 0x00, 0x20] = true
      ∧ links (.reverse 1 2#2) .extended [0xF8, 0x00, 0x60] = true
      ∧ links (.selectExtended 1) .extended [0xF8, 0x20, 0x40] = true
      ∧ links (.selectGraphic 1) .extended [0xF8, 0x20, 0x60] = true
      ∧ links (.scrollOffset 1 5#5) .extended [0xF8, 0x40, 0x50] = true
      ∧ links (.graphicRamAddr 1 0x3F#6 0xF#4) .graphic [0xF8, 0x80, 0xF0, 0xB0, 0xF0] = true := by
  decide

/-- V6: one select goes before an Extended-set command in Basic. -/
theorem test_scrollOffset_from_basic : after (exec (.scrollOffset 1 5#5) (fresh (params .ser)))
    (fun t => portLink t == [0xF8, 0x20, 0x40, 0xF8, 0x40, 0x50]
      && (t.line 1).mode == .extended) = true := by decide

/-- V6: `SelectGraphic` goes through Extended, `SelectBasic` from Graphic too. -/
theorem test_selects_change_one_bit :
    links (.selectGraphic 1) .basic [0xF8, 0x20, 0x40, 0xF8, 0x20, 0x60] = true
      ∧ links (.selectBasic 1) .graphic [0xF8, 0x20, 0x40, 0xF8, 0x20, 0x00] = true := by decide

/-- V6: `Write` under both policies in Graphic. -/
theorem test_write_policies :
    links (.write 1 0x4141#16) .graphic
        [0xF8, 0x20, 0x40, 0xF8, 0x20, 0x00, 0xFA, 0x40, 0x10, 0x40, 0x10] = true
      ∧ after (exec (.write 1 0x4141#16) (inMode .graphic { params .ser with writePolicy := .neutral }))
          (fun t => portLink t == [0xFA, 0x40, 0x10, 0x40, 0x10]
            && (t.line 1).mode == .graphic) = true := by decide

/-- V2: 0x90 is busy, address counter 0x10. -/
theorem test_readStatus_par8 :
    after (exec (.readStatus 1) (sampling [0x90] (fresh (params .par8))))
      (fun t => t.results == [.okStatus true 0x10] && t.shape == [.wait 0, .dir .into, .rs false,
        .rw true, .en 1 true, .wait 0, .sample 0x90, .en 1 false, .dir .out]) = true := by decide

/-- V3: high nibble first. -/
theorem test_readStatus_par4 :
    after (exec (.readStatus 1) (sampling [0x9, 0x0] (fresh (params .par4))))
      (fun t => t.results == [.okStatus true 0x10]) = true := by decide

/-- V2 and V3: the high byte first. -/
theorem test_readRam :
    after (exec (.readRam 1) (sampling [0xAB, 0xCD] (fresh (params .par8))))
        (fun t => t.results == [.okWord 0xABCD]) = true
      ∧ after (exec (.readRam 1) (sampling [0xA, 0xB, 0xC, 0xD] (fresh (params .par4))))
        (fun t => t.results == [.okWord 0xABCD] && (t.line 1).deadline == 72) = true := by decide

/-- P4, with its settle time of 100: the instants of the waits and the final deadline. -/
theorem test_init : after (runInit 1 (inMode .graphic { params .ser with tInitSettle := 100 }))
    (fun t => portLink t == [0xF8, 0x20, 0x00, 0xF8, 0x20, 0x00, 0xF8, 0x00, 0xC0, 0xF8, 0x00, 0x10,
        0xF8, 0x00, 0x60]
      && t.env.clock == 81872 && (t.line 1).deadline == 81944
      && (t.line 1).chipUnknown == false) = true := by decide

/-- P6 (a): busy, then not busy. -/
theorem test_poll : after (exec (.home 1) (sampling [0x80, 0x00]
      (inMode .extended { params .par8 with busyPoll := true })))
    (fun t => t.env.clock == 216 && (t.line 1).deadline == 288 && t.env.samples == []) = true := by
  decide

/-- P6 (b): the chip answers busy for ever; 15 reads, then the selects at 1080 and 1152. -/
theorem test_poll_ceiling :
    let s := sampling (List.replicate 20 0x80) (inMode .extended { params .par8 with busyPoll := true })
    after (exec (.home 1) { s with env := { s.env with ticks := List.replicate 200 0 } })
      (fun t => t.env.samples.length == 5 && t.env.clock == 1152
        && (t.line 1).deadline == 1224 && t.results == [.okUnit]) = true := by decide +kernel

/-- A read that books nothing and takes no time: the poll reads on until the given times are used up
and the clock advances, then gives up at the ceiling or, here, at the first answer not busy. -/
theorem test_poll_without_booking :
    let s := sampling (List.replicate 3 0x80 ++ [0x00])
      (inMode .extended { params .par8 with busyPoll := true, tRead := 0 })
    after (exec (.home 1) { s with env := { s.env with ticks := List.replicate 70 0 } })
      (fun t => t.env.samples == [] && t.env.clock == 72 && t.results == [.okUnit]) = true := by decide

/-- With the wires inputs after a failed read, a write drives nothing: `DATA` keeps its value
(10_state.md R25). -/
theorem test_write_while_inputs :
    after (exec (.clear 1) { fresh (params .par8) with dir := .into, data := 0x55 })
      (fun t => t.data == 0x55 && t.dir == .into && t.results == [.okUnit]) = true := by decide

/-- 70_reset_and_hazards.md R313: with the enable line handed over high the first byte is lost, and
one pulse later the chip takes what is written. -/
theorem test_first_pulse_lost (edge : Edge) :
    let s := setPin (.e 1) true (fresh (params .par8))
    chipBytes edge 1 s (writePulse 1 0x01 ++ writePulse 1 0x02) = [(false, 0x02)] := by
  cases edge <;> decide

/-- P5: the second select fails at its falling edge. -/
theorem test_fail_in_prelude : after (exec (.selectGraphic 1) (failing
      (List.replicate 9 none ++ [some 7]) (fresh (params .par8))))
    (fun t => t.results == [.err (.pinError 7)] && (t.line 1).mode == .extended
      && (t.line 1).deadline == 72 && (t.line 1).e && t.data == 0x26 && t.env.clock == 72) = true := by
  decide

/-! ### The hypotheses of the statements can be met -/

theorem ready_fresh (p : Params) (m : Mode) : Ready 1 (inMode m p) :=
  ⟨by simp [inMode, fresh, State.construct, State.numLines, setMode, modLine],
    by simp [inMode, fresh, State.construct, setMode, modLine], rfl⟩

theorem ready_sampling (p : Params) (m : Mode) (v : List Byte) : Ready 1 (sampling v (inMode m p)) :=
  ready_fresh p m

theorem witness_EncodeOfDecode : decode (extByte 0x45#8) = .ok (.scrollOffset 1 5#5) := by decide

theorem witness_StepRunsDecodedInstr :
    ({ fresh (params .ser) with pending := [.command (basicByte 0x01#8)] } : State).pending
        = .command (basicByte 0x01#8) :: [] ∧ decode (basicByte 0x01#8) = .ok (.clear 1) := by decide

theorem witness_StepRunsOtherRequests :
    (fresh (params .ser)).pending = []
      ∧ decode (basicByte 0x00#8) = .error (.reservedByte .basic 0x00#8)
      ∧ ({ fresh (params .ser) with pending := [.command (basicByte 0x00#8)] } : State).pending
        = [.command (basicByte 0x00#8)]
      ∧ ({ fresh (params .ser) with pending := [.waitReady 1] } : State).pending = [.waitReady 1]
      ∧ ({ fresh (params .ser) with pending := [.init 1] } : State).pending = [.init 1]
      ∧ ({ fresh (params .ser) with pending := [.num] } : State).pending = [.num]
      ∧ ({ fresh (params .ser) with pending := [.get 2] } : State).pending = [.get 2] := by decide

theorem witness_TableWordRuns : decodeTableWord 8 0x0F = some (.displayOnOff 0 true true true) := by
  decide

/-- Reset, one table word, one step: the word's instruction is the first to run. -/
theorem witness_first_instruction_after_reset :
    step (State.reset.withFetchWord 8 0x01) = exec (.clear 0) State.reset := rfl

theorem witness_ConstructionState : (1 : Nat) < 2 := by decide

theorem witness_ExecutionTimes : Command.standBy ≠ .clear := by decide

theorem witness_BasicCommandsComplete :
    Ready 1 (inMode .graphic (params .par4)) ∧ (inMode .graphic (params .par4)).cfg.busyPoll = false :=
  ⟨ready_fresh _ _, rfl⟩

theorem witness_CursorDisplayCtrlCompletes :
    Ready 1 (inMode .extended (params .ser)) ∧ (inMode .extended (params .ser)).cfg.busyPoll = false
      ∧ (inMode .extended (params .ser)).cfg.cursorCtrl = .default := ⟨ready_fresh _ _, rfl, rfl⟩

theorem witness_WriteCompletes_basicSet :
    Ready 1 (inMode .graphic (params .par8)) ∧ (inMode .graphic (params .par8)).cfg.busyPoll = false
      ∧ (inMode .graphic (params .par8)).cfg.writePolicy = .basicSet := ⟨ready_fresh _ _, rfl, rfl⟩

theorem witness_WriteCompletes_neutral :
    Ready 1 (inMode .graphic { params .par8 with writePolicy := .neutral })
      ∧ (inMode .graphic { params .par8 with writePolicy := .neutral }).cfg.busyPoll = false
      ∧ (inMode .graphic { params .par8 with writePolicy := .neutral }).cfg.writePolicy = .neutral :=
  ⟨ready_fresh _ _, rfl, rfl⟩

theorem witness_ExtendedCommandsComplete :
    Ready 1 (inMode .basic { params .par8 with busyPoll := true }) := ready_fresh _ _

theorem witness_SelectBasicCompletes :
    Ready 1 (inMode .graphic (params .ser)) ∧ (inMode .graphic (params .ser)).cfg.busyPoll = false :=
  ⟨ready_fresh _ _, rfl⟩

theorem witness_SelectExtendedCompletes : Ready 1 (inMode .graphic (params .ser)) := ready_fresh _ _

theorem witness_SelectGraphicCompletes : Ready 1 (inMode .basic (params .ser)) := ready_fresh _ _

theorem witness_EveryCommandReturnsOk :
    Ready 1 (inMode .extended { params .par8 with busyPoll := true, tRead := 0 }) := ready_fresh _ _

theorem witness_ReadStatusCompletes_par8 :
    Ready 1 (sampling [0xFF] (inMode .basic (params .par8)))
      ∧ (sampling [0xFF] (inMode .basic (params .par8))).cfg.bus = .par8
      ∧ (sampling [0xFF] (inMode .basic (params .par8))).env.samples = 0xFF#8 :: [] :=
  ⟨ready_sampling _ _ _, rfl, rfl⟩

theorem witness_ReadStatusCompletes_par4 :
    Ready 1 (sampling [0x9, 0x0] (inMode .graphic (params .par4)))
      ∧ (sampling [0x9, 0x0] (inMode .graphic (params .par4))).cfg.bus = .par4
      ∧ (sampling [0x9, 0x0] (inMode .graphic (params .par4))).env.samples
        = (0x9#4).setWidth 8 :: (0x0#4).setWidth 8 :: [] := ⟨ready_sampling _ _ _, rfl, by decide⟩

theorem witness_ReadRamCompletes_par8 :
    Ready 1 (sampling [0xAB, 0xCD, 0x01] (inMode .basic (params .par8)))
      ∧ (sampling [0xAB, 0xCD, 0x01] (inMode .basic (params .par8))).cfg.bus = .par8
      ∧ (sampling [0xAB, 0xCD, 0x01] (inMode .basic (params .par8))).env.samples
        = 0xAB#8 :: 0xCD#8 :: [0x01#8] := ⟨ready_sampling _ _ _, rfl, rfl⟩

theorem witness_ReadRamCompletes_par4 :
    Ready 1 (sampling [0xA, 0xB, 0xC, 0xF] (inMode .basic (params .par4)))
      ∧ (sampling [0xA, 0xB, 0xC, 0xF] (inMode .basic (params .par4))).cfg.bus = .par4
      ∧ (sampling [0xA, 0xB, 0xC, 0xF] (inMode .basic (params .par4))).env.samples
        = [0xA#4, 0xB#4, 0xC#4, 0xF#4].map (BitVec.setWidth 8) ++ [] :=
  ⟨ready_sampling _ _ _, rfl, by decide⟩

theorem witness_ReadsCompleteOnAnySample :
    Ready 1 (inMode .graphic (params .par4)) ∧ (inMode .graphic (params .par4)).cfg.bus.isParallel = true :=
  ⟨ready_fresh _ _, rfl⟩

theorem witness_ReadsAbsentOnSerial : (fresh (params .ser)).cfg.bus = .ser := rfl

theorem witness_NoSuchLineNotPerformed :
    (fresh (params .par4)).numLines ≤ (Instr.readRam 2).line
      ∧ ((Instr.readRam 2).isRead = true → (fresh (params .par4)).cfg.bus.isParallel = true) := by
  decide

theorem witness_NumReturnsLineCount :
    ({ fresh (params .ser) with pending := [.num, .get 0] } : State).pending = .num :: [.get 0] := rfl

/-- The boundary: `get 1` and `get 2` with two lines. -/
theorem witness_GetReturnsHandle :
    ({ fresh (params .ser) with pending := [.get 1] } : State).pending = .get 1 :: []
      ∧ 1 < ({ fresh (params .ser) with pending := [.get 1] } : State).numLines
      ∧ ({ fresh (params .ser) with pending := [.get 2] } : State).pending = .get 2 :: []
      ∧ ({ fresh (params .ser) with pending := [.get 2] } : State).numLines ≤ 2 := by decide

/-- A line with a deadline to wait for. -/
def waiting (p : Params) : State := setDeadline 1 1600 (fresh p)

theorem ready_waiting (p : Params) : Ready 1 (waiting p) :=
  ⟨by simp [waiting, fresh, State.construct, State.numLines, setDeadline, modLine],
    by simp [waiting, fresh, State.construct, setDeadline, modLine], rfl⟩

theorem witness_WaitReadyWaitsOnly : Ready 1 (waiting (params .par8)) := ready_waiting _

theorem witness_SecondWaitNeverBlocks : 1 < (waiting (params .par8)).numLines
    ∧ ∃ t, runWaitReady 1 (waiting (params .par8)) = .next t ∧ (t.env.clock == 1600) = true :=
  ⟨by decide, after_next (p := fun t => t.env.clock == 1600) (by decide)⟩

theorem witness_InitCompletes : Ready 1 (inMode .graphic (params .ser)) := ready_fresh _ _

/-- `init` failing in its fourth command at the last edge, and in its first at the first. -/
theorem witness_InitCompletes_fails :
    let s := fresh (params .ser)
    let whole := initEvents .ser 1 (initSteps.take 3)
    1 < s.numLines ∧ s.env.stopAt = none
      ∧ initSteps[3]? = some ([], (false, [0x01#8]))
      ∧ 4 < (fallible (emitEvents .ser 1 (false, [0x01#8]))).length
      ∧ initSteps[0]? = some ([.wait 0], (false, [0x20#8]))
      ∧ (failing (List.replicate ((fallible whole).length + 4) none ++ some 7 :: []) s).env.verdicts
        = List.replicate ((fallible whole).length + 4) none ++ some 7 :: []
      ∧ (failing (List.replicate ((fallible (initEvents .ser 1 (initSteps.take 0))).length + 0) none
          ++ some 7 :: []) s).env.verdicts = [some 7] := by decide

theorem witness_ModeAfterOk : ∃ t,
    exec (instrOf 1 .home) (inMode .graphic (params .par8)) = .next t
      ∧ (t.results == (inMode .graphic (params .par8)).results ++ [.okUnit]) = true :=
  after_next (p := fun t => t.results == (inMode .graphic (params .par8)).results ++ [.okUnit])
    (by decide)

/-- With a poll before it. -/
theorem witness_DeadlineAfterOk : ∃ t,
    exec (instrOf 1 .clear)
        (sampling [0x80, 0x00] (inMode .extended { params .par8 with busyPoll := true })) = .next t
      ∧ (t.results == [.okUnit]) = true :=
  after_next (p := fun t => t.results == [.okUnit]) (by decide)

/-- After `Ok` with a poll, and after a failure in the second select. -/
theorem witness_ModeNamesLastSelectSent :
    (∃ t, exec (instrOf 1 .clear)
        (sampling [0x0, 0x0] (inMode .graphic { params .par4 with busyPoll := true })) = .next t
      ∧ (t.results == [.okUnit]) = true)
    ∧ ∃ t, exec (instrOf 1 .selectGraphic)
        (failing (List.replicate 9 none ++ [some 7]) (fresh (params .par8))) = .next t
      ∧ ((t.line 1).mode == .extended && t.results == [.err (.pinError 7)]) = true :=
  ⟨after_next (p := fun t => t.results == [.okUnit]) (by decide),
    after_next (p := fun t => (t.line 1).mode == .extended && t.results == [.err (.pinError 7)])
      (by decide)⟩

/-- Line 1 with its chip known. -/
def known (s : State) : State := setChipUnknown 1 false s

/-- With polling. -/
theorem witness_ChipUnderstandsWhatWasIssued :
    ChipListens 1 (known (sampling [0x00] (inMode .extended { params .par8 with busyPoll := true })))
      ∧ (params .par8).cursorCtrl = .default
      ∧ ∃ t, exec (instrOf 1 (.write 0x2001#16))
          (known (sampling [0x00] (inMode .extended { params .par8 with busyPoll := true }))) = .next t
        ∧ (t.results == [.okUnit]) = true :=
  ⟨⟨rfl, rfl, fun _ => rfl⟩, rfl, after_next (p := fun t => t.results == [.okUnit]) (by decide)⟩

/-- After `Ok` with a chip that listens, and after a failure in the second select. -/
theorem witness_OneModeBitPerSelect :
    (ChipListens 1 (known (inMode .graphic (params .ser))) ∧ (params .ser).cursorCtrl = .default
      ∧ ∃ t, exec (instrOf 1 .clear) (known (inMode .graphic (params .ser))) = .next t
        ∧ (t.results == [.okUnit]) = true)
    ∧ ∃ t, exec (instrOf 1 .clear)
        (failing (List.replicate 7 none ++ [some 7]) (inMode .graphic (params .par8))) = .next t
      ∧ (t.results == [.err (.pinError 7)]) = true :=
  ⟨⟨⟨rfl, rfl, fun _ => rfl⟩, rfl, after_next (p := fun t => t.results == [.okUnit]) (by decide)⟩,
    after_next (p := fun t => t.results == [.err (.pinError 7)]) (by decide)⟩

/-- What the clauses share, on 8 and on 4 wires. -/
def polling (b : Bus) (m : Mode) (vs : List Byte) : State :=
  sampling vs (inMode m { params b with busyPoll := true })

theorem witness_PollOnceWhenNotBusy_par8 :
    Ready 1 (polling .par8 .graphic [0x7F, 0x01])
      ∧ (polling .par8 .graphic [0x7F, 0x01]).cfg.bus.isParallel = true
      ∧ (polling .par8 .graphic [0x7F, 0x01]).cfg.busyPoll = true
      ∧ (polling .par8 .graphic [0x7F, 0x01]).env.samples = [0x7F#8] ++ [0x01#8]
      ∧ [0x7F#8].length = 8 / (polling .par8 .graphic [0x7F, 0x01]).cfg.width
      ∧ (∀ v ∈ [0x7F#8], onWires (polling .par8 .graphic [0x7F, 0x01]).cfg v = v)
      ∧ busyRead (polling .par8 .graphic [0x7F, 0x01]).cfg.bus [0x7F#8] = false
      ∧ needsBasic (polling .par8 .graphic [0x7F, 0x01]).cfg.writePolicy (.write 0#16) = true
      ∧ ((polling .par8 .graphic [0x7F, 0x01]).line 1).mode ≠ .basic :=
  ⟨ready_sampling _ _ _, rfl, rfl, rfl, by decide, by decide, by decide, by decide, by decide⟩

theorem witness_PollOnceWhenNotBusy_par4 :
    Ready 1 (polling .par4 .basic [0x7, 0xF])
      ∧ (polling .par4 .basic [0x7, 0xF]).cfg.bus.isParallel = true
      ∧ (polling .par4 .basic [0x7, 0xF]).cfg.busyPoll = true
      ∧ (polling .par4 .basic [0x7, 0xF]).env.samples = [0x7#8, 0xF#8] ++ []
      ∧ [0x7#8, 0xF#8].length = 8 / (polling .par4 .basic [0x7, 0xF]).cfg.width
      ∧ (∀ v ∈ [0x7#8, 0xF#8], onWires (polling .par4 .basic [0x7, 0xF]).cfg v = v)
      ∧ busyRead (polling .par4 .basic [0x7, 0xF]).cfg.bus [0x7#8, 0xF#8] = false
      ∧ needsBasic (polling .par4 .basic [0x7, 0xF]).cfg.writePolicy .clear = true
      ∧ ((polling .par4 .basic [0x7, 0xF]).line 1).mode = .basic :=
  ⟨ready_sampling _ _ _, rfl, rfl, rfl, by decide, by decide, by decide, by decide, by decide⟩

/-- An operation that is done. -/
theorem done_of {α : Type} {r : OpResult α}
    (h : (match r with | .done _ _ => true | .raised _ _ => false | .hung _ => false) = true) :
    ∃ a t, r = .done a t := by
  cases r with
  | done a t => exact ⟨a, t, rfl⟩
  | raised e t => cases h
  | hung f => cases h

/-- One busy answer, then one that is not. -/
theorem witness_PollEndsWhenReadyOrAtCeiling :
    1 < (polling .par8 .extended [0x80, 0x00]).numLines
      ∧ (polling .par8 .extended [0x80, 0x00]).cfg.bus.isParallel = true
      ∧ (polling .par8 .extended [0x80, 0x00]).cfg.busyPoll = true
      ∧ ∃ a t, pollBusy 1 (polling .par8 .extended [0x80, 0x00]) = .done a t :=
  ⟨by decide, rfl, rfl, done_of (by decide)⟩

theorem witness_RunningClockNeverHangs : (polling .par8 .extended []).env.stopAt = none := rfl

/-- The state at which an operation ends. -/
def endOf {α : Type} : OpResult α → Option State
  | .done _ t => some t
  | .raised _ t => some t
  | .hung _ => none

theorem endsIn_of {α : Type} {r : OpResult α} (h : (endOf r).isSome = true) : ∃ t, r.EndsIn t := by
  cases r with
  | done a t => exact ⟨t, rfl⟩
  | raised e t => exact ⟨t, rfl⟩
  | hung f => cases h

/-- A write that fails, a status read, a RAM read. -/
theorem witness_AccessWaitsForDeadline :
    (∃ t, (emit 1 .clear (failing [none, some 3] (waiting (params .par4)))).EndsIn t)
      ∧ (∃ t, (schedRead 1 .status readU8 (waiting (params .par8))).EndsIn t)
      ∧ ∃ t, (schedRead 1 .dataRd readU16 (waiting (params .par4))).EndsIn t :=
  ⟨endsIn_of (by decide), endsIn_of (by decide), endsIn_of (by decide)⟩

theorem witness_BookingFollowsTheAccess :
    1 < (waiting (params .par4)).numLines
      ∧ (∀ e ∈ (waiting (params .par4)).trace, e.instant ≤ (waiting (params .par4)).env.clock)
      ∧ (∃ a t, emit 1 .clear (waiting (params .par4)) = .done a t)
      ∧ (∃ b t, schedRead 1 .status readU8 (waiting (params .par4)) = .done b t)
      ∧ ∃ v t, schedRead 1 .dataRd readU16 (waiting (params .par4)) = .done v t :=
  ⟨by decide, by decide, done_of (by decide), done_of (by decide), done_of (by decide)⟩

/-- The longest transfer. -/
theorem witness_TransferTakesOnlyTheWait :
    1 < (waiting (params .par4)).numLines ∧ (waiting (params .par4)).cfg.tPw = 0
      ∧ (waiting (params .par4)).env.stopAt = none ∧ 24 ≤ (waiting (params .par4)).env.ticks.length
      ∧ (∀ d ∈ (waiting (params .par4)).env.ticks, d = 0)
      ∧ ∃ a t, emit 1 (.write 0xFFFF#16) (waiting (params .par4)) = .done a t :=
  ⟨by decide, rfl, rfl, by decide, by decide, done_of (by decide)⟩

theorem witness_SerialEmitIsTransaction : (waiting (params .ser)).cfg.bus = .ser := rfl

theorem witness_LinesDoNotInterfere : (Instr.clear 1).line ≠ 0 := by decide

/-- An instruction that is done, and an `init` that fails. -/
theorem witness_OtherChipsTakeNothing :
    ((known (fresh (params .par4))).line 1).chipUnknown = false
      ∧ (∃ t, RunsOn 0 (known (fresh (params .par4))) t)
      ∧ ∃ t, RunsOn 0 (failing [none, some 7] (known (fresh (params .ser)))) t
        ∧ (t.results == [.err (.linkError 7)]) = true := by
  refine ⟨rfl, ?_, ?_⟩
  · obtain ⟨t, h, -⟩ := after_next (o := exec (.write 0 0xFFFF#16) (known (fresh (params .par4))))
      (p := fun _ => true) (by decide)
    exact ⟨t, .inl ⟨_, rfl, h⟩⟩
  · obtain ⟨t, h, hr⟩ := after_next
      (o := runInit 0 (failing [none, some 7] (known (fresh (params .ser)))))
      (p := fun t => t.results == [.err (.linkError 7)]) (by decide)
    exact ⟨t, .inr (.inr h), hr⟩

/-- On each kind of transport, a failure on the second. -/
theorem witness_InstructionFrame :
    (fresh (params .par4)).cfg.bus.isParallel = true
      ∧ (∃ t, exec (.write 1 0xFFFF#16) (fresh (params .par4)) = .next t ∧ true = true)
      ∧ (failing [none, some 7] (fresh (params .ser))).cfg.bus = .ser
      ∧ ∃ t, exec (.standBy 1) (failing [none, some 7] (fresh (params .ser))) = .next t
        ∧ (t.results == [.err (.linkError 7)]) = true :=
  ⟨rfl, after_next (p := fun _ => true) (by decide), rfl,
    after_next (p := fun t => t.results == [.err (.linkError 7)]) (by decide)⟩

/-- The four conditions that the five clauses share, and the verdicts of each clause. -/
theorem witness_HomeFailsInPlace (v : List (Option Nat)) :
    1 < (failing v (waiting (params .par8))).numLines
      ∧ (failing v (waiting (params .par8))).env.stopAt = none
      ∧ (failing v (waiting (params .par8))).cfg.bus = .par8
      ∧ ((failing v (waiting (params .par8))).line 1).mode = .basic
      ∧ (failing v (waiting (params .par8))).env.verdicts = v :=
  ⟨Nat.lt_succ_self 1, rfl, rfl, rfl, rfl⟩

theorem witness_HomeFailsInPlace_each :
    (failing [some 7] (waiting (params .par8))).env.verdicts = some 7 :: []
      ∧ (failing [none, some 7] (waiting (params .par8))).env.verdicts = none :: some 7 :: []
      ∧ (failing [none, none, some 7] (waiting (params .par8))).env.verdicts
        = none :: none :: some 7 :: []
      ∧ (failing [none, none, none, some 7] (waiting (params .par8))).env.verdicts
        = none :: none :: none :: some 7 :: []
      ∧ (failing [none, none, none, none, some 7] (waiting (params .par8))).env.verdicts
        = none :: none :: none :: none :: some 7 :: [] := ⟨rfl, rfl, rfl, rfl, rfl⟩

/-- The conditions of the statement for the `k`-th command of those that go out. -/
def failsAt (c c' : Command) (k n : Nat) (s : State) : Bool :=
  let cs := insertedSelects s.cfg.writePolicy c (s.line 1).mode ++ [c]
  decide (1 < s.numLines ∧ s.env.stopAt = none ∧ cs[k]? = some c'
    ∧ n < (fallible (emitEvents s.cfg.bus 1 (accessOf s.cfg c'))).length
    ∧ s.env.verdicts = List.replicate
        ((fallible ((cs.take k).flatMap fun c => emitEvents s.cfg.bus 1 (accessOf s.cfg c))).length + n)
        none ++ some 7 :: [])

/-- V10: the second link byte of `Clear`; and the falling edge after the second select before it. -/
theorem witness_CommandFailsInPlace_ser :
    failsAt .clear .clear 0 2 (failing [none, none, some 7] (waiting (params .ser))) = true
      ∧ failsAt .clear .selectBasic 1 4
        (failing (List.replicate 9 none ++ [some 7]) (inMode .graphic (params .ser))) = true := by
  decide

/-- The selection of a register, and the last edge of a pulse on 4 wires with polling on. -/
theorem witness_CommandFailsInPlace_par :
    failsAt .home .home 0 0 (failing [some 7] (waiting (params .par8))) = true
      ∧ failsAt .standBy .standBy 1 7
        (failing (List.replicate 15 none ++ [some 7]) (inMode .basic { params .par4 with busyPoll := true }))
        = true
      ∧ Command.selectBasic ∉ insertedSelects .basicSet .standBy .basic ++ [.standBy] := by decide

/-- What V10 says of the first of them: the sync byte is out and the chip-select high. -/
theorem test_clear_link_failure :
    after (exec (.clear 1) (failing [none, none, some 7] (waiting (params .ser))))
      (fun t => t.shape == [.wait 0, .cs 1 true, .link 0xF8] && t.results == [.err (.linkError 7)]
        && (t.line 1).cs && (t.line 1).deadline == 1600) = true := by decide

/-- A read's sample, its last turn of the wires, and the boundary values of `n`. -/
theorem witness_ReadFailsInPlace :
    let s := fun b v => failing v (waiting (params b))
    (1 < (s .par8 (List.replicate 4 none ++ some 7 :: [])).numLines
        ∧ (s .par8 (List.replicate 4 none ++ some 7 :: [])).env.stopAt = none
        ∧ (s .par8 (List.replicate 4 none ++ some 7 :: [])).cfg.bus.isParallel = true
        ∧ 4 < 4 + 3 * (8 / (s .par8 []).cfg.width) ∧ 6 < 4 + 3 * (8 / (s .par8 []).cfg.width))
      ∧ (1 < (s .par4 (List.replicate 15 none ++ some 7 :: [])).numLines
        ∧ (s .par4 (List.replicate 15 none ++ some 7 :: [])).env.stopAt = none
        ∧ (s .par4 (List.replicate 15 none ++ some 7 :: [])).cfg.bus.isParallel = true
        ∧ 0 < 4 + 3 * (16 / (s .par4 []).cfg.width) ∧ 15 < 4 + 3 * (16 / (s .par4 []).cfg.width)) := by
  decide

/-- A sample that fails leaves the enable line high and the wires inputs (60_exceptions.md R285). -/
theorem test_sample_failure :
    after (exec (.readStatus 1) (failing (List.replicate 4 none ++ [some 7]) (waiting (params .par8))))
      (fun t => t.results == [.err (.pinError 7)] && (t.line 1).e && t.dir == .into) = true := by decide

theorem witness_FailedTransferBooksNothing :
    (∃ t, emit 1 .clear (failing [none, some 7] (waiting (params .par8))) = .raised (.pinError 7) t)
      ∧ (∃ t, schedRead 1 .status readU8 (failing [some 7] (waiting (params .par4)))
        = .raised (.pinError 7) t)
      ∧ ∃ t, schedRead 1 .dataRd readU16 (failing [none, some 7] (waiting (params .par8)))
        = .raised (.pinError 7) t := ⟨⟨_, rfl⟩, ⟨_, rfl⟩, _, rfl⟩

theorem witness_LinkErrorOnlyOnSerial :
    ∃ t, RunsOn 1 (failing [none, some 7] (waiting (params .ser))) t
      ∧ (t.results == (waiting (params .ser)).results ++ [.err (.linkError 7)]) = true := by
  obtain ⟨t, h, hr⟩ := after_next
    (o := exec (.clear 1) (failing [none, some 7] (waiting (params .ser))))
    (p := fun t => t.results == (waiting (params .ser)).results ++ [.err (.linkError 7)]) (by decide)
  exact ⟨t, .inl ⟨_, rfl, h⟩, hr⟩

theorem witness_ErrMarksChipUnknown :
    (Instr.readRam 1).line < (failing [some 7] (fresh (params .par8))).numLines
      ∧ (∃ t, exec (.readRam 1) (failing [some 7] (fresh (params .par8))) = .next t
        ∧ (t.results == [.err (.pinError 7)]) = true)
      ∧ (∃ t, runInit 1 (failing [some 7] (fresh (params .par8))) = .next t
        ∧ (t.results == [.err (.pinError 7)]) = true)
      ∧ ∃ t, runInit 1 (fresh (params .ser)) = .next t ∧ (t.results == [.okUnit]) = true :=
  ⟨by decide, after_next (p := fun t => t.results == [.err (.pinError 7)]) (by decide),
    after_next (p := fun t => t.results == [.err (.pinError 7)]) (by decide),
    after_next (p := fun t => t.results == [.okUnit]) (by decide)⟩

/-- A clock that stops one microsecond before the deadline. -/
def stopping (p : Params) : State :=
  let s := waiting p
  { s with env := { s.env with stopAt := some 1599 } }

theorem witness_StoppedClockHangs :
    1 < (stopping (params .par8)).numLines ∧ (stopping (params .par8)).env.stopAt = some 1599
      ∧ (stopping (params .par8)).env.clock ≤ 1599
      ∧ 1599 < ((stopping (params .par8)).line 1).deadline := by decide

/-- A state with an operation pending. -/
def busy : State := { waiting (params .par8) with pending := [issue (.write 1 0x4141#16), .num] }

theorem witness_StepKeepsOrderly :
    Orderly busy ∧ ∃ t, step busy = .next t ∧ true = true :=
  ⟨⟨by simp [busy, waiting, fresh, State.construct, setDeadline, modLine], by decide, by decide,
    by decide⟩, after_next (p := fun _ => true) (by decide)⟩

theorem witness_StepKeepsQuiescent :
    (∀ r ∈ busy.results, r.isErr = false) ∧ Quiescent busy
      ∧ ∃ t, step busy = .next t ∧ (t.results == [.okUnit]) = true :=
  ⟨by decide, ⟨rfl, by decide⟩, after_next (p := fun t => t.results == [.okUnit]) (by decide)⟩

theorem witness_StepKeepsKnownLinesLow :
    KnownLinesLow (known busy) ∧ ((known busy).line 1).chipUnknown = false
      ∧ ∃ t, step (known busy) = .next t ∧ (t.results == [.okUnit]) = true :=
  ⟨by unfold KnownLinesLow; decide, rfl,
    after_next (p := fun t => t.results == [.okUnit]) (by decide)⟩

theorem witness_StepOnlyAdds : ∃ t, step busy = .next t ∧ true = true :=
  after_next (p := fun _ => true) (by decide)

end Sys2Proof.Tests
end

section
/-!
SUPPORT. What an answered step is made of: primitive updates on one line, then one result
(`AnswersOnce`, `step_next_cases`). A relation that is `Closed` for each line therefore holds over a
step, up to the operation taken and the result handed out.
-/

namespace Sys2Proof.Machine

/-- A host operation run from `s` ends, if it ends in a next state, by handing one result to the host
in a state related to `s`. -/
def AnswersOnce (R : State → State → Prop) (s : State) (o : Host.Outcome State Fault Refusal) : Prop :=
  ∀ t, o = .next t → ∃ v u, R s u ∧ t = answer v u

variable {i : Nat} {R : State → State → Prop}

theorem answersOnce_answer {s u : State} (h : R s u) (v : HostResult) :
    AnswersOnce R s (.next (answer v u)) := by
  rintro t ⟨⟩
  exact ⟨v, u, h, rfl⟩

theorem answersOnce_complete (h : Closed i R) {s : State} {r : OpResult HostResult}
    (hr : r.Ends (R s)) : AnswersOnce R s (complete i r) := by
  cases r with
  | done v u => exact answersOnce_answer hr v
  | raised e u => exact answersOnce_answer (h.trans _ _ _ hr (h.setChipUnknown u true)) (.err e)
  | hung f => rintro t ⟨⟩

theorem answersOnce_onLine (h : Closed i R) {op : State → OpResult HostResult}
    (hop : ∀ s, (op s).Ends (R s)) (s : State) : AnswersOnce R s (onLine i op s) := by
  unfold onLine
  split
  · exact answersOnce_complete h (hop s)
  · exact answersOnce_answer (h.refl s) .noHandle

theorem answersOnce_execute (h : Closed i R) (c : Command) (s : State) :
    AnswersOnce R s (execute i c s) :=
  answersOnce_onLine h (fun s => ends_returnUnit h (ends_execCommand h c s)) s

theorem answersOnce_readOperation (h : Closed i R) {op : State → OpResult HostResult}
    (hop : ∀ s, (op s).Ends (R s)) (s : State) : AnswersOnce R s (readOperation i op s) := by
  unfold readOperation
  split
  · exact answersOnce_onLine h hop s
  · rintro t ⟨⟩

/-- An instruction is `execute` with its command, or a read. -/
theorem answersOnce_exec (c : Instr) (h : Closed c.line R) (s : State) :
    AnswersOnce R s (exec c s) := by
  cases c with
  | readStatus i => exact answersOnce_readOperation h (ends_statusBody h) s
  | readRam i => exact answersOnce_readOperation h (ends_ramBody h) s
  | _ => exact answersOnce_execute h _ s

theorem answersOnce_runWaitReady (h : Closed i R) (s : State) :
    AnswersOnce R s (runWaitReady i s) :=
  answersOnce_onLine h (fun s => ends_returnUnit h (ends_awaitDeadline h s)) s

theorem answersOnce_runInit (h : Closed i R) (s : State) : AnswersOnce R s (runInit i s) := by
  refine answersOnce_onLine h (fun s => ends_returnUnit h ?_) s
  exact ends_andThen h (ends_initBody h s) fun _ s => h.setChipUnknown s false

/-- The operations that are no row of the opcode table, on the line they name if they name one. -/
theorem answersOnce_runFacade {R : Nat → State → State → Prop} (h : ∀ i, Closed i (R i))
    {op : HostOp} (hop : ∀ w, op ≠ .command w) (s : State) :
    ∃ i, AnswersOnce (R i) s (runFacade op s) := by
  cases op with
  | command w => exact absurd rfl (hop w)
  | waitReady i => exact ⟨i, answersOnce_runWaitReady (h i) s⟩
  | init i => exact ⟨i, answersOnce_runInit (h i) s⟩
  | num => exact ⟨0, answersOnce_answer ((h 0).refl s) _⟩
  | get index => exact ⟨0, answersOnce_answer ((h 0).refl s) _⟩

/-! ### What `fetch` takes -/

theorem pending_of_fetch_idle {s : State} (h : fetch s = .idle) : s.pending = [] := by
  unfold fetch at h
  split at h
  · assumption
  · split at h <;> cases h
  · cases h

theorem pending_of_fetch_instr {s s' : State} {c : Instr} (h : fetch s = .instr c s') :
    ∃ w rest, s.pending = .command w :: rest ∧ decode w = .ok c
      ∧ s' = { s with pending := rest } := by
  unfold fetch at h
  split at h
  · cases h
  next w rest hp =>
    split at h
    next hd =>
      cases h
      exact ⟨w, rest, hp, hd, rfl⟩
    · cases h
  · cases h

theorem pending_of_fetch_facade {s s' : State} {op : HostOp} (h : fetch s = .facade op s') :
    ∃ rest, s.pending = op :: rest ∧ (∀ w, op ≠ .command w) ∧ s' = { s with pending := rest } := by
  unfold fetch at h
  split at h
  · cases h
  · split at h <;> cases h
  next rest hop hp =>
    cases h
    exact ⟨rest, hp, hop, rfl⟩

/-- A step that answers a next state: with nothing pending the state stays, and otherwise one
operation is taken, updates on one line follow, and one result is handed out. -/
theorem step_next_cases {R : Nat → State → State → Prop} (h : ∀ i, Closed i (R i)) {s t : State}
    (hs : step s = .next t) :
    (s.pending = [] ∧ t = s) ∨ ∃ op rest i v u, s.pending = op :: rest
      ∧ R i { s with pending := rest } u ∧ t = answer v u := by
  unfold step at hs
  split at hs
  next hf =>
    cases hs
    exact .inl ⟨pending_of_fetch_idle hf, rfl⟩
  next c s' hf =>
    obtain ⟨w, rest, hp, -, rfl⟩ := pending_of_fetch_instr hf
    obtain ⟨v, u, hu, rfl⟩ := answersOnce_exec c (h c.line) _ t hs
    exact .inr ⟨.command w, rest, c.line, v, u, hp, hu, rfl⟩
  · cases hs
  next op s' hf =>
    obtain ⟨rest, hp, hop, rfl⟩ := pending_of_fetch_facade hf
    obtain ⟨i, hi⟩ := answersOnce_runFacade h hop { s with pending := rest }
    obtain ⟨v, u, hu, rfl⟩ := hi t hs
    exact .inr ⟨op, rest, i, v, u, hp, hu, rfl⟩

end Sys2Proof.Machine
end

section
/-!
SUPPORT. The relation that an operation on a line keeps before it hands out its result: everything
off the line is left alone, time does not go back (`KeepsRest`), and the trace only grows.
-/

namespace Sys2Proof.Machine

/-- From `s` to `t`, on line `i`: nothing outside the line and the shared pins changed, the trace
only grew, and no result was handed out. -/
structure OnlyAdds (i : Nat) (s t : State) : Prop where
  rest : KeepsRest i s t
  trace : s.trace <+: t.trace
  results : t.results = s.results

variable {i : Nat} {s t u : State}

theorem OnlyAdds.refl (i : Nat) (s : State) : OnlyAdds i s s :=
  ⟨.refl i s, List.prefix_rfl, rfl⟩

theorem OnlyAdds.trans (h : OnlyAdds i s t) (k : OnlyAdds i t u) : OnlyAdds i s u :=
  ⟨h.rest.trans k.rest, h.trace.trans k.trace, k.results.trans h.results⟩

/-- An update of the registers of line `i` alone. -/
theorem onlyAdds_modLine (i : Nat) (f : LineRegs → LineRegs) (s : State) :
    OnlyAdds i s (modLine i f s) :=
  ⟨⟨rfl, by simp, rfl, fun j hj => getElem_modLine_ne s i j f hj, le_rfl⟩, List.prefix_rfl, rfl⟩

/-- Every primitive update on a line only adds. -/
theorem closed_onlyAdds (i : Nat) : Closed i (OnlyAdds i) where
  refl := .refl i
  trans _ _ _ := .trans
  elapse s := ⟨⟨rfl, rfl, rfl, fun _ _ => rfl, clock_le_envAfter s.env⟩, List.prefix_rfl, rfl⟩
  dropVerdict _ := ⟨⟨rfl, rfl, rfl, fun _ _ => rfl, le_rfl⟩, List.prefix_rfl, rfl⟩
  dropSample _ := ⟨⟨rfl, rfl, rfl, fun _ _ => rfl, by simp⟩, List.prefix_rfl, rfl⟩
  clockTo _ _ := ⟨⟨rfl, rfl, rfl, fun _ _ => rfl, le_max_left _ _⟩, List.prefix_rfl, rfl⟩
  record _ _ _ := ⟨⟨rfl, rfl, rfl, fun _ _ => rfl, le_rfl⟩, List.prefix_append _ _, rfl⟩
  setPin s p v hp := ⟨keepsRest_setPin s p v hp, by simp, by simp⟩
  drive _ _ := ⟨⟨by simp, numLines_congr (by simp), by simp, by simp, by simp⟩, by simp, by simp⟩
  scramble _ := ⟨⟨rfl, rfl, rfl, fun _ _ => rfl, le_rfl⟩, List.prefix_rfl, rfl⟩
  applyDir _ _ := ⟨⟨rfl, rfl, rfl, fun _ _ => rfl, le_rfl⟩, List.prefix_rfl, rfl⟩
  setMode s _ := onlyAdds_modLine i _ s
  setDeadline s _ := onlyAdds_modLine i _ s
  setChipUnknown s _ := onlyAdds_modLine i _ s

end Sys2Proof.Machine
end

section
/-! Obligations of 00_scope.md about the step. -/

namespace Sys2Proof.Machine

/-- Settles O60: an idle step changes nothing; any other takes one operation, which only adds
(`closed_onlyAdds`), and hands out one result. -/
theorem stepOnlyAdds : Obligations.StepOnlyAdds := by
  intro s t hs
  rcases step_next_cases closed_onlyAdds hs with
    ⟨hp, rfl⟩ | ⟨op, rest, i, v, u, hp, ⟨⟨hcfg, hlines, hpending, -, hclock⟩, ⟨new, hnew⟩, hres⟩, rfl⟩
  · exact ⟨rfl, rfl, by simp [hp], ⟨[], by simp⟩, ⟨[], by simp [hp]⟩, le_rfl⟩
  · exact ⟨hcfg, hlines, by simp [hpending, hp], ⟨new, hnew.symm⟩,
      ⟨[v], by simp [hres], by simp [hp]⟩, hclock⟩

end Sys2Proof.Machine
end

section
/-!
SUPPORT. How an operation ends, with the states after a value and after an error kept apart
(`EndsOr`), and one lemma per primitive and access for a property that the primitives keep
(`Steady`): unlike `Closed` it names the pins, so it can say what an access leaves unchanged on its
own line.
-/

namespace Sys2Proof.Machine

/-- If the operation is done its last state has `P`, and if it fails its last state has `Q`. -/
def OpResult.EndsOr {α : Type} (r : OpResult α) (P Q : State → Prop) : Prop :=
  match r with
  | .done _ t => P t
  | .raised _ t => Q t
  | .hung _ => True

/-- If the operation is done its last state has `P`. -/
abbrev OpResult.IfDone {α : Type} (r : OpResult α) (P : State → Prop) : Prop :=
  r.EndsOr P fun _ => True

section Outcomes

variable {α β : Type} {r : OpResult α} {P P' Q Q' : State → Prop}

theorem endsOr_of_ends (h : r.Ends P) : r.EndsOr P P := by
  cases r with
  | done a t => exact h
  | raised e t => exact h
  | hung f => trivial

theorem OpResult.EndsOr.mono (h : r.EndsOr P Q) (hP : ∀ t, P t → P' t) (hQ : ∀ t, Q t → Q' t) :
    r.EndsOr P' Q' := by
  cases r with
  | done a t => exact hP t h
  | raised e t => exact hQ t h
  | hung f => trivial

theorem OpResult.EndsOr.and (h : r.EndsOr P Q) (h' : r.EndsOr P' Q') :
    r.EndsOr (fun t => P t ∧ P' t) fun t => Q t ∧ Q' t := by
  cases r with
  | done a t => exact ⟨h, h'⟩
  | raised e t => exact ⟨h, h'⟩
  | hung f => trivial

theorem OpResult.EndsOr.ifDone (h : r.EndsOr P Q) : r.IfDone P :=
  h.mono (fun _ => id) fun _ _ => trivial

/-- Sequencing: what follows starts where the first operation is done. -/
theorem endsOr_andThen {f : α → State → OpResult β} (hr : r.EndsOr P Q)
    (hf : ∀ a t, P t → (f a t).EndsOr P' Q) : (r.andThen f).EndsOr P' Q := by
  cases r with
  | done a t => exact hf a t hr
  | raised e t => exact hr
  | hung e => trivial

/-- What a sequence leaves when it is done is what its last operation leaves. -/
theorem ifDone_last {f : α → State → OpResult β} (hf : ∀ a t, (f a t).IfDone P) :
    (r.andThen f).IfDone P := by
  cases r with
  | done a t => exact hf a t
  | raised e t => trivial
  | hung e => trivial

end Outcomes

/-- The pins a parallel access on line `i` drives (42_parallel_transport.md R141, R144). -/
def Pin.onParallel (i : Nat) : Pin → Prop
  | .rs | .rw => True
  | .e j => j = i
  | .cs _ => False

/-- The pin a serial access on line `i` drives (43_serial_transport.md R175). -/
def Pin.onSerial (i : Nat) : Pin → Prop
  | .cs j => j = i
  | .rs | .rw | .e _ => False

/-- A property of states that time, the environment, events, drives of the data wires and drives of
the given pins keep. -/
structure Steady (pins : Pin → Prop) (P : State → Prop) : Prop where
  elapse : ∀ s, P s → P (elapse s)
  dropVerdict : ∀ s, P s → P (dropVerdict s)
  dropSample : ∀ s, P s → P (dropSample s)
  clockTo : ∀ s t, P s → P (clockTo t s)
  record : ∀ s ev, P s → P (record ev s)
  drive : ∀ s v, P s → P (driveWires v s)
  scramble : ∀ s, P s → P (scrambleWires s)
  setPin : ∀ s p v, pins p → P s → P (setPin p v s)

/-- Fewer pins are kept too. -/
theorem Steady.fewer {pins pins' : Pin → Prop} {P : State → Prop} (h : Steady pins P)
    (hp : ∀ p, pins' p → pins p) : Steady pins' P :=
  { h with setPin := fun s p v hpin => h.setPin s p v (hp p hpin) }

section Primitives

variable {α : Type} {i : Nat} {pins : Pin → Prop} {P Q : State → Prop} {s : State}

theorem steady_attempt (h : Steady pins P) (mk : Nat → BlockError) {onFail : State → State}
    {effect : State → OpResult α} (hFail : ∀ s, P s → P (onFail s))
    (hEffect : ∀ s, P s → (effect s).EndsOr P P) (hs : P s) :
    (attempt mk onFail effect s).EndsOr P P := by
  have h0 := h.dropVerdict _ (h.elapse s hs)
  unfold attempt
  split
  · exact hFail _ h0
  · exact hEffect _ h0

theorem steady_pinWrite (h : Steady pins P) {p : Pin} (v : Bool) (hp : pins p) (hs : P s) :
    (pinWrite p v s).EndsOr P P :=
  steady_attempt h _ (fun _ => id) (fun s hs => h.record _ _ (h.setPin s p v hp hs)) hs

theorem steady_dataDrive (h : Steady pins P) (v : Byte) (hs : P s) :
    (dataDrive v s).EndsOr P P :=
  steady_attempt h _ h.scramble (fun s hs => h.record _ _ (h.drive s v hs)) hs

theorem steady_dataSample (h : Steady pins P) (hs : P s) : (dataSample s).EndsOr P P :=
  steady_attempt h _ (fun _ => id) (fun s hs => h.record _ _ (h.dropSample s hs)) hs

theorem steady_linkWrite (h : Steady pins P) (b : Byte) (hs : P s) :
    (linkWrite b s).EndsOr P P :=
  steady_attempt h _ (fun _ => id) (fun s hs => h.record s _ hs) hs

theorem steady_setDir (h : Steady pins P) (hdir : ∀ s d, P s → P (applyDir d s)) (d : Dir)
    (hs : P s) : (setDir d s).EndsOr P P :=
  steady_attempt h _ (fun _ => id) (fun s hs => h.record _ _ (hdir s d hs)) hs

/-- A wait does not fail. -/
theorem steady_waitUntil (h : Steady pins P) (t : Instant) (hs : P s) :
    (waitUntil t s).EndsOr P Q := by
  unfold waitUntil
  split
  · trivial
  · exact h.record _ _ (h.clockTo _ t (h.elapse s hs))

theorem steady_delay (h : Steady pins P) (d : Duration) (hs : P s) : (delay d s).EndsOr P Q :=
  steady_waitUntil h _ (h.elapse s hs)

theorem steady_selectReg (h : Steady (Pin.onParallel i) P) (reg : Reg) (hs : P s) :
    (selectReg reg s).EndsOr P P :=
  endsOr_andThen (steady_pinWrite h (p := .rs) _ trivial hs) fun _ _ ht =>
    steady_pinWrite h (p := .rw) _ trivial ht

theorem steady_latched (h : Steady (Pin.onParallel i) P) {f : State → OpResult α}
    (hf : ∀ s, P s → (f s).EndsOr P P) (hs : P s) : (latched i f s).EndsOr P P := by
  refine endsOr_andThen (steady_pinWrite h (p := .e i) _ rfl hs) fun _ s hs => ?_
  refine endsOr_andThen (steady_delay h _ hs) fun _ s hs => ?_
  refine endsOr_andThen (hf s hs) fun r s hs => ?_
  exact endsOr_andThen (steady_pinWrite h (p := .e i) _ rfl hs) fun _ _ ht => ht

/-- One write cycle: a drive and a pulse. -/
theorem steady_cycle (h : Steady (Pin.onParallel i) P) (b : Byte) (hs : P s) :
    ((dataDrive b s).andThen fun _ s => latch i s).EndsOr P P :=
  endsOr_andThen (steady_dataDrive h b hs) fun _ _ ht => steady_latched h (fun _ => id) ht

theorem steady_writeU8 (h : Steady (Pin.onParallel i) P) (b : Byte) (hs : P s) :
    (writeU8 i b s).EndsOr P P := by
  unfold writeU8
  split
  · refine endsOr_andThen (steady_dataDrive h _ hs) fun _ s hs => ?_
    refine endsOr_andThen (steady_latched h (fun _ => id) hs) fun _ s hs => ?_
    exact steady_cycle h _ hs
  · exact steady_cycle h b hs
  · exact steady_cycle h b hs

theorem steady_readU8 (h : Steady (Pin.onParallel i) P) (hs : P s) : (readU8 i s).EndsOr P P := by
  have pulse : ∀ s, P s → (latched i dataSample s).EndsOr P P :=
    fun s hs => steady_latched h (fun s => steady_dataSample h) hs
  unfold readU8
  split
  · exact endsOr_andThen (pulse s hs) fun _ t ht => endsOr_andThen (pulse t ht) fun _ _ => id
  · exact pulse s hs
  · exact pulse s hs

theorem steady_readU16 (h : Steady (Pin.onParallel i) P) (hs : P s) :
    (readU16 i s).EndsOr P P :=
  endsOr_andThen (steady_readU8 h hs) fun _ _ ht =>
    endsOr_andThen (steady_readU8 h ht) fun _ _ => id

theorem steady_parWrite (h : Steady (Pin.onParallel i) P) (reg : Reg) (v : Payload) (hs : P s) :
    (parWrite i reg v s).EndsOr P P := by
  refine endsOr_andThen (steady_selectReg h reg hs) fun _ s hs => ?_
  cases v with
  | one b => exact steady_writeU8 h b hs
  | two v =>
    exact endsOr_andThen (steady_writeU8 h _ hs) fun _ _ ht => steady_writeU8 h _ ht

theorem steady_parRead (h : Steady (Pin.onParallel i) P) (hdir : ∀ s d, P s → P (applyDir d s))
    (reg : Reg) {read : Nat → State → OpResult α} (hr : ∀ s, P s → (read i s).EndsOr P P)
    (hs : P s) : (parRead i reg read s).EndsOr P P := by
  refine endsOr_andThen (steady_setDir h hdir _ hs) fun _ s hs => ?_
  refine endsOr_andThen (steady_selectReg h reg hs) fun _ s hs => ?_
  refine endsOr_andThen (hr s hs) fun r s hs => ?_
  exact endsOr_andThen (steady_setDir h hdir _ hs) fun _ _ => id

theorem steady_linkWriteAll (h : Steady pins P) (bs : List Byte) :
    ∀ {s}, P s → (linkWriteAll bs s).EndsOr P P := by
  induction bs with
  | nil => exact id
  | cons b bs ih =>
    exact fun hs => endsOr_andThen (steady_linkWrite h b hs) fun _ _ ht => ih ht

theorem steady_serWrite (h : Steady (Pin.onSerial i) P) (reg : Reg) (v : Payload) (hs : P s) :
    (serWrite i reg v s).EndsOr P P := by
  refine endsOr_andThen (steady_pinWrite h (p := .cs i) _ rfl hs) fun _ s hs => ?_
  refine endsOr_andThen (steady_linkWriteAll h _ hs) fun _ s hs => ?_
  exact steady_pinWrite h (p := .cs i) _ rfl hs

theorem steady_memWrite (hp : Steady (Pin.onParallel i) P) (hser : Steady (Pin.onSerial i) P)
    (reg : Reg) (v : Payload) (hs : P s) : (memWrite i reg v s).EndsOr P P := by
  unfold memWrite
  split
  · exact steady_parWrite hp reg v hs
  · exact steady_parWrite hp reg v hs
  · exact steady_serWrite hser reg v hs

end Primitives

end Sys2Proof.Machine
end

section
/-!
SUPPORT. How an access that is done leaves the pins of its line, whatever they were before: the last
edge of a pulse and of a chip-select frame is a fall, and a read ends with the wires outputs.
-/

namespace Sys2Proof.Machine

variable {i : Nat} {s : State}

/-- Line `i` after an update of line `i`, for an index of no line too. -/
theorem line_modLine (i : Nat) (f : LineRegs → LineRegs) (s : State) :
    (modLine i f s).line i = if i < s.numLines then f (s.line i) else .atReset 0 := by
  split
  next h => exact line_modLine_same s i f h
  next h =>
    have : s.lines.length ≤ i := Nat.le_of_not_lt h
    simp [State.line, this]

theorem e_setPin_low (i : Nat) (s : State) : ((setPin (.e i) false s).line i).e = false := by
  simp only [setPin, line_modLine]
  split <;> rfl

theorem cs_setPin_low (i : Nat) (s : State) : ((setPin (.cs i) false s).line i).cs = false := by
  simp only [setPin, line_modLine]
  split <;> rfl

theorem chipUnknown_setChipUnknown (i : Nat) (s : State) :
    ((setChipUnknown i true s).line i).chipUnknown = true := by
  simp only [setChipUnknown, line_modLine]
  split <;> rfl

/-- A fallible primitive that is done has had its effect. -/
theorem ifDone_attempt {α : Type} {P : State → Prop} (mk : Nat → BlockError)
    (onFail : State → State) {effect : State → OpResult α} (hEffect : ∀ s, (effect s).IfDone P)
    (s : State) : (attempt mk onFail effect s).IfDone P := by
  unfold attempt
  split
  · trivial
  · exact hEffect _

theorem ifDone_enable_low (s : State) :
    (pinWrite (.e i) false s).IfDone fun t => (t.line i).e = false := by
  refine ifDone_attempt _ _ (fun s => ?_) s
  exact e_setPin_low i _

theorem ifDone_chipSelect_low (s : State) :
    (pinWrite (.cs i) false s).IfDone fun t => (t.line i).cs = false := by
  refine ifDone_attempt _ _ (fun s => ?_) s
  exact cs_setPin_low i _

theorem ifDone_setDir (d : Dir) (s : State) : (setDir d s).IfDone fun t => t.dir = d := by
  refine ifDone_attempt _ _ (fun s => ?_) s
  exact applyDir_dir s d

theorem ifDone_latched_low {α : Type} (f : State → OpResult α) :
    (latched i f s).IfDone fun t => (t.line i).e = false := by
  refine ifDone_last fun _ s => ifDone_last fun _ s => ifDone_last fun r s => ?_
  exact endsOr_andThen (ifDone_enable_low s) fun _ _ => id

theorem ifDone_writeU8_low (b : Byte) : (writeU8 i b s).IfDone fun t => (t.line i).e = false := by
  unfold writeU8
  split
  · exact ifDone_last fun _ s => ifDone_last fun _ s => ifDone_last fun _ s => ifDone_latched_low _
  · exact ifDone_last fun _ s => ifDone_latched_low _
  · exact ifDone_last fun _ s => ifDone_latched_low _

theorem ifDone_parWrite_low (reg : Reg) (v : Payload) :
    (parWrite i reg v s).IfDone fun t => (t.line i).e = false := by
  refine ifDone_last fun _ s => ?_
  cases v with
  | one b => exact ifDone_writeU8_low b
  | two v => exact ifDone_last fun _ s => ifDone_writeU8_low _

theorem ifDone_serWrite_low (reg : Reg) (v : Payload) :
    (serWrite i reg v s).IfDone fun t => (t.line i).cs = false :=
  ifDone_last fun _ _ => ifDone_last fun _ s => ifDone_chipSelect_low s

theorem ifDone_readU8_low : (readU8 i s).IfDone fun t => (t.line i).e = false := by
  unfold readU8
  split
  · exact ifDone_last fun _ s => endsOr_andThen (ifDone_latched_low _) fun _ _ => id
  · exact ifDone_latched_low _
  · exact ifDone_latched_low _

theorem ifDone_readU16_low : (readU16 i s).IfDone fun t => (t.line i).e = false :=
  ifDone_last fun _ _ => endsOr_andThen ifDone_readU8_low fun _ _ => id

/-- A read that is done leaves the enable line as its last pulse did, and the wires outputs. -/
theorem ifDone_parRead_low {α : Type} (reg : Reg) {read : Nat → State → OpResult α}
    (hr : ∀ s, (read i s).IfDone fun t => (t.line i).e = false) :
    (parRead i reg read s).IfDone fun t => t.dir = .out ∧ (t.line i).e = false := by
  refine ifDone_last fun _ s => ifDone_last fun _ s => endsOr_andThen (hr s) fun r s hs => ?_
  have hlow : (setDir .out s).IfDone fun t => (t.line i).e = false := by
    unfold setDir attempt
    split
    · trivial
    · exact hs
  exact endsOr_andThen ((ifDone_setDir .out s).and hlow).ifDone fun _ _ => id

/-- A write that is done leaves the line's own level low (00_scope.md R6). -/
theorem ifDone_memWrite_low (reg : Reg) (v : Payload) :
    (memWrite i reg v s).IfDone fun t => lineLevel s.cfg.bus (t.line i) = false := by
  unfold memWrite
  split
  next hb => rw [hb]; exact ifDone_parWrite_low reg v
  next hb => rw [hb]; exact ifDone_parWrite_low reg v
  next hb => rw [hb]; exact ifDone_serWrite_low reg v

end Sys2Proof.Machine
end

section
/-!
SUPPORT. An invariant that holds between accesses: what the updates outside an access and the
accesses as wholes keep (`KeptBetween`) is kept by every host operation, and after an `Err` the state
is as the failed access left it (`Answered`). So an invariant that an access breaks and restores is
one lemma per access.
-/

namespace Sys2Proof.Machine

/-- Outside the accesses on line `i` the property `P` is kept; an access keeps it if it is done and
leaves `Q` if it fails. A booking is for no longer than the longest execution time or `T_READ`
(44_timing_scheduler.md R192), and the chip becomes known right after a command was sent
(47_facade.md R268). -/
structure KeptBetween (i : Nat) (P Q : State → Prop) : Prop where
  steady : Steady (fun _ => False) P
  setMode : ∀ s m, P s → P (setMode i m s)
  book : ∀ s d, d ≤ max 1600 s.cfg.tRead → P s → P (setDeadline i (s.env.clock + d) s)
  write : ∀ s reg v, P s → (memWrite i reg v s).EndsOr P Q
  readByte : ∀ s reg, P s → (parRead i reg readU8 s).EndsOr P Q
  readWord : ∀ s reg, P s → (parRead i reg readU16 s).EndsOr P Q
  known : ∀ s c t, emit i c s = .done () t → P t → P (setChipUnknown i false t)

section Operations

variable {i : Nat} {P Q : State → Prop} {s : State}

theorem executionTime_le (c : Command) : executionTime c ≤ 1600 := by
  cases c <;> simp [executionTime, tExec, tExecClear]

theorem now_andThen {α : Type} (f : Instant → State → OpResult α) (s : State) :
    (now s).andThen f = f (elapse s).env.clock (elapse s) := rfl

theorem between_awaitDeadline (h : KeptBetween i P Q) (hs : P s) :
    (awaitDeadline i s).EndsOr P Q := steady_waitUntil h.steady _ hs

theorem between_book (h : KeptBetween i P Q) {d : Duration} (hd : d ≤ max 1600 s.cfg.tRead)
    (hs : P s) : (book i d s).EndsOr P Q :=
  h.book (elapse s) d hd (h.steady.elapse s hs)

theorem between_emit (h : KeptBetween i P Q) (c : Command) (hs : P s) :
    (emit i c s).EndsOr P Q := by
  refine endsOr_andThen (between_awaitDeadline h hs) fun _ s hs => ?_
  refine endsOr_andThen (h.write s _ _ hs) fun _ s hs => ?_
  exact between_book h ((executionTime_le c).trans (le_max_left _ _)) hs

theorem between_schedRead {α : Type} (h : KeptBetween i P Q) (reg : Reg)
    {read : Nat → State → OpResult α} (hr : ∀ s, P s → (parRead i reg read s).EndsOr P Q)
    (hs : P s) : (schedRead i reg read s).EndsOr P Q := by
  refine endsOr_andThen (between_awaitDeadline h hs) fun _ s hs => ?_
  refine endsOr_andThen (hr s hs) fun r s hs => ?_
  exact endsOr_andThen (between_book h (le_max_right _ _) hs) fun _ _ => id

theorem between_pollLoop (h : KeptBetween i P Q) (t0 : Instant) (fuel : Nat) :
    ∀ {s}, P s → (pollLoop i t0 fuel s).EndsOr P Q := by
  induction fuel with
  | zero => exact fun _ => trivial
  | succ n ih =>
    intro s hs
    refine endsOr_andThen (between_schedRead h _ (h.readByte · _) hs) fun b s hs => ?_
    split
    · exact hs
    · rw [now_andThen]
      have hnow := h.steady.elapse s hs
      split
      · exact hnow
      · exact ih hnow

theorem between_pollBusy (h : KeptBetween i P Q) (hs : P s) : (pollBusy i s).EndsOr P Q := by
  unfold pollBusy
  split
  · exact hs
  · exact between_pollLoop h _ _ (h.steady.elapse s hs)

theorem between_emitSelect (h : KeptBetween i P Q) (c : Command) (m : Mode) (hs : P s) :
    (emitSelect i c m s).EndsOr P Q :=
  endsOr_andThen (between_emit h c hs) fun _ s hs => h.setMode s m hs

theorem between_toBasic (h : KeptBetween i P Q) (hs : P s) : (toBasic i s).EndsOr P Q :=
  endsOr_andThen (between_pollBusy h hs) fun _ _ hs => between_emitSelect h _ _ hs

theorem between_whenMode (m : Mode) {op : State → OpResult Unit}
    (hop : ∀ s, P s → (op s).EndsOr P Q) (hs : P s) : (whenMode i m op s).EndsOr P Q := by
  unfold whenMode
  split
  · exact hop s hs
  · exact hs

theorem between_execCommand (h : KeptBetween i P Q) (c : Command) (hs : P s) :
    (execCommand i c s).EndsOr P Q := by
  have select : ∀ c m s, P s → (emitSelect i c m s).EndsOr P Q :=
    fun c m s => between_emitSelect h c m
  have viaExtended : ∀ m s, P s → (whenMode i m (toExtended i) s).EndsOr P Q :=
    fun m s => between_whenMode m (select _ _)
  unfold execCommand execClass
  cases classOf s.cfg.writePolicy c with
  | basicOp =>
    refine endsOr_andThen (viaExtended _ s hs) fun _ s hs => ?_
    refine endsOr_andThen (between_whenMode _ (fun _ => between_toBasic h) hs) fun _ s hs => ?_
    exact between_emit h c hs
  | extOp => exact endsOr_andThen (viaExtended _ s hs) fun _ _ hs => between_emit h c hs
  | selB => exact endsOr_andThen (viaExtended _ s hs) fun _ _ hs => between_toBasic h hs
  | selE => exact select _ _ s hs
  | selG => exact endsOr_andThen (viaExtended _ s hs) fun _ s hs => select _ _ s hs
  | neutral => exact between_emit h c hs

theorem between_returnUnit {P Q : State → Prop} {r : OpResult Unit} (hr : r.EndsOr P Q) :
    (returnUnit r).EndsOr P Q := endsOr_andThen hr fun _ _ => id

theorem between_statusBody (h : KeptBetween i P Q) (hs : P s) : (statusBody i s).EndsOr P Q :=
  endsOr_andThen (between_schedRead h _ (h.readByte · _) hs) fun _ _ => id

theorem between_ramBody (h : KeptBetween i P Q) (hs : P s) : (ramBody i s).EndsOr P Q :=
  endsOr_andThen (between_schedRead h _ (h.readWord · _) hs) fun _ _ => id

/-- After a command was sent the chip may be called known. -/
theorem between_emit_known (h : KeptBetween i P Q) (c : Command) (hs : P s) :
    (emit i c s).EndsOr (fun t => P (setChipUnknown i false t)) Q := by
  have hr := between_emit h c hs
  cases he : emit i c s with
  | done a t =>
    rw [he] at hr
    exact h.known s c t he hr
  | raised e t => rwa [he] at hr
  | hung f => trivial

/-- `init` ends right after a command, when the chip may be called known. -/
theorem between_initBody_known (h : KeptBetween i P Q) (hs : P s) :
    (initBody i s).EndsOr (fun t => P (setChipUnknown i false t)) Q := by
  have settle : ∀ {s} d, P s → (delay d s).EndsOr P Q := fun d => steady_delay h.steady d
  refine endsOr_andThen (r := now s) (h.steady.elapse s hs) fun _ s hs => ?_
  refine endsOr_andThen (steady_waitUntil h.steady _ hs) fun _ s hs => ?_
  have hbasic : P (elapse (setMode i .basic s)) := h.steady.elapse _ (h.setMode s _ hs)
  have hbooked := h.book _ 0 (Nat.zero_le _) hbasic
  rw [now_andThen]
  refine endsOr_andThen (between_emit h _ hbooked) fun _ s hs => ?_
  refine endsOr_andThen (settle _ hs) fun _ s hs => ?_
  refine endsOr_andThen (between_emit h _ hs) fun _ s hs => ?_
  refine endsOr_andThen (settle _ hs) fun _ s hs => ?_
  refine endsOr_andThen (between_emit h _ hs) fun _ s hs => ?_
  refine endsOr_andThen (between_emit h _ hs) fun _ s hs => ?_
  exact between_emit_known h _ hs

end Operations

/-- A state handed to the host after an operation: with a value in a state of `P`, or with an error on
line `i` in a state of `Q i` and the line's flag set. -/
inductive Answered (P : State → Prop) (Q : Nat → State → Prop) : State → Prop where
  | value (v : HostResult) {u : State} : P u → Answered P Q (answer v u)
  | error (i : Nat) (e : BlockError) {u : State} :
    Q i u → Answered P Q (answer (.err e) (setChipUnknown i true u))

section Steps

variable {P : State → Prop} {Q : Nat → State → Prop} {s t : State} {i : Nat}

theorem answered_onLine {op : State → OpResult HostResult} (hop : (op s).EndsOr P (Q i))
    (hs : P s) (ht : onLine i op s = .next t) : Answered P Q t := by
  unfold onLine at ht
  split at ht
  · cases hr : op s with
    | done v u =>
      rw [hr] at hop ht
      cases ht
      exact .value v hop
    | raised e u =>
      rw [hr] at hop ht
      cases ht
      exact .error i e hop
    | hung f => rw [hr] at ht; cases ht
  · cases ht
    exact .value .noHandle hs

theorem answered_readOperation {op : State → OpResult HostResult} (hop : (op s).EndsOr P (Q i))
    (hs : P s) (ht : readOperation i op s = .next t) : Answered P Q t := by
  unfold readOperation at ht
  split at ht
  · exact answered_onLine hop hs ht
  · cases ht

/-- An instruction is `execute` with its command, or a read. -/
theorem answered_exec (h : ∀ i, KeptBetween i P (Q i)) (c : Instr) (hs : P s)
    (ht : exec c s = .next t) : Answered P Q t := by
  have command : ∀ i k, execute i k s = .next t → Answered P Q t := fun i k =>
    answered_onLine (between_returnUnit (between_execCommand (h i) k hs)) hs
  cases c with
  | readStatus i => exact answered_readOperation (between_statusBody (h i) hs) hs ht
  | readRam i => exact answered_readOperation (between_ramBody (h i) hs) hs ht
  | _ => exact command _ _ ht

/-- The operations that are no row of the opcode table. -/
theorem answered_runFacade (h : ∀ i, KeptBetween i P (Q i)) {op : HostOp}
    (hop : ∀ w, op ≠ .command w) (hs : P s) (ht : runFacade op s = .next t) : Answered P Q t := by
  cases op with
  | command w => exact absurd rfl (hop w)
  | waitReady i =>
    exact answered_onLine (op := fun s => returnUnit (awaitDeadline i s))
      (between_returnUnit (between_awaitDeadline (h i) hs)) hs ht
  | init i =>
    have hinit := endsOr_andThen (f := fun _ s => .done () (setChipUnknown i false s))
      (between_initBody_known (h i) hs) fun _ _ => id
    exact answered_onLine
      (op := fun s => returnUnit ((initBody i s).andThen fun _ s => .done () (setChipUnknown i false s)))
      (between_returnUnit hinit) hs ht
  | num => cases ht; exact .value _ hs
  | get index => cases ht; exact .value _ hs

/-- A step from a state of `P`: the state stays, or it is handed out after one operation. -/
theorem step_answered (h : ∀ i, KeptBetween i P (Q i))
    (hp : ∀ s rest, P s → P { s with pending := rest }) (hs : P s) (ht : step s = .next t) :
    t = s ∨ Answered P Q t := by
  unfold step at ht
  split at ht
  · cases ht; exact .inl rfl
  next c s' hf =>
    obtain ⟨-, rest, -, -, rfl⟩ := pending_of_fetch_instr hf
    exact .inr (answered_exec h c (hp s rest hs) ht)
  · cases ht
  next op s' hf =>
    obtain ⟨rest, -, hop, rfl⟩ := pending_of_fetch_facade hf
    exact .inr (answered_runFacade h hop (hp s rest hs) ht)

end Steps

end Sys2Proof.Machine
end

section
/-!
SUPPORT. Properties of all lines: what an update of one line and an operation on one line leave of
them.
-/

namespace Sys2Proof.Machine

variable {i : Nat} {s t : State} {Q : LineRegs → Prop}

/-- A property of all lines is one of the line at any index, if it holds of a line at reset. -/
theorem line_of_forall (h : ∀ l ∈ s.lines, Q l) (h0 : Q (.atReset 0)) (i : Nat) : Q (s.line i) := by
  unfold State.line
  rw [List.getD_eq_getElem?_getD]
  cases hl : s.lines[i]? with
  | none => exact h0
  | some l => exact h l (List.mem_of_getElem? hl)

/-- All lines have a property after an operation on line `i` if they had it before and line `i` has it
after. -/
theorem forall_lines_of_rest (hrest : KeepsRest i s t) (h : ∀ l ∈ s.lines, Q l)
    (hi : Q (t.line i)) : ∀ l ∈ t.lines, Q l := by
  obtain ⟨-, -, -, hothers, -⟩ := hrest
  intro l hl
  obtain ⟨j, hj⟩ := List.getElem?_of_mem hl
  by_cases hji : j = i
  · subst hji
    simpa [State.line, List.getD_eq_getElem?_getD, hj] using hi
  · exact h l (List.mem_of_getElem? ((hothers j hji).symm.trans hj))

theorem forall_lines_modLine (i : Nat) {f : LineRegs → LineRegs} (hf : ∀ l, Q l → Q (f l))
    (h : ∀ l ∈ s.lines, Q l) : ∀ l ∈ (modLine i f s).lines, Q l := by
  intro l hl
  obtain ⟨j, hj⟩ := List.getElem?_of_mem hl
  rw [modLine_lines, List.getElem?_modify] at hj
  obtain ⟨l', hl', rfl⟩ := Option.map_eq_some_iff.1 hj
  have hmem := h l' (List.mem_of_getElem? hl')
  split
  · exact hf l' hmem
  · exact hmem

/-- The registers of line `i` after an update of line `i`. -/
theorem line_modLine_of (i : Nat) {f : LineRegs → LineRegs} (hf : ∀ l, Q l → Q (f l))
    (h0 : Q (.atReset 0)) (h : Q (s.line i)) : Q ((modLine i f s).line i) := by
  rw [line_modLine]
  split
  · exact hf _ h
  · exact h0

/-- The direction of the wires is kept by all that sets no direction. -/
theorem steady_dir (d : Dir) : Steady (fun _ => True) fun s => s.dir = d where
  elapse _ := id
  dropVerdict _ := id
  dropSample _ := id
  clockTo _ _ := id
  record _ _ := id
  drive _ _ h := by simpa using h
  scramble _ := id
  setPin _ _ _ _ h := by simpa using h

/-- The registers of a line change with its pins only. -/
theorem steady_line (Q : LineRegs → Prop) (i : Nat) :
    Steady (fun _ => False) fun s => Q (s.line i) where
  elapse _ := id
  dropVerdict _ := id
  dropSample _ := id
  clockTo _ _ := id
  record _ _ := id
  drive s v h := by rwa [line_congr (driveWires_lines s v) i]
  scramble _ := id
  setPin _ _ _ := False.elim

/-- Of its line a parallel access drives the enable line only. -/
theorem steady_line_parallel (h0 : Q (.atReset 0)) (he : ∀ l v, Q l → Q { l with e := v }) :
    Steady (Pin.onParallel i) fun s => Q (s.line i) :=
  { steady_line Q i with
    setPin := fun _ p v hp h => match p with
      | .rs | .rw => h
      | .e j => by
        obtain rfl : j = i := hp
        exact line_modLine_of j (he · v) h0 h
      | .cs _ => hp.elim }

/-- Of its line a serial access drives the chip-select only. -/
theorem steady_line_serial (h0 : Q (.atReset 0)) (hcs : ∀ l v, Q l → Q { l with cs := v }) :
    Steady (Pin.onSerial i) fun s => Q (s.line i) :=
  { steady_line Q i with
    setPin := fun _ p v hp h => match p with
      | .rs | .rw | .e _ => hp.elim
      | .cs j => by
        obtain rfl : j = i := hp
        exact line_modLine_of j (hcs · v) h0 h }

end Sys2Proof.Machine
end

section
/-!
SUPPORT. The observation stays in order (`Orderly`): every primitive update keeps it, and so does a
booking of no more than the longest execution time or `T_READ`.
-/

namespace Sys2Proof.Machine

variable {s t : State}

/-- Time may pass. -/
theorem Orderly.later (h : Orderly s) (htrace : t.trace = s.trace) (hlines : t.lines = s.lines)
    (hcfg : t.cfg = s.cfg) (hdata : t.data = s.data) (hclock : s.env.clock ≤ t.env.clock) :
    Orderly t := by
  obtain ⟨hsorted, hpast, hdeadline, hwidth⟩ := h
  unfold Orderly
  rw [htrace, hlines, hcfg, hdata]
  exact ⟨hsorted, fun e he => (hpast e he).trans hclock,
    fun l hl => (hdeadline l hl).trans (Nat.add_le_add_right hclock _), hwidth⟩

/-- The registers of a line may change, as long as its deadline stays in bounds. -/
theorem Orderly.modLine (h : Orderly s) (i : Nat) {f : LineRegs → LineRegs}
    (hf : ∀ l : LineRegs, l.deadline ≤ s.env.clock + max 1600 s.cfg.tRead →
      (f l).deadline ≤ s.env.clock + max 1600 s.cfg.tRead) : Orderly (modLine i f s) := by
  obtain ⟨hsorted, hpast, hdeadline, hwidth⟩ := h
  exact ⟨hsorted, hpast, forall_lines_modLine i hf hdeadline, hwidth⟩

/-- An event is recorded at the present instant, which no earlier event is after. -/
theorem Orderly.record (h : Orderly s) (ev : Event) : Orderly (record ev s) := by
  obtain ⟨hsorted, hpast, hdeadline, hwidth⟩ := h
  refine ⟨?_, ?_, hdeadline, hwidth⟩
  · simpa [List.pairwise_append, hsorted] using hpast
  · intro e he
    rw [record_trace, List.mem_append, List.mem_singleton] at he
    rcases he with he | rfl
    · exact hpast e he
    · exact le_rfl

/-- What a drive puts into `DATA` fits the data wires. -/
theorem Orderly.driveWires (h : Orderly s) (v : Byte) : Orderly (driveWires v s) := by
  obtain ⟨hsorted, hpast, hdeadline, hwidth⟩ := h
  cases hd : s.dir with
  | out =>
    refine ⟨by simpa using hsorted, by simpa using hpast, by simpa using hdeadline, ?_⟩
    simp [hd, onWires, BitVec.and_assoc]
  | into => simpa [Machine.driveWires, hd] using ⟨hsorted, hpast, hdeadline, hwidth⟩

theorem steady_orderly : Steady (fun _ => True) Orderly where
  elapse s h := h.later rfl rfl rfl rfl (clock_le_envAfter s.env)
  dropVerdict _ h := h
  dropSample _ h := h.later rfl rfl rfl rfl (by simp)
  clockTo _ _ h := h.later rfl rfl rfl rfl (le_max_left _ _)
  record _ ev h := h.record ev
  drive _ v h := h.driveWires v
  scramble _ h := h.later rfl rfl rfl rfl le_rfl
  setPin _ p _ _ h := match p with
    | .rs | .rw => h
    | .e j | .cs j => h.modLine j fun _ => id

theorem keptBetween_orderly (i : Nat) : KeptBetween i Orderly Orderly := by
  have hpar : Steady (Pin.onParallel i) Orderly := steady_orderly.fewer fun _ _ => trivial
  have hser : Steady (Pin.onSerial i) Orderly := steady_orderly.fewer fun _ _ => trivial
  have hdir : ∀ s d, Orderly s → Orderly (applyDir d s) := fun _ _ h => h
  exact {
    steady := steady_orderly.fewer fun _ _ => trivial
    setMode := fun _ _ h => h.modLine i fun _ => id
    book := fun _ _ hd h => h.modLine i fun _ _ => Nat.add_le_add_left hd _
    write := fun _ reg v h => steady_memWrite hpar hser reg v h
    readByte := fun _ reg h => steady_parRead hpar hdir reg (fun _ => steady_readU8 hpar) h
    readWord := fun _ reg h => steady_parRead hpar hdir reg (fun _ => steady_readU16 hpar) h
    known := fun _ _ _ _ h => h.modLine i fun _ => id }

theorem orderly_construct (p : Params) (n : Nat) (t0 : Instant) :
    Orderly (State.construct p n t0) := by
  simp [Orderly, State.construct, LineRegs.atReset]

end Sys2Proof.Machine
end

section
/-!
SUPPORT. The quiescent invariant between accesses: an access that is done leaves the lines low and
the wires outputs.
-/

namespace Sys2Proof.Machine

variable {i : Nat} {s : State}

/-- An operation on line `i` keeps the quiescent invariant if it leaves that line low and the wires
outputs. -/
theorem ifDone_quiescent {α : Type} {r : OpResult α} (hs : Quiescent s)
    (hrest : r.Ends (OnlyAdds i s))
    (hline : r.IfDone fun t => t.dir = .out ∧ (t.line i).e = false ∧ (t.line i).cs = false) :
    r.IfDone Quiescent := by
  obtain ⟨-, hlow⟩ := hs
  refine ((endsOr_of_ends hrest).and hline).mono ?_ fun _ _ => trivial
  rintro t ⟨hadds, hdir, he, hcs⟩
  exact ⟨hdir, forall_lines_of_rest hadds.rest hlow ⟨he, hcs⟩⟩

/-- The chip-select of line `i` on a parallel bus. -/
theorem steady_cs_parallel (i : Nat) :
    Steady (Pin.onParallel i) fun s => (s.line i).cs = false :=
  steady_line_parallel (Q := fun l => l.cs = false) rfl fun _ _ => id

/-- The enable line of line `i` on a serial link. -/
theorem steady_e_serial (i : Nat) : Steady (Pin.onSerial i) fun s => (s.line i).e = false :=
  steady_line_serial (Q := fun l => l.e = false) rfl fun _ _ => id

theorem Quiescent.line (h : Quiescent s) (i : Nat) :
    s.dir = .out ∧ (s.line i).e = false ∧ (s.line i).cs = false := by
  obtain ⟨hdir, hlow⟩ := h
  exact ⟨hdir, line_of_forall hlow ⟨rfl, rfl⟩ i⟩

theorem ifDone_quiescent_parWrite (hs : Quiescent s) (reg : Reg) (v : Payload) :
    (parWrite i reg v s).IfDone Quiescent := by
  obtain ⟨hdir, -, hcs⟩ := hs.line i
  have keepsDir := steady_parWrite (i := i) ((steady_dir .out).fewer fun _ _ => trivial) reg v hdir
  have keepsCs := steady_parWrite (steady_cs_parallel i) reg v hcs
  refine ifDone_quiescent hs (ends_parWrite (closed_onlyAdds i) reg v s) ?_
  exact (keepsDir.ifDone.and ((ifDone_parWrite_low reg v).and keepsCs.ifDone)).ifDone

theorem ifDone_quiescent_serWrite (hs : Quiescent s) (reg : Reg) (v : Payload) :
    (serWrite i reg v s).IfDone Quiescent := by
  obtain ⟨hdir, he, -⟩ := hs.line i
  have keepsDir := steady_serWrite (i := i) ((steady_dir .out).fewer fun _ _ => trivial) reg v hdir
  have keepsE := steady_serWrite (steady_e_serial i) reg v he
  refine ifDone_quiescent hs (ends_serWrite (closed_onlyAdds i) reg v s) ?_
  exact (keepsDir.ifDone.and (keepsE.ifDone.and (ifDone_serWrite_low reg v))).ifDone

theorem ifDone_quiescent_memWrite (hs : Quiescent s) (reg : Reg) (v : Payload) :
    (memWrite i reg v s).IfDone Quiescent := by
  unfold memWrite
  split
  · exact ifDone_quiescent_parWrite hs reg v
  · exact ifDone_quiescent_parWrite hs reg v
  · exact ifDone_quiescent_serWrite hs reg v

/-- A read of `read` leaves the chip-select alone and ends with a pulse and with the wires outputs. -/
theorem ifDone_quiescent_parRead {α : Type} (hs : Quiescent s) (reg : Reg)
    {read : Nat → State → OpResult α} (hadds : ∀ s, (read i s).Ends (OnlyAdds i s))
    (hcs : ∀ s, (s.line i).cs = false → (read i s).EndsOr (fun t => (t.line i).cs = false)
      fun t => (t.line i).cs = false)
    (hlow : ∀ s, (read i s).IfDone fun t => (t.line i).e = false) :
    (parRead i reg read s).IfDone Quiescent := by
  obtain ⟨-, -, hline⟩ := hs.line i
  have keepsCs := steady_parRead (steady_cs_parallel i) (fun _ _ => id) reg hcs hline
  refine ifDone_quiescent hs (ends_parRead (closed_onlyAdds i) reg read hadds s) ?_
  refine ((ifDone_parRead_low reg hlow).and keepsCs.ifDone).mono ?_ fun _ _ => trivial
  rintro t ⟨⟨hdir, he⟩, hcs⟩
  exact ⟨hdir, he, hcs⟩

theorem steady_quiescent : Steady (fun _ => False) Quiescent where
  elapse _ := id
  dropVerdict _ := id
  dropSample _ := id
  clockTo _ _ := id
  record _ _ := id
  drive s v h := by simpa [Quiescent] using h
  scramble _ := id
  setPin _ _ _ := False.elim

/-- A change of other registers of a line than its pins. -/
theorem Quiescent.modLine (h : Quiescent s) (i : Nat) {f : LineRegs → LineRegs}
    (hf : ∀ l : LineRegs, l.e = false ∧ l.cs = false → (f l).e = false ∧ (f l).cs = false) :
    Quiescent (modLine i f s) := by
  obtain ⟨hdir, hlow⟩ := h
  exact ⟨hdir, forall_lines_modLine i hf hlow⟩

/-- After an `Err` nothing is claimed of the pins. -/
theorem keptBetween_quiescent (i : Nat) : KeptBetween i Quiescent fun _ => True where
  steady := steady_quiescent
  setMode _ _ h := h.modLine i fun _ => id
  book _ _ _ h := h.modLine i fun _ => id
  write _ reg v h := ifDone_quiescent_memWrite h reg v
  readByte _ reg h := ifDone_quiescent_parRead h reg (ends_readU8 (closed_onlyAdds i))
    (fun _ => steady_readU8 (steady_cs_parallel i)) fun _ => ifDone_readU8_low
  readWord _ reg h := ifDone_quiescent_parRead h reg (ends_readU16 (closed_onlyAdds i))
    (fun _ => steady_readU16 (steady_cs_parallel i)) fun _ => ifDone_readU16_low
  known _ _ _ _ h := h.modLine i fun _ => id

theorem quiescent_construct (p : Params) (n : Nat) (t0 : Instant) :
    Quiescent (State.construct p n t0) := by
  simp [Quiescent, State.construct, LineRegs.atReset]

end Sys2Proof.Machine
end

section
/-!
SUPPORT. The lines of known chips between accesses (`KnownLinesLow`): an access that is done leaves
its line low, and one that fails touches no other line, while its own is flagged.
-/

namespace Sys2Proof.Machine

variable {i : Nat} {s t : State}

/-- A line is as a known line has to be. -/
def LineKnownLow (b : Bus) (l : LineRegs) : Prop := l.chipUnknown = false → lineLevel b l = false

theorem lineKnownLow_atReset (b : Bus) (t0 : Instant) : LineKnownLow b (.atReset t0) := nofun

/-- An operation on line `i` keeps the other lines of known chips low. -/
theorem knownLinesLow_of_rest (hrest : KeepsRest i s t) (hs : KnownLinesLow s)
    (hi : LineKnownLow s.cfg.bus (t.line i)) : KnownLinesLow t := by
  have hcfg : t.cfg = s.cfg := hrest.1
  unfold KnownLinesLow
  rw [hcfg]
  exact forall_lines_of_rest (Q := LineKnownLow s.cfg.bus) hrest hs hi

/-- With its flag set nothing is asked of line `i`. -/
theorem knownLinesLow_setChipUnknown (hs : KnownLinesLow s) (hadds : OnlyAdds i s t) :
    KnownLinesLow (setChipUnknown i true t) := by
  have hrest := hadds.rest.trans ((closed_onlyAdds i).setChipUnknown t true).rest
  refine knownLinesLow_of_rest hrest hs fun h => ?_
  rw [chipUnknown_setChipUnknown] at h
  cases h

/-- A change of other registers of a line than its pins and its flag. -/
theorem KnownLinesLow.modLine (h : KnownLinesLow s) (i : Nat) {f : LineRegs → LineRegs}
    (hf : ∀ b l, LineKnownLow b l → LineKnownLow b (f l)) : KnownLinesLow (modLine i f s) :=
  forall_lines_modLine (Q := LineKnownLow s.cfg.bus) i (hf s.cfg.bus) h

/-- An operation on line `i` keeps the lines of known chips low, or fails with its own line alone in
another state, if it is done with its own line as a known line has to be. -/
theorem endsOr_knownLinesLow {α : Type} {r : OpResult α} (hs : KnownLinesLow s)
    (hrest : r.Ends (OnlyAdds i s)) (hline : r.IfDone fun t => LineKnownLow s.cfg.bus (t.line i)) :
    r.EndsOr KnownLinesLow fun t => KnownLinesLow (setChipUnknown i true t) := by
  refine ((endsOr_of_ends hrest).and hline).mono ?_ ?_
  · rintro t ⟨hadds, hi⟩
    exact knownLinesLow_of_rest hadds.rest hs hi
  · rintro t ⟨hadds, -⟩
    exact knownLinesLow_setChipUnknown hs hadds

theorem endsOr_knownLinesLow_memWrite (hs : KnownLinesLow s) (reg : Reg) (v : Payload) :
    (memWrite i reg v s).EndsOr KnownLinesLow fun t => KnownLinesLow (setChipUnknown i true t) :=
  endsOr_knownLinesLow hs (ends_memWrite (closed_onlyAdds i) reg v s) <|
    (ifDone_memWrite_low reg v).mono (fun _ hlow _ => hlow) fun _ => id

/-- A parallel access leaves a line of a serial link as it is. -/
theorem steady_lineKnownLow_ser (i : Nat) :
    Steady (Pin.onParallel i) fun s => LineKnownLow .ser (s.line i) :=
  steady_line_parallel (Q := LineKnownLow .ser) (lineKnownLow_atReset _ 0) fun _ _ => id

/-- A read of `read`, which on a serial link would drive no line a chip listens to. -/
theorem endsOr_knownLinesLow_parRead {α : Type} (hs : KnownLinesLow s) (reg : Reg)
    {read : Nat → State → OpResult α} (hadds : ∀ s, (read i s).Ends (OnlyAdds i s))
    (hser : ∀ s, LineKnownLow .ser (s.line i) →
      (read i s).EndsOr (fun t => LineKnownLow .ser (t.line i)) fun t => LineKnownLow .ser (t.line i))
    (hlow : ∀ s, (read i s).IfDone fun t => (t.line i).e = false) :
    (parRead i reg read s).EndsOr KnownLinesLow fun t => KnownLinesLow (setChipUnknown i true t) := by
  have hline := line_of_forall (Q := LineKnownLow s.cfg.bus) hs (lineKnownLow_atReset _ 0) i
  have hpulse := ifDone_parRead_low (s := s) reg hlow
  refine endsOr_knownLinesLow hs (ends_parRead (closed_onlyAdds i) reg read hadds s) ?_
  cases hb : s.cfg.bus with
  | par4 | par8 =>
    refine hpulse.mono ?_ fun _ => id
    rintro t ⟨-, he⟩ -
    exact he
  | ser =>
    rw [hb] at hline
    exact (steady_parRead (steady_lineKnownLow_ser i) (fun _ _ => id) reg hser hline).ifDone

/-- A line that is low stays low in a change of other registers than its pins. -/
theorem lineLevel_modLine_low {b : Bus} {f : LineRegs → LineRegs}
    (hf : ∀ l, lineLevel b (f l) = lineLevel b l) (h : lineLevel b (s.line i) = false) :
    lineLevel b ((modLine i f s).line i) = false :=
  line_modLine_of (Q := fun l => lineLevel b l = false) i (fun l hl => (hf l).trans hl)
    (by cases b <;> rfl) h

/-- A command that was sent leaves the level of its line low. -/
theorem ifDone_emit_low (c : Command) :
    (emit i c s).IfDone fun t => lineLevel t.cfg.bus (t.line i) = false := by
  refine ifDone_last fun _ s => ?_
  have hadds := endsOr_of_ends (ends_memWrite (closed_onlyAdds i) (commandAccess s.cfg.cursorCtrl c).1
    (commandAccess s.cfg.cursorCtrl c).2 s)
  refine endsOr_andThen (hadds.ifDone.and (ifDone_memWrite_low _ _)).ifDone ?_
  rintro _ t ⟨⟨⟨hcfg, -⟩, -, -⟩, hlow⟩
  rw [← hcfg] at hlow
  exact lineLevel_modLine_low (s := elapse t) (fun _ => rfl) hlow

/-- The line of a chip that becomes known right after a command is low. -/
theorem knownLinesLow_known {c : Command} (ht : emit i c s = .done () t) (h : KnownLinesLow t) :
    KnownLinesLow (setChipUnknown i false t) := by
  have hlow := ifDone_emit_low (i := i) (s := s) c
  rw [ht] at hlow
  have hrest := ((closed_onlyAdds i).setChipUnknown t false).rest
  exact knownLinesLow_of_rest hrest h fun _ => lineLevel_modLine_low (fun _ => rfl) hlow

theorem steady_knownLinesLow : Steady (fun _ => False) KnownLinesLow where
  elapse _ := id
  dropVerdict _ := id
  dropSample _ := id
  clockTo _ _ := id
  record _ _ := id
  drive s v h := by simpa [KnownLinesLow] using h
  scramble _ := id
  setPin _ _ _ := False.elim

/-- After an `Err` on line `i` the lines of known chips are low once line `i` is flagged. -/
theorem keptBetween_knownLinesLow (i : Nat) :
    KeptBetween i KnownLinesLow fun s => KnownLinesLow (setChipUnknown i true s) where
  steady := steady_knownLinesLow
  setMode _ _ h := h.modLine i fun _ _ => id
  book _ _ _ h := h.modLine i fun _ _ => id
  write _ reg v h := endsOr_knownLinesLow_memWrite h reg v
  readByte _ reg h := endsOr_knownLinesLow_parRead h reg (ends_readU8 (closed_onlyAdds i))
    (fun _ => steady_readU8 (steady_lineKnownLow_ser i)) fun _ => ifDone_readU8_low
  readWord _ reg h := endsOr_knownLinesLow_parRead h reg (ends_readU16 (closed_onlyAdds i))
    (fun _ => steady_readU16 (steady_lineKnownLow_ser i)) fun _ => ifDone_readU16_low
  known _ _ _ ht h := knownLinesLow_known ht h

theorem knownLinesLow_construct (p : Params) (n : Nat) (t0 : Instant) :
    KnownLinesLow (State.construct p n t0) := by
  intro l hl
  rw [State.construct, List.mem_replicate] at hl
  rw [hl.2]
  exact lineKnownLow_atReset _ t0

end Sys2Proof.Machine
end

section
/-! Obligations of 10_state.md: what every step keeps, the state after construction, and the step. -/

namespace Sys2Proof.Machine

/-- Settles O54: no primitive and no booking puts the observation out of order, and neither does
handing out a result or setting a flag. -/
theorem stepKeepsOrderly : Obligations.StepKeepsOrderly := by
  intro s t hs ht
  rcases step_answered keptBetween_orderly (fun _ _ => id) hs ht with rfl | ht
  · exact hs
  · cases ht with
    | value v hu => exact hu
    | error i e hu => exact hu.modLine i fun _ => id

/-- Settles O56: while no result is an `Err`, each access was done and left the lines low. -/
theorem stepKeepsQuiescent : Obligations.StepKeepsQuiescent := by
  intro s t hs ht hok
  obtain ⟨-, -, -, -, ⟨new, hnew, -⟩, -⟩ := stepOnlyAdds s t ht
  have hquiet : Quiescent s := hs fun r hr => hok r (hnew ▸ List.mem_append_left new hr)
  rcases step_answered keptBetween_quiescent (fun _ _ => id) hquiet ht with rfl | ht
  · exact hquiet
  · cases ht with
    | value v hu => exact hu
    | error i e _ => exact absurd (hok (.err e) (by simp)) (by simp [HostResult.isErr])

/-- Settles O58: a line is raised within an access only, and after an access that failed it is the
line that is flagged. -/
theorem stepKeepsKnownLinesLow : Obligations.StepKeepsKnownLinesLow := by
  intro s t hs ht
  rcases step_answered keptBetween_knownLinesLow (fun _ _ => id) hs ht with rfl | ht
  · exact hs
  · cases ht with
    | value v hu => exact hu
    | error i e hu => exact hu

/-- Settles O6: `fetch` takes the word and hands on the instruction. -/
theorem stepRunsDecodedInstr : Obligations.StepRunsDecodedInstr := by
  intro s w rest c hp hd
  have hfetch : fetch s = .instr c { s with pending := rest } := by simp [fetch, hp, hd]
  simp only [step, hfetch]

theorem decode_tablePortWord {nbits w : Nat} {c : Instr} (h : decodeTableWord nbits w = some c) :
    decode (tablePortWord nbits w) = .ok c := by
  unfold decodeTableWord at h
  split at h
  next hd => cases h; exact hd
  · cases h

/-- Settles O8: the word that was put in front is taken again, which gives back the state. -/
theorem tableWordRuns : Obligations.TableWordRuns := fun s nbits w c h =>
  stepRunsDecodedInstr (s.withFetchWord nbits w) _ s.pending c rfl (decode_tablePortWord h)

/-- Settles O9: construction makes every line a line at reset. -/
theorem constructionState : Obligations.ConstructionState := by
  intro p n t0
  refine ⟨by simp [State.numLines, State.construct], rfl, rfl, rfl, rfl, rfl, fun i hi => ?_⟩
  have hline : (State.construct p n t0).line i = .atReset t0 := by
    simp [State.line, State.construct, List.getD_eq_getElem?_getD, hi]
  rw [hline]
  exact ⟨rfl, rfl, rfl, rfl⟩

/-- Settles O11, by computing the nine closed facts. -/
theorem selectBits : Obligations.SelectBits := by
  unfold Obligations.SelectBits
  decide

/-- Settles O55: construction leaves the observation in order, whatever the parameters. -/
theorem resetOrderly : Obligations.ResetOrderly := orderly_construct _ _ _

/-- Settles O57: construction leaves every line low, whatever the parameters. -/
theorem resetQuiescent : Obligations.ResetQuiescent := fun _ => quiescent_construct _ _ _

/-- Settles O59: after construction no chip is known. -/
theorem resetKnownLinesLow : Obligations.ResetKnownLinesLow := knownLinesLow_construct _ _ _

end Sys2Proof.Machine
end

section
/-!
SUPPORT. What a parallel read does in a cooperative environment: which values a byte or a word is
sampled from, the pins after the access, and how a read operation completes (`completes_read`).
-/

namespace Sys2Proof.Machine

/-- The values `vs` sampled for one byte `b` where the environment gives `given`: one per bus cycle,
and where the given ones suffice it is they that are sampled, on 4 wires the high nibble first
(42_parallel_transport.md R149). -/
structure SampledByte (p : Params) (given vs : List Byte) (b : Byte) : Prop where
  length_eq : vs.length = 8 / p.width
  par8 : p.bus = .par8 → vs = [b] ∧ ∀ x r, given = x :: r → b = x
  par4 : p.bus = .par4 → ∀ x y r, given = x :: y :: r →
    vs = [onWires p x, onWires p y] ∧ b = joinNibbles (onWires p x) (onWires p y)

/-- The values `vs` sampled for one word `w`: those of its high byte, then those of its low byte
(42_parallel_transport.md R150). -/
def SampledWord (p : Params) (given vs : List Byte) (w : Half) : Prop :=
  ∃ high low hi lo, vs = high ++ low ∧ w = hi ++ lo ∧ SampledByte p given high hi
    ∧ SampledByte p (given.drop high.length) low lo

/-- A word takes the cycles of two bytes. -/
theorem SampledWord.length_eq {p : Params} {given vs : List Byte} {w : Half}
    (h : SampledWord p given vs w) : vs.length = 16 / p.width := by
  obtain ⟨high, low, hi, lo, rfl, rfl, hhi, hlo⟩ := h
  rw [List.length_append, hhi.length_eq, hlo.length_eq]
  cases hbus : p.bus <;> simp [Params.width, hbus]

/-- The operation is done with `a`: one read cycle for each of the values `vs`, which are used up. -/
def Reads {α : Type} (i : Nat) (s : State) (vs : List Byte) (a : α) (r : OpResult α) : Prop :=
  Goes i s (vs.flatMap (readPulse i))
    { pinView i s with e := false, samples := s.env.samples.drop vs.length } a r

/-- The pins after a read access of `n` values (42_parallel_transport.md R153). -/
def PinView.afterRead (v : PinView) (ofRam : Bool) (n : Nat) : PinView :=
  { v with
    rs := ofRam, rw := true, wires := v.data, dir := .out, e := false, samples := v.samples.drop n }

section

variable {i : Nat} {s : State}

theorem reads_readU8 (h : Ready i s) (hb : s.cfg.bus.isParallel = true) :
    ∃ vs b, SampledByte s.cfg s.env.samples vs b ∧ Reads i s vs b (readU8 i s) := by
  obtain ⟨vs, b, hlen, h8, h4, hg⟩ := goes_readU8 h hb
  exact ⟨vs, b, ⟨hlen, h8, h4⟩, hg⟩

theorem reads_readU16 (h : Ready i s) (hb : s.cfg.bus.isParallel = true) :
    ∃ vs w, SampledWord s.cfg s.env.samples vs w ∧ Reads i s vs w (readU16 i s) := by
  obtain ⟨high, hi, hhi, t, e, g, v⟩ := reads_readU8 h hb
  have hcfg : t.cfg = s.cfg := g.rest.1
  have hsamples : t.env.samples = s.env.samples.drop high.length := congrArg PinView.samples v
  obtain ⟨low, lo, hlo, u, e', g', v'⟩ := reads_readU8 (g.ready h) (by rwa [hcfg])
  rw [hcfg, hsamples] at hlo
  refine ⟨high ++ low, hi ++ lo, ⟨high, low, hi, lo, rfl, rfl, hhi, hlo⟩, u,
    by simp [readU16, e, e', OpResult.andThen], ?_, ?_⟩
  · rw [List.flatMap_append]
    exact g.trans g'
  · rw [v', v, hsamples, List.drop_drop, List.length_append]

variable {α : Type} {P : List Byte → α → Prop} {read : Nat → State → OpResult α}

/-- A parallel read access: the wires are inputs from before the select until after the last cycle
(R153). -/
theorem goes_parRead (h : Ready i s) (reg : Reg) (hrw : regRw reg = true)
    (hread : ∀ t, Ready i t → t.cfg = s.cfg → t.env.samples = s.env.samples →
      ∃ vs a, P vs a ∧ Reads i t vs a (read i t)) :
    ∃ vs a, P vs a ∧ Goes i s
      ([.dir .into, .rs (regRs reg), .rw true] ++ vs.flatMap (readPulse i) ++ [.dir .out])
      ((pinView i s).afterRead (regRs reg) vs.length) a (parRead i reg read s) := by
  obtain ⟨t1, e1, g1, v1⟩ := goes_setDir h .into
  obtain ⟨t2, e2, g2, v2⟩ := goes_selectReg (g1.ready h) reg
  have g12 := g1.trans g2
  rw [v1] at v2
  have hsamples : t2.env.samples = s.env.samples := congrArg PinView.samples v2
  obtain ⟨vs, a, hP, t3, e3, g3, v3⟩ := hread t2 (g12.ready h) g12.rest.1 hsamples
  rw [v2, hsamples] at v3
  have g123 := g12.trans g3
  have hdata : t3.data = s.data := congrArg PinView.data v3
  obtain ⟨t4, e4, g4, v4⟩ := goes_setDir (g123.ready h) .out
  refine ⟨vs, a, hP, t4, by simp [parRead, e1, e2, e3, e4, OpResult.andThen], ?_, ?_⟩
  · simpa [hrw] using g123.trans g4
  · rw [v4, v3, hdata, hrw]; rfl

/-- A scheduled read: the deadline wait, the access and the booking of `T_READ`
(44_timing_scheduler.md R195). -/
theorem schedRead_coop (h : Ready i s) (reg : Reg) (hrw : regRw reg = true)
    (hread : ∀ t, Ready i t → t.cfg = s.cfg → t.env.samples = s.env.samples →
      ∃ vs a, P vs a ∧ Reads i t vs a (read i t)) :
    ∃ vs a t, P vs a ∧ schedRead i reg read s = .done a t
      ∧ Good i s (readEvents i (regRs reg) vs) t
      ∧ pinView i t = (pinView i s).afterRead (regRs reg) vs.length
      ∧ (t.line i).deadline = t.env.clock + s.cfg.tRead := by
  obtain ⟨t1, e1, g1, v1⟩ := goes_awaitDeadline (i := i) h.2
  have hcfg : t1.cfg = s.cfg := g1.rest.1
  have hsamples : t1.env.samples = s.env.samples := congrArg PinView.samples v1
  obtain ⟨vs, a, hP, t2, e2, g2, v2⟩ := goes_parRead (g1.ready h) reg hrw
    fun t ht hc hs => hread t ht (hc.trans hcfg) (hs.trans hsamples)
  have g12 := g1.trans g2
  obtain ⟨t3, e3, g3, v3, d3⟩ := book_coop (g12.ready h) s.cfg.tRead
  refine ⟨vs, a, t3, hP, ?_, ?_, by rw [v3, v2, v1], d3⟩
  · simp [schedRead, e1, e2, g12.rest.1, e3, OpResult.andThen]
  · simpa [readEvents] using g12.trans g3

/-- A read operation completes with what its scheduled read gives (47_facade.md R264, R265). -/
theorem completes_read (h : Ready i s) (hb : s.cfg.bus.isParallel = true) {c : Instr} (reg : Reg)
    (hrw : regRw reg = true) (result : α → HostResult)
    (hx : exec c s = readOperation i
      (fun s => (schedRead i reg read s).andThen fun a s => .done (result a) s) s)
    (hread : ∀ t, Ready i t → t.cfg = s.cfg → t.env.samples = s.env.samples →
      ∃ vs a, P vs a ∧ Reads i t vs a (read i t)) :
    ∃ vs a, P vs a ∧ Completes c s (ReadBack i (regRs reg) vs (result a) s) := by
  obtain ⟨vs, a, t, hP, e, g, v, hd⟩ := schedRead_coop h reg hrw hread
  refine ⟨vs, a, hP, answer (result a) t, ?_, ?_⟩
  · rw [hx]
    simp [readOperation, hb, onLine, h.1, complete, e, OpResult.andThen]
  · exact ⟨by simp [g.results], g.shape, congrArg PinView.mode v, hd,
      congrArg PinView.chipUnknown v, congrArg PinView.dir v, congrArg PinView.rs v,
      congrArg PinView.rw v, congrArg PinView.data v, congrArg PinView.wires v,
      congrArg PinView.e v, congrArg PinView.cs v, g.rest⟩

end

variable {i : Nat} {s : State}

theorem completes_readStatus (h : Ready i s) (hb : s.cfg.bus.isParallel = true) :
    ∃ vs b, SampledByte s.cfg s.env.samples vs b ∧ Completes (.readStatus i) s
      (ReadBack i false vs (.okStatus (statusBusy b) (statusAc b)) s) :=
  completes_read (c := .readStatus i) h hb .status rfl
    (fun b => .okStatus (statusBusy b) (statusAc b)) rfl
    fun _ ht hc hs => hc ▸ hs ▸ reads_readU8 ht (hc ▸ hb)

theorem completes_readRam (h : Ready i s) (hb : s.cfg.bus.isParallel = true) :
    ∃ vs w, SampledWord s.cfg s.env.samples vs w ∧ Completes (.readRam i) s
      (ReadBack i true vs (.okWord w) s) :=
  completes_read (c := .readRam i) h hb .dataRd rfl .okWord rfl
    fun _ ht hc hs => hc ▸ hs ▸ reads_readU16 ht (hc ▸ hb)

/-- Four wires carry a nibble whole (log 17). -/
theorem onWires_nibble {p : Params} (h : p.bus = .par4) (n : BitVec 4) :
    onWires p (n.setWidth 8) = n.setWidth 8 := by
  have : ∀ n : BitVec 4, n.setWidth 8 &&& BitVec.ofNat 8 (2 ^ 4 - 1) = n.setWidth 8 := by decide
  simpa [onWires, Params.width, h] using this n

/-- Two nibbles are joined by concatenation (20_memory.md R55). -/
theorem joinNibbles_eq_append (hi lo : BitVec 4) :
    joinNibbles (hi.setWidth 8) (lo.setWidth 8) = hi ++ lo := by
  revert hi lo; decide

/-- Bit 7 of a byte is the top bit of its high nibble (20_memory.md R58). -/
theorem statusBusy_append (hi lo : BitVec 4) : statusBusy (hi ++ lo) = hi.getLsbD 3 := by
  revert hi lo; decide

end Sys2Proof.Machine
end

section
/-! Obligations of 20_memory.md about the reads. -/

namespace Sys2Proof.Machine

/-- Settles O22: of the completion of a read (`completes_readStatus`) the values given decide the
byte on 8 wires and its two nibbles on 4. -/
theorem readStatusCompletes : Obligations.ReadStatusCompletes := by
  refine fun i s h => ⟨fun hbus v rest hs => ?_, fun hbus hi lo rest hs => ?_⟩
  · obtain ⟨vs, b, hvs, hc⟩ := completes_readStatus h (by simp [hbus, Bus.isParallel])
    obtain ⟨rfl, hb⟩ := hvs.par8 hbus
    obtain rfl := hb v rest hs
    exact hc
  · obtain ⟨vs, b, hvs, hc⟩ := completes_readStatus h (by simp [hbus, Bus.isParallel])
    obtain ⟨rfl, rfl⟩ := hvs.par4 hbus _ _ rest hs
    rwa [onWires_nibble hbus, onWires_nibble hbus, joinNibbles_eq_append, statusBusy_append] at hc

/-- Settles O24: the completion of a read (`completes_readStatus`, `completes_readRam`) needs no
given sample. -/
theorem readsCompleteOnAnySample : Obligations.ReadsCompleteOnAnySample := by
  refine fun i s h hb => ⟨?_, ?_⟩
  · obtain ⟨vs, b, hvs, t, hx, ht⟩ := completes_readStatus h hb
    exact ⟨t, hx, vs, _, _, hvs.length_eq, ht⟩
  · obtain ⟨vs, w, hvs, t, hx, ht⟩ := completes_readRam h hb
    exact ⟨t, hx, vs, w, hvs.length_eq, ht⟩

end Sys2Proof.Machine
end

section
/-!
SUPPORT. The decoder and the encoder (30_encoding.md R72 to R75, R87): a field under a fixed base,
the line passing through the byte decoders, which port words decode, and that a word which decodes
is the encoding of its instruction.
-/

namespace Sys2Proof

open Machine

/-! ### A field below a fixed base -/

/-- The bits of a field of width `n` in the low end of a byte (30_encoding.md R72). -/
def fieldMask (n : Nat) : Byte := BitVec.ofNat 8 (2 ^ n - 1)

theorem getLsbD_fieldMask (n k : Nat) :
    (fieldMask n).getLsbD k = (decide (k < 8) && decide (k < n)) := by
  simp [fieldMask, BitVec.getLsbD_ofNat, Nat.testBit_two_pow_sub_one]

/-- A byte is its base with its field put below it. -/
theorem base_or_field {n : Nat} {b base : Byte} (h : b &&& ~~~fieldMask n = base) :
    base ||| ((b.extractLsb' 0 n).setWidth 8 &&& fieldMask n) = b := by
  subst h
  apply BitVec.eq_of_getLsbD_eq
  intro k hk
  have hm := getLsbD_fieldMask n k
  by_cases hn : k < n <;> simp_all

/-! ### The encoder -/

theorem payloadBytes_append (h l : Byte) : payloadBytes (.two (h ++ l)) = [h, l] := by
  simp only [payloadBytes, BitVec.extractLsb'_append_eq_left, BitVec.extractLsb'_append_eq_right]

theorem encode_write (i : Nat) (h l : Byte) :
    encode (.write i (h ++ l)) = ⟨i, .basic, .dataWr, [h, l]⟩ :=
  congrArg (PortWord.mk i .basic .dataWr) (payloadBytes_append h l)

theorem encode_graphicRamAddr (i : Nat) (x : BitVec 6) (y : BitVec 4) :
    encode (.graphicRamAddr i x y) = ⟨i, .extendedOrGraphic, .cmd,
      [0x80#8 ||| (y.setWidth 8 &&& 0x0F#8), 0x80#8 ||| (x.setWidth 8 &&& 0x3F#8)]⟩ :=
  congrArg (PortWord.mk i .extendedOrGraphic .cmd) (payloadBytes_append _ _)

/-! ### The line passes through the byte decoders -/

/-- The same command on line `i`; a read stays as it is. -/
def Instr.onLine (i : Nat) (c : Instr) : Instr :=
  match commandOf c with
  | some k => instrOf i k
  | none => c

@[simp] theorem Instr.onLine_instrOf (i j : Nat) (k : Command) :
    (instrOf j k).onLine i = instrOf i k := by
  cases k <;> rfl

theorem decodeBasicByte_onLine (i : Nat) (b : Byte) :
    decodeBasicByte i b = (decodeBasicByte 0 b).map (Instr.onLine i) := by
  simp only [decodeBasicByte, apply_ite (Except.map (Instr.onLine i))]
  rfl

theorem decodeExtendedByte_onLine (i : Nat) (b : Byte) :
    decodeExtendedByte i b = (decodeExtendedByte 0 b).map (Instr.onLine i) := by
  simp only [decodeExtendedByte, apply_ite (Except.map (Instr.onLine i))]
  rfl

/-- What a byte is decoded to on one line it is decoded to on every line. -/
theorem decodeBasicByte_of_line_zero {k : Command} {b : Byte} (i : Nat)
    (h : decodeBasicByte 0 b = .ok (instrOf 0 k)) : decodeBasicByte i b = .ok (instrOf i k) := by
  rw [decodeBasicByte_onLine, h, Except.map, Instr.onLine_instrOf]

theorem decodeExtendedByte_of_line_zero {k : Command} {b : Byte} (i : Nat)
    (h : decodeExtendedByte 0 b = .ok (instrOf 0 k)) :
    decodeExtendedByte i b = .ok (instrOf i k) := by
  rw [decodeExtendedByte_onLine, h, Except.map, Instr.onLine_instrOf]

theorem exists_map_eq_ok {ε α β : Type} (f : α → β) (r : Except ε α) :
    (∃ y, r.map f = .ok y) ↔ r.isOk = true := by
  cases r <;> simp [Except.map, Except.isOk, Except.toBool]

/-- Whether a byte is a command does not depend on the line. -/
theorem exists_decodeBasicByte_iff (i : Nat) (b : Byte) :
    (∃ c, decodeBasicByte i b = .ok c) ↔ (decodeBasicByte 0 b).isOk = true := by
  rw [decodeBasicByte_onLine, exists_map_eq_ok]

theorem exists_decodeExtendedByte_iff (i : Nat) (b : Byte) :
    (∃ c, decodeExtendedByte i b = .ok c) ↔ (decodeExtendedByte 0 b).isOk = true := by
  rw [decodeExtendedByte_onLine, exists_map_eq_ok]

/-! ### The two-byte command -/

/-- `GraphicRamAddr` is the pairs `1000 yyyy`, `10xx xxxx` (30_encoding.md R74, R87). -/
theorem decodeExtendedPair_eq_ok_iff {i : Nat} {b1 b2 : Byte} {c : Instr} :
    decodeExtendedPair i b1 b2 = .ok c ↔ b1 &&& 0xF0#8 = 0x80#8 ∧ b2 &&& 0xC0#8 = 0x80#8
      ∧ .graphicRamAddr i (b2.extractLsb' 0 6) (b1.extractLsb' 0 4) = c := by
  unfold decodeExtendedPair
  split_ifs <;> simp [*]

/-- The first byte decides whether a pair can be completed to a command. -/
theorem exists_decodeExtendedPair_iff (i : Nat) (b : Byte) :
    (∃ b2 c, decodeExtendedPair i b b2 = .ok c) ↔ b &&& 0xF0#8 = 0x80#8 := by
  simp only [decodeExtendedPair_eq_ok_iff]
  exact ⟨fun ⟨_, _, h, _⟩ => h, fun h => ⟨0x80#8, _, h, rfl, rfl⟩⟩

theorem decode_encode_graphicRamAddr (i : Nat) (x : BitVec 6) (y : BitVec 4) :
    decode (encode (.graphicRamAddr i x y)) = .ok (.graphicRamAddr i x y) := by
  have hy : ∀ y : BitVec 4, (0x80#8 ||| (y.setWidth 8 &&& 0x0F#8)) &&& 0xF0#8 = 0x80#8
      ∧ (0x80#8 ||| (y.setWidth 8 &&& 0x0F#8)).extractLsb' 0 4 = y := by decide
  have hx : ∀ x : BitVec 6, (0x80#8 ||| (x.setWidth 8 &&& 0x3F#8)) &&& 0xC0#8 = 0x80#8
      ∧ (0x80#8 ||| (x.setWidth 8 &&& 0x3F#8)).extractLsb' 0 6 = x := by decide
  rw [encode_graphicRamAddr]
  refine decodeExtendedPair_eq_ok_iff.mpr ⟨(hy y).1, (hx x).1, ?_⟩
  rw [(hy y).2, (hx x).2]

/-! ### A word that decodes is an encoding -/

/-- In the Basic set `0x24` alone stands for a command the table files in the other set
(30_encoding.md R75). -/
theorem encode_of_decodeBasicByte {i : Nat} {b : Byte} {c : Instr}
    (h : decodeBasicByte i b = .ok c) :
    encode c = ⟨i, .basic, .cmd, [b]⟩
      ∨ b = 0x24#8 ∧ encode c = ⟨i, .extendedOrGraphic, .cmd, [b]⟩ := by
  -- the branches in the decoder's order: a fixed byte each, then the bases with fields
  unfold decodeBasicByte at h
  rcases ite_eq_iff.mp h with ⟨rfl, ⟨⟩⟩ | ⟨-, h⟩
  · exact .inl rfl
  rcases ite_eq_iff.mp h with ⟨rfl, ⟨⟩⟩ | ⟨-, h⟩
  · exact .inr ⟨rfl, rfl⟩
  rcases ite_eq_iff.mp h with ⟨rfl, ⟨⟩⟩ | ⟨-, h⟩
  · exact .inl rfl
  rcases ite_eq_iff.mp h with ⟨rfl, ⟨⟩⟩ | ⟨-, h⟩
  · exact .inl rfl
  rcases ite_eq_iff.mp h with ⟨hentry, ⟨⟩⟩ | ⟨-, h⟩
  · have hbyte : ∀ b : Byte, b &&& 0xFC#8 = 0x04#8 →
        0x04#8 ||| (bitByte (b.getLsbD 1) <<< 1) ||| bitByte (b.getLsbD 0) = b := by decide
    exact .inl (congrArg (PortWord.mk i .basic .cmd [·]) (hbyte b hentry))
  rcases ite_eq_iff.mp h with ⟨hdisplay, ⟨⟩⟩ | ⟨-, h⟩
  · have hbyte : ∀ b : Byte, b &&& 0xF8#8 = 0x08#8 → 0x08#8 ||| (bitByte (b.getLsbD 2) <<< 2)
        ||| (bitByte (b.getLsbD 1) <<< 1) ||| bitByte (b.getLsbD 0) = b := by decide
    exact .inl (congrArg (PortWord.mk i .basic .cmd [·]) (hbyte b hdisplay))
  rcases ite_eq_iff.mp h with ⟨hcursor, ⟨⟩⟩ | ⟨-, h⟩
  · have hbyte : ∀ b : Byte, b &&& 0xF3#8 = 0x10#8 →
        cursorCtrlByte .default (b.getLsbD 3) (b.getLsbD 2) = b := by decide
    exact .inl (congrArg (PortWord.mk i .basic .cmd [·]) (hbyte b hcursor))
  rcases ite_eq_iff.mp h with ⟨hcg, ⟨⟩⟩ | ⟨-, h⟩
  · exact .inl (congrArg (PortWord.mk i .basic .cmd [·]) (base_or_field (n := 6) hcg))
  rcases ite_eq_iff.mp h with ⟨hdd, ⟨⟩⟩ | ⟨-, h⟩
  · exact .inl (congrArg (PortWord.mk i .basic .cmd [·]) (base_or_field (n := 7) hdd))
  cases h

/-- In the Extended/Graphic set `0x20` alone stands for a command the table files in the other set
(30_encoding.md R75). -/
theorem encode_of_decodeExtendedByte {i : Nat} {b : Byte} {c : Instr}
    (h : decodeExtendedByte i b = .ok c) :
    encode c = ⟨i, .extendedOrGraphic, .cmd, [b]⟩
      ∨ b = 0x20#8 ∧ encode c = ⟨i, .basic, .cmd, [b]⟩ := by
  -- the branches in the decoder's order: a fixed byte each, then the bases with fields
  unfold decodeExtendedByte at h
  rcases ite_eq_iff.mp h with ⟨rfl, ⟨⟩⟩ | ⟨-, h⟩
  · exact .inr ⟨rfl, rfl⟩
  rcases ite_eq_iff.mp h with ⟨rfl, ⟨⟩⟩ | ⟨-, h⟩
  · exact .inl rfl
  rcases ite_eq_iff.mp h with ⟨rfl, ⟨⟩⟩ | ⟨-, h⟩
  · exact .inl rfl
  rcases ite_eq_iff.mp h with ⟨rfl, ⟨⟩⟩ | ⟨-, h⟩
  · exact .inl rfl
  rcases ite_eq_iff.mp h with ⟨rfl, ⟨⟩⟩ | ⟨-, h⟩
  · exact .inl rfl
  rcases ite_eq_iff.mp h with ⟨rfl, ⟨⟩⟩ | ⟨-, h⟩
  · exact .inl rfl
  rcases ite_eq_iff.mp h with ⟨hreverse, ⟨⟩⟩ | ⟨-, h⟩
  · exact .inl (congrArg (PortWord.mk i .extendedOrGraphic .cmd [·])
      (base_or_field (n := 2) hreverse))
  rcases ite_eq_iff.mp h with ⟨hoffset, ⟨⟩⟩ | ⟨-, h⟩
  · exact .inl (congrArg (PortWord.mk i .extendedOrGraphic .cmd [·])
      (base_or_field (n := 5) hoffset))
  rcases ite_eq_iff.mp h with ⟨_, ⟨⟩⟩ | ⟨_, ⟨⟩⟩

theorem encode_of_decodeExtendedPair {i : Nat} {b1 b2 : Byte} {c : Instr}
    (h : decodeExtendedPair i b1 b2 = .ok c) :
    encode c = ⟨i, .extendedOrGraphic, .cmd, [b1, b2]⟩ := by
  obtain ⟨h1, h2, rfl⟩ := decodeExtendedPair_eq_ok_iff.mp h
  rw [encode_graphicRamAddr]
  exact congrArg₂ (PortWord.mk i .extendedOrGraphic .cmd [·, ·]) (base_or_field (n := 4) h1)
    (base_or_field (n := 6) h2)

/-- What a port word that decodes looks like. -/
theorem decode_cases {w : PortWord} {c : Instr} (h : decode w = .ok c) :
    (∃ i b, w = ⟨i, .basic, .cmd, [b]⟩ ∧ decodeBasicByte i b = .ok c)
      ∨ (∃ i b, w = ⟨i, .extendedOrGraphic, .cmd, [b]⟩ ∧ decodeExtendedByte i b = .ok c)
      ∨ (∃ i b1 b2, w = ⟨i, .extendedOrGraphic, .cmd, [b1, b2]⟩
          ∧ decodeExtendedPair i b1 b2 = .ok c)
      ∨ (∃ i set hi lo, w = ⟨i, set, .dataWr, [hi, lo]⟩ ∧ c = .write i (hi ++ lo))
      ∨ (∃ i set, w = ⟨i, set, .status, []⟩ ∧ c = .readStatus i)
      ∨ (∃ i set, w = ⟨i, set, .dataRd, []⟩ ∧ c = .readRam i) := by
  obtain ⟨i, set, reg, bytes⟩ := w
  cases reg with
  | cmd =>
    match set, bytes, h with
    | .basic, [b], h => exact .inl ⟨i, b, rfl, h⟩
    | .extendedOrGraphic, [b], h => exact .inr (.inl ⟨i, b, rfl, h⟩)
    | .extendedOrGraphic, [b1, b2], h => exact .inr (.inr (.inl ⟨i, b1, b2, rfl, h⟩))
  | dataWr =>
    match bytes, h with
    | [hi, lo], h => cases h; exact .inr (.inr (.inr (.inl ⟨i, set, hi, lo, rfl, rfl⟩)))
  | status =>
    match bytes, h with
    | [], h => cases h; exact .inr (.inr (.inr (.inr (.inl ⟨i, set, rfl, rfl⟩))))
  | dataRd =>
    match bytes, h with
    | [], h => cases h; exact .inr (.inr (.inr (.inr (.inr ⟨i, set, rfl, rfl⟩))))

end Sys2Proof
end

section
/-! Obligations of 30_encoding.md. -/

namespace Sys2Proof.Machine

/-- Settles O1: a command with a field is decoded as on line 0, where its operands are few. -/
theorem decodeOfEncode : Obligations.DecodeOfEncode := by
  intro c
  cases c with
  | write i d =>
    exact congrArg (fun d => Except.ok (Instr.write i d)) BitVec.extractLsb'_append_extractLsb'
  | entryMode i inc sh => cases inc <;> cases sh <;> rfl
  | displayOnOff i d c b => cases d <;> cases c <;> cases b <;> rfl
  | cursorDisplayCtrl i sd r => cases sd <;> cases r <;> rfl
  | cgRamAddr i a => exact decodeBasicByte_of_line_zero (k := .cgRamAddr a) i (by revert a; decide)
  | ddRamAddr i a => exact decodeBasicByte_of_line_zero (k := .ddRamAddr a) i (by revert a; decide)
  | reverse i l => exact decodeExtendedByte_of_line_zero (k := .reverse l) i (by revert l; decide)
  | scrollOffset i o =>
    exact decodeExtendedByte_of_line_zero (k := .scrollOffset o) i (by revert o; decide)
  | graphicRamAddr i x y => exact decode_encode_graphicRamAddr i x y
  | clear | home | selectBasic | standBy | enableScroll | enableCgRam | selectExtended
  | selectGraphic | readStatus | readRam => rfl

/-- Settles O2, by the forms of a word that decodes (`decode_cases`). -/
theorem encodeOfDecode : Obligations.EncodeOfDecode := by
  intro w c h
  rcases decode_cases h with ⟨i, b, rfl, hb⟩ | ⟨i, b, rfl, hb⟩ | ⟨i, b1, b2, rfl, hb⟩
    | ⟨i, set, hi, lo, rfl, rfl⟩ | ⟨i, set, rfl, rfl⟩ | ⟨i, set, rfl, rfl⟩
  · rcases encode_of_decodeBasicByte hb with he | ⟨rfl, he⟩ <;> simp [he]
  · rcases encode_of_decodeExtendedByte hb with he | ⟨rfl, he⟩ <;> simp [he]
  · simp [encode_of_decodeExtendedPair hb]
  · simp [encode_write]
  · exact ⟨rfl, rfl, rfl, .inr (.inl nofun)⟩
  · exact ⟨rfl, rfl, rfl, .inr (.inl nofun)⟩

/-- Settles O3, by computing the eight closed facts. -/
theorem writtenWordsDecode : Obligations.WrittenWordsDecode :=
  ⟨rfl, rfl, rfl, rfl, rfl, rfl, rfl, rfl⟩

/-- Settles O4: on line 0 the 256 bytes are compared with the lists. -/
theorem reservedBytes : Obligations.ReservedBytes := by
  refine fun i b => ⟨?_, ?_, ?_⟩
  · refine (exists_decodeBasicByte_iff i b).trans ?_
    revert b; decide
  · refine (exists_decodeExtendedByte_iff i b).trans ?_
    revert b; decide
  · refine (exists_decodeExtendedPair_iff i b).trans ?_
    revert b; decide

/-- Settles O5, by reading the lines. -/
theorem programTextReads : Obligations.ProgramTextReads := ⟨rfl, rfl, rfl⟩

/-- Settles O10, one variant at a time. -/
theorem executionTimes : Obligations.ExecutionTimes := by
  refine ⟨rfl, fun c hc => ?_⟩
  cases c with
  | clear => exact absurd rfl hc
  | _ => rfl

/-- Settles O13, by the four levels of `RS` and `RW`. -/
theorem syncByteBits : Obligations.SyncByteBits := by
  intro rs rw
  cases rs <;> cases rw <;> rfl

end Sys2Proof.Machine
end

section
/-!
SUPPORT. The access each Basic-set command makes, as the spec writes its byte, and how an instruction
completes by the class of its command without busy polling (`completes_basicOp`,
`completes_neutral`).
-/

namespace Sys2Proof.Machine

/-! ### The bytes of 30_encoding.md R73, a field below its base -/

theorem accessOf_entryMode (p : Params) (inc sh : Bool) :
    accessOf p (.entryMode inc sh)
      = (false, [0b000001#6 ++ BitVec.ofBool inc ++ BitVec.ofBool sh]) := by
  cases inc <;> cases sh <;> rfl

theorem accessOf_displayOnOff (p : Params) (d c b : Bool) :
    accessOf p (.displayOnOff d c b)
      = (false, [0b00001#5 ++ BitVec.ofBool d ++ BitVec.ofBool c ++ BitVec.ofBool b]) := by
  cases d <;> cases c <;> cases b <;> rfl

theorem accessOf_cgRamAddr (p : Params) (a : BitVec 6) :
    accessOf p (.cgRamAddr a) = (false, [0b01#2 ++ a]) := by
  have byte : ∀ a : BitVec 6, 0x40#8 ||| (a.setWidth 8 &&& 0x3F#8) = 0b01#2 ++ a := by decide
  exact congrArg (fun b : Byte => (false, [b])) (byte a)

theorem accessOf_ddRamAddr (p : Params) (a : BitVec 7) :
    accessOf p (.ddRamAddr a) = (false, [0b1#1 ++ a]) := by
  have byte : ∀ a : BitVec 7, 0x80#8 ||| (a.setWidth 8 &&& 0x7F#8) = 0b1#1 ++ a := by decide
  exact congrArg (fun b : Byte => (false, [b])) (byte a)

/-- The spec's default bytes of `CursorDisplayCtrl` (30_encoding.md R78). -/
theorem cursorCtrlByte_default (sd r : Bool) :
    cursorCtrlByte .default sd r
      = 0b0001#4 ++ BitVec.ofBool sd ++ BitVec.ofBool r ++ 0b00#2 := by
  cases sd <;> cases r <;> rfl

/-! ### Completion by class -/

/-- The instruction that issues a command executes it (47_facade.md R261). -/
theorem exec_instrOf (i : Nat) (cmd : Command) (s : State) :
    exec (instrOf i cmd) s = execute i cmd s := by
  cases cmd <;> rfl

variable {i : Nat} {s : State} {cmd : Command}

/-- A command of the Basic-set class goes out after the Basic-set selects and leaves the mode Basic
(45_mode_machine.md R214). -/
theorem completes_basicOp (h : Ready i s) (hp : s.cfg.busyPoll = false)
    (hk : classOf s.cfg.writePolicy cmd = .basicOp) :
    Completes (instrOf i cmd) s
      (Sent i (basicPrelude (s.line i).mode) (accessOf s.cfg cmd) (executionTime cmd) .basic s) := by
  refine completes_sent h (exec_instrOf i cmd s) ?_
  rw [execCommand, hk]
  exact sends_basicOp h hp cmd

/-- A command of the neutral class goes out alone and leaves the mode (45_mode_machine.md R212). -/
theorem completes_neutral (h : Ready i s) (hk : classOf s.cfg.writePolicy cmd = .neutral) :
    Completes (instrOf i cmd) s
      (Sent i [] (accessOf s.cfg cmd) (executionTime cmd) (s.line i).mode s) := by
  refine completes_sent h (exec_instrOf i cmd s) ?_
  rw [execCommand, hk]
  exact sends_emit h cmd

end Sys2Proof.Machine
end

section
/-! Obligations of 40_commands_basic.md. -/

namespace Sys2Proof.Machine

/-- Settles O14: the six commands are of the Basic-set class (`completes_basicOp`), with these
bytes. -/
theorem basicCommandsComplete : Obligations.BasicCommandsComplete := by
  refine fun i s h hp => ⟨?clear, ?home, fun inc sh => ?entryMode, fun d c b => ?displayOnOff,
    fun a => ?cgRamAddr, fun a => ?ddRamAddr⟩
  case clear => exact completes_basicOp (cmd := .clear) h hp rfl
  case home => exact completes_basicOp (cmd := .home) h hp rfl
  case entryMode =>
    rw [← accessOf_entryMode s.cfg]
    exact completes_basicOp (cmd := .entryMode inc sh) h hp rfl
  case displayOnOff =>
    rw [← accessOf_displayOnOff s.cfg]
    exact completes_basicOp (cmd := .displayOnOff d c b) h hp rfl
  case cgRamAddr =>
    rw [← accessOf_cgRamAddr s.cfg]
    exact completes_basicOp (cmd := .cgRamAddr a) h hp rfl
  case ddRamAddr =>
    rw [← accessOf_ddRamAddr s.cfg]
    exact completes_basicOp (cmd := .ddRamAddr a) h hp rfl

/-- Settles O15: the command is of the Basic-set class (`completes_basicOp`), its byte the
parameter's. -/
theorem cursorDisplayCtrlCompletes : Obligations.CursorDisplayCtrlCompletes := by
  refine fun i s h hp => ⟨fun sd r => ?completes, fun hdefault sd r => ?byte⟩
  case completes => exact completes_basicOp (cmd := .cursorDisplayCtrl sd r) h hp rfl
  case byte => rw [hdefault, cursorCtrlByte_default]

/-- Settles O16: the policy decides the class of `Write` (`completes_basicOp`,
`completes_neutral`). -/
theorem writeCompletes : Obligations.WriteCompletes := by
  refine fun i v s h hp => ⟨fun hpolicy => ?basicSet, fun hpolicy => ?neutral⟩
  case basicSet => exact completes_basicOp (cmd := .write v) h hp (by simp [classOf, hpolicy])
  case neutral => exact completes_neutral (cmd := .write v) h (by simp [classOf, hpolicy])

end Sys2Proof.Machine
end

section
/-!
SUPPORT. The access each Extended/Graphic-set command with a field makes, as the spec writes its
bytes, and how an instruction of the class completes (`completes_extOp`).
-/

namespace Sys2Proof.Machine

/-! ### The bytes of 30_encoding.md R74, a field below its base -/

theorem accessOf_reverse (p : Params) (l : BitVec 2) :
    accessOf p (.reverse l) = (false, [0b000001#6 ++ l]) := by
  have byte : ∀ l : BitVec 2, 0x04#8 ||| (l.setWidth 8 &&& 0x03#8) = 0b000001#6 ++ l := by decide
  exact congrArg (fun b : Byte => (false, [b])) (byte l)

theorem accessOf_scrollOffset (p : Params) (o : BitVec 5) :
    accessOf p (.scrollOffset o) = (false, [0b010#3 ++ o]) := by
  have byte : ∀ o : BitVec 5, 0x40#8 ||| (o.setWidth 8 &&& 0x1F#8) = 0b010#3 ++ o := by decide
  exact congrArg (fun b : Byte => (false, [b])) (byte o)

/-- One access of two bytes, `y` first (20_memory.md R54). -/
theorem accessOf_graphicRamAddr (p : Params) (x : BitVec 6) (y : BitVec 4) :
    accessOf p (.graphicRamAddr x y) = (false, [0b1000#4 ++ y, 0b10#2 ++ x]) := by
  have high : ∀ y : BitVec 4, 0x80#8 ||| (y.setWidth 8 &&& 0x0F#8) = 0b1000#4 ++ y := by decide
  have low : ∀ x : BitVec 6, 0x80#8 ||| (x.setWidth 8 &&& 0x3F#8) = 0b10#2 ++ x := by decide
  rw [← high, ← low]
  exact congrArg (Prod.mk false) (payloadBytes_append _ _)

/-! ### Completion -/

/-- A command of the Extended/Graphic-set class goes out after `SelectExtended` from Basic, after
nothing otherwise, and leaves Graphic as it is; nothing is polled (45_mode_machine.md R215). -/
theorem completes_extOp {i : Nat} {s : State} {cmd : Command} (h : Ready i s)
    (hk : classOf s.cfg.writePolicy cmd = .extOp) :
    Completes (instrOf i cmd) s
      (Sent i (extPrelude (s.line i).mode) (accessOf s.cfg cmd) (executionTime cmd)
        (extMode (s.line i).mode) s) := by
  refine completes_sent h (exec_instrOf i cmd s) ?_
  rw [execCommand, hk]
  exact sends_extOp h cmd

end Sys2Proof.Machine
end

section
/-! Obligations of 41_commands_extended.md. -/

namespace Sys2Proof.Machine

/-- Settles O17: the six commands are of the Extended/Graphic-set class (`completes_extOp`), with
these bytes. -/
theorem extendedCommandsComplete : Obligations.ExtendedCommandsComplete := by
  refine fun i s h => ⟨?standBy, ?enableScroll, ?enableCgRam, fun l => ?reverse,
    fun o => ?scrollOffset, fun x y => ?graphicRamAddr⟩
  case standBy => exact completes_extOp (cmd := .standBy) h rfl
  case enableScroll => exact completes_extOp (cmd := .enableScroll) h rfl
  case enableCgRam => exact completes_extOp (cmd := .enableCgRam) h rfl
  case reverse =>
    rw [← accessOf_reverse s.cfg]
    exact completes_extOp (cmd := .reverse l) h rfl
  case scrollOffset =>
    rw [← accessOf_scrollOffset s.cfg]
    exact completes_extOp (cmd := .scrollOffset o) h rfl
  case graphicRamAddr =>
    rw [← accessOf_graphicRamAddr s.cfg]
    exact completes_extOp (cmd := .graphicRamAddr x y) h rfl

end Sys2Proof.Machine
end

section
/-!
SUPPORT. What an operation that is done has shown, in any environment: the events of each helper and
access (`Shows`), whatever the clock does and whichever verdicts were used up.
-/

namespace Sys2Proof.Machine

/-- From `s` to `t`, on line `i`: the trace grew by `evs`, up to the instants of the waits, and the
mode of the line stayed. -/
structure Shows (i : Nat) (s : State) (evs : List Event) (t : State) : Prop where
  adds : OnlyAdds i s t
  mode : (t.line i).mode = (s.line i).mode
  shape : t.shape = s.shape ++ evs

variable {i : Nat} {s t u : State}

/-- An update of any line that leaves its mode leaves every mode. -/
theorem mode_modLine (j : Nat) {f : LineRegs → LineRegs} (hf : ∀ l, (f l).mode = l.mode)
    (i : Nat) (s : State) : ((modLine j f s).line i).mode = (s.line i).mode := by
  simp only [State.line, modLine_lines, List.getD_eq_getElem?_getD, List.getElem?_modify]
  cases s.lines[i]? with
  | none => rfl
  | some l => by_cases h : j = i <;> simp [h, hf]

theorem mode_setPin (p : Pin) (v : Bool) (i : Nat) (s : State) :
    ((setPin p v s).line i).mode = (s.line i).mode := by
  cases p with
  | rs | rw => rfl
  | e j => exact mode_modLine j (f := fun l => { l with e := v }) (fun _ => rfl) i s
  | cs j => exact mode_modLine j (f := fun l => { l with cs := v }) (fun _ => rfl) i s

theorem OnlyAdds.cfg_eq (h : OnlyAdds i s t) : t.cfg = s.cfg := by
  obtain ⟨⟨hcfg, -⟩, -, -⟩ := h
  exact hcfg

/-- An operation keeps the number of lines. -/
theorem OnlyAdds.lt_numLines (h : OnlyAdds i s t) (hi : i < s.numLines) : i < t.numLines := by
  obtain ⟨⟨-, hlines, -⟩, -, -⟩ := h
  rwa [hlines]

theorem untimed_pinEvent (p : Pin) (v : Bool) : untimed (pinEvent p v) = pinEvent p v := by
  cases p <;> rfl

theorem Shows.trans {e1 e2 : List Event} (h : Shows i s e1 t) (k : Shows i t e2 u) :
    Shows i s (e1 ++ e2) u :=
  ⟨h.adds.trans k.adds, k.mode.trans h.mode, by rw [k.shape, h.shape, List.append_assoc]⟩

/-- An update that adds nothing to the trace and leaves the mode shows nothing. -/
theorem shows_nothing (h : OnlyAdds i s t) (hmode : (t.line i).mode = (s.line i).mode)
    (htrace : t.trace = s.trace) : Shows i s [] t :=
  ⟨h, hmode, by rw [List.append_nil, shape_congr htrace]⟩

theorem Shows.refl (i : Nat) (s : State) : Shows i s [] s := shows_nothing (.refl i s) rfl rfl

theorem shows_elapse (i : Nat) (s : State) : Shows i s [] (elapse s) :=
  shows_nothing ((closed_onlyAdds i).elapse s) rfl rfl

/-- An event recorded after an update that shows nothing. -/
theorem Shows.record (h : Shows i s [] t) {ev : Event} (hev : ev.ofLine i) :
    Shows i s [untimed ev] (record ev t) :=
  h.trans ⟨(closed_onlyAdds i).record t ev hev, rfl, shape_record t ev⟩

section Sequencing

variable {α β ι : Type} {r : OpResult α} {f : α → State → OpResult β}

theorem OpResult.IfDone.imp {P P' : State → Prop} (h : r.IfDone P) (hP : ∀ t, P t → P' t) :
    r.IfDone P' := h.mono hP fun _ _ => trivial

theorem shows_andThen {e1 e2 : List Event} (hr : r.IfDone (Shows i s e1))
    (hf : ∀ a t, OnlyAdds i s t → (f a t).IfDone (Shows i t e2)) :
    (r.andThen f).IfDone (Shows i s (e1 ++ e2)) :=
  endsOr_andThen hr fun a t ht => (hf a t ht.adds).imp fun _ => ht.trans

/-- Sequencing where the events of the first operation depend on what the environment answers. -/
theorem shows_answer_andThen {e1 : ι → List Event} {e2 : List Event}
    (hr : r.IfDone fun t => ∃ x, Shows i s (e1 x) t) (hf : ∀ a t, (f a t).IfDone (Shows i t e2)) :
    (r.andThen f).IfDone fun t => ∃ x, Shows i s (e1 x ++ e2) t :=
  endsOr_andThen hr fun a t ⟨x, hx⟩ => (hf a t).imp fun _ ht => ⟨x, hx.trans ht⟩

/-- Sequencing where the events of the second operation depend on what the environment answers. -/
theorem shows_andThen_answer {e1 : List Event} {e2 : ι → List Event}
    (hr : r.IfDone (Shows i s e1)) (hf : ∀ a t, (f a t).IfDone fun u => ∃ x, Shows i t (e2 x) u) :
    (r.andThen f).IfDone fun t => ∃ x, Shows i s (e1 ++ e2 x) t :=
  endsOr_andThen hr fun a t ht => (hf a t).imp fun _ ⟨x, hx⟩ => ⟨x, ht.trans hx⟩

/-- What is handed on after the last primitive shows nothing. -/
theorem ifDone_andThen_done {P : State → Prop} (hr : r.IfDone P) (b : β) :
    (r.andThen fun _ s => .done b s).IfDone P :=
  endsOr_andThen hr fun _ _ => id

end Sequencing

/-! ### Primitives -/

/-- A fallible primitive that is done shows what its effect shows. -/
theorem shows_attempt {α : Type} {evs : List Event} (mk : Nat → BlockError)
    (onFail : State → State) {effect : State → OpResult α}
    (hEffect : (effect (dropVerdict (elapse s))).IfDone (Shows i (dropVerdict (elapse s)) evs)) :
    (attempt mk onFail effect s).IfDone (Shows i s evs) := by
  have htick : Shows i s [] (dropVerdict (elapse s)) :=
    (shows_elapse i s).trans (shows_nothing ((closed_onlyAdds i).dropVerdict _) rfl rfl)
  unfold attempt
  split
  · trivial
  · exact hEffect.imp fun _ => htick.trans

theorem shows_pinWrite {p : Pin} (hp : p.ofLine i) (v : Bool) :
    (pinWrite p v s).IfDone (Shows i s [pinEvent p v]) := by
  have hev : (pinEvent p v).ofLine i := by
    cases p with
    | rs | rw => trivial
    | e j | cs j => exact hp
  have hset := shows_nothing ((closed_onlyAdds i).setPin (dropVerdict (elapse s)) p v hp)
    (mode_setPin p v i _) (setPin_trace _ p v)
  have hrec := hset.record hev
  rw [untimed_pinEvent] at hrec
  exact shows_attempt _ _ hrec

theorem shows_dataDrive (v : Byte) :
    (dataDrive v s).IfDone (Shows i s [.data (onWires s.cfg v)]) :=
  shows_attempt _ _ <| (shows_nothing ((closed_onlyAdds i).drive _ v)
    (by rw [line_congr (driveWires_lines _ v)]) (driveWires_trace _ v)).record
    (ev := .data (onWires s.cfg v)) trivial

theorem shows_dataSample : (dataSample s).IfDone fun t => ∃ v, Shows i s [.sample v] t :=
  OpResult.IfDone.imp
    (shows_attempt _ _ <| (shows_nothing ((closed_onlyAdds i).dropSample _) rfl rfl).record
      (ev := .sample (nextSample (dropVerdict (elapse s)))) trivial)
    fun _ ht => ⟨_, ht⟩

theorem shows_setDir (d : Dir) : (setDir d s).IfDone (Shows i s [.dir d]) :=
  shows_attempt _ _ <| (shows_nothing ((closed_onlyAdds i).applyDir _ d) rfl rfl).record
    (ev := .dir d) trivial

theorem shows_linkWrite (b : Byte) : (linkWrite b s).IfDone (Shows i s [.link b]) :=
  shows_attempt _ _ <| (Shows.refl i _).record (ev := .link b) trivial

theorem shows_waitUntil (t : Instant) : (waitUntil t s).IfDone (Shows i s [.wait 0]) := by
  unfold waitUntil
  split
  · trivial
  · exact ((shows_elapse i s).trans
      (shows_nothing ((closed_onlyAdds i).clockTo _ t) rfl rfl)).record (ev := .wait t) trivial

theorem shows_delay (d : Duration) : (delay d s).IfDone (Shows i s [.wait 0]) :=
  shows_andThen (r := now s) (shows_elapse i s) fun _ _ _ => shows_waitUntil _

/-! ### Writes -/

theorem shows_selectReg (reg : Reg) :
    (selectReg reg s).IfDone (Shows i s [.rs (regRs reg), .rw (regRw reg)]) :=
  shows_andThen (shows_pinWrite (p := .rs) trivial _) fun _ _ _ =>
    shows_pinWrite (p := .rw) trivial _

theorem shows_latch : (latch i s).IfDone (Shows i s [.en i true, .wait 0, .en i false]) :=
  shows_andThen (shows_pinWrite (p := .e i) rfl true) fun _ _ _ =>
  shows_andThen (shows_delay _) fun _ t _ =>
  shows_andThen (r := .done () t) (Shows.refl i t) fun _ _ _ =>
  ifDone_andThen_done (shows_pinWrite (p := .e i) rfl false) _

/-- One write cycle: a drive and a pulse. -/
theorem shows_cycle (v : Byte) : ((dataDrive v s).andThen fun _ s => latch i s).IfDone
    (Shows i s (writePulse i (onWires s.cfg v))) :=
  shows_andThen (shows_dataDrive v) fun _ _ _ => shows_latch

theorem shows_writeU8 (hb : s.cfg.bus.isParallel = true) (v : Byte) :
    (writeU8 i v s).IfDone (Shows i s (byteEvents s.cfg.bus i v)) := by
  unfold writeU8
  cases hbus : s.cfg.bus with
  | ser => simp [hbus, Bus.isParallel] at hb
  | par8 =>
    have hcycle := shows_cycle (i := i) (s := s) v
    rwa [onWires_par8 hbus] at hcycle
  | par4 =>
    refine shows_andThen (e1 := [.data (upperBits v)])
      (e2 := [.en i true, .wait 0, .en i false] ++ writePulse i (lowerBits v)) ?_ fun _ t ht => ?_
    · rw [← onWires_high hbus]
      exact shows_dataDrive _
    · refine shows_andThen shows_latch fun _ u hu => ?_
      rw [← onWires_low (p := u.cfg) (by rw [(ht.trans hu).cfg_eq, hbus])]
      exact shows_cycle _

theorem shows_parWrite (hb : s.cfg.bus.isParallel = true) {reg : Reg} (hr : regRw reg = false)
    (v : Payload) : (parWrite i reg v s).IfDone
      (Shows i s ([.rs (regRs reg), .rw false]
        ++ (payloadBytes v).flatMap (byteEvents s.cfg.bus i))) := by
  rw [← hr]
  refine shows_andThen (shows_selectReg reg) fun _ t ht => ?_
  have hbyte : ∀ u v, OnlyAdds i s u →
      (writeU8 i v u).IfDone (Shows i u (byteEvents s.cfg.bus i v)) := by
    intro u v hu
    have hcfg := hu.cfg_eq
    rw [← hcfg] at hb ⊢
    exact shows_writeU8 hb v
  cases v with
  | one b => simpa [payloadBytes] using hbyte t b ht
  | two w =>
    have hword := shows_andThen (hbyte t (highByte w) ht) fun (_ : Unit) u hu =>
      hbyte u (lowByte w) (ht.trans hu)
    simpa [payloadBytes, highByte, lowByte, writeU16] using hword

theorem shows_linkWriteAll (bs : List Byte) :
    ∀ s, (linkWriteAll bs s).IfDone (Shows i s (bs.map .link)) := by
  induction bs with
  | nil => exact Shows.refl i
  | cons b bs ih =>
    exact fun s => shows_andThen (e1 := [.link b]) (shows_linkWrite b) fun _ t _ => ih t

theorem shows_serWrite {reg : Reg} (hr : regRw reg = false) (v : Payload) :
    (serWrite i reg v s).IfDone
      (Shows i s (writeEvents .ser i (regRs reg) (payloadBytes v))) := by
  have hframe : (serWrite i reg v s).IfDone
      (Shows i s ([.cs i true] ++ ((frameBytes reg v).map .link ++ [.cs i false]))) :=
    shows_andThen (shows_pinWrite (p := .cs i) rfl true) fun _ t _ =>
    shows_andThen (shows_linkWriteAll _ t) fun _ _ _ => shows_pinWrite (p := .cs i) rfl false
  rw [frame_links reg hr v] at hframe
  simpa [writeEvents] using hframe

/-- A write access that is done, on each transport. -/
theorem shows_memWrite {reg : Reg} (hr : regRw reg = false) (v : Payload) :
    (memWrite i reg v s).IfDone
      (Shows i s (writeEvents s.cfg.bus i (regRs reg) (payloadBytes v))) := by
  unfold memWrite
  cases hbus : s.cfg.bus with
  | par4 | par8 =>
    have hpar := shows_parWrite (i := i) (by rw [hbus]; rfl) hr v
    rwa [hbus] at hpar
  | ser => exact shows_serWrite hr v

theorem shows_book (d : Duration) : (book i d s).IfDone (Shows i s []) :=
  (shows_elapse i s).trans (shows_nothing ((closed_onlyAdds i).setDeadline _ _)
    (mode_modLine i (f := fun l => { l with deadline := (elapse s).env.clock + d })
      (fun _ => rfl) i _) rfl)

/-- A scheduled transfer that is done (44_timing_scheduler.md R193). -/
theorem shows_emit (c : Command) :
    (emit i c s).IfDone (Shows i s (emitEvents s.cfg.bus i (accessOf s.cfg c))) := by
  refine shows_andThen (e1 := [.wait 0])
    (e2 := writeEvents s.cfg.bus i (accessOf s.cfg c).1 (accessOf s.cfg c).2)
    (shows_waitUntil _) fun _ t ht => ?_
  have hcfg := ht.cfg_eq
  rw [← hcfg, ← List.append_nil (writeEvents _ _ _ _)]
  exact shows_andThen (shows_memWrite (regRw_commandAccess _ c) _) fun _ _ _ => shows_book _

/-! ### Status reads -/

theorem shows_readPulse :
    (latched i dataSample s).IfDone fun t => ∃ v, Shows i s (readPulse i v) t :=
  shows_andThen_answer (shows_pinWrite (p := .e i) rfl true) fun _ _ =>
  shows_andThen_answer (shows_delay _) fun _ _ =>
  shows_answer_andThen shows_dataSample fun _ _ =>
  ifDone_andThen_done (shows_pinWrite (p := .e i) rfl false) _

theorem shows_readU8 :
    (readU8 i s).IfDone fun t => ∃ vs : List Byte, Shows i s (vs.flatMap (readPulse i)) t := by
  have hpulse : ∀ s, (latched i dataSample s).IfDone
      fun t => ∃ vs : List Byte, Shows i s (vs.flatMap (readPulse i)) t :=
    fun s => shows_readPulse.imp fun _ ⟨v, hv⟩ => ⟨[v], by simpa using hv⟩
  unfold readU8
  split
  · refine endsOr_andThen (hpulse s) fun _ t ⟨hi, hhi⟩ => ?_
    refine endsOr_andThen (hpulse t) fun _ u ⟨lo, hlo⟩ => ⟨hi ++ lo, ?_⟩
    rw [List.flatMap_append]
    exact hhi.trans hlo
  · exact hpulse s
  · exact hpulse s

/-- A scheduled status read that is done (44_timing_scheduler.md R195). -/
theorem shows_schedRead_status :
    (schedRead i .status readU8 s).IfDone fun t => ∃ vs, Shows i s (readEvents i false vs) t := by
  have hread : ∀ s, (parRead i .status readU8 s).IfDone fun t => ∃ vs : List Byte,
      Shows i s ([.dir .into] ++ ([.rs false, .rw true] ++ (vs.flatMap (readPulse i)
        ++ [.dir .out]))) t := fun s =>
    shows_andThen_answer (shows_setDir .into) fun _ _ =>
    shows_andThen_answer (shows_selectReg .status) fun _ _ =>
    shows_answer_andThen shows_readU8 fun _ _ =>
    ifDone_andThen_done (shows_setDir .out) _
  have hsched : (schedRead i .status readU8 s).IfDone fun t => ∃ vs : List Byte, _ :=
    shows_andThen_answer (shows_waitUntil _) fun _ t => shows_answer_andThen (hread t) fun b _ =>
      ifDone_andThen_done (shows_book _) b
  exact hsched.imp fun t ⟨vs, hvs⟩ => ⟨vs, by simpa [readEvents] using hvs⟩

/-- The busy poll that is done has made status reads only (45_mode_machine.md R222). -/
theorem shows_pollLoop (t0 : Instant) (fuel : Nat) : ∀ s, (pollLoop i t0 fuel s).IfDone
    fun t => ∃ reads : List (List Byte), Shows i s (reads.flatMap (readEvents i false)) t := by
  induction fuel with
  | zero => exact fun _ => trivial
  | succ n ih =>
    intro s
    refine endsOr_andThen shows_schedRead_status fun b t ⟨vs, hvs⟩ => ?_
    have hlast : ∃ reads : List (List Byte), Shows i s (reads.flatMap (readEvents i false)) t :=
      ⟨[vs], by simpa using hvs⟩
    split
    · exact hlast
    · rw [now_andThen]
      split
      · obtain ⟨reads, hreads⟩ := hlast
        exact ⟨reads, by simpa using hreads.trans (shows_elapse i t)⟩
      · refine (ih (elapse t)).imp fun u ⟨reads, hreads⟩ => ⟨vs :: reads, ?_⟩
        simpa using (hvs.trans (shows_elapse i t)).trans hreads

theorem shows_pollBusy : (pollBusy i s).IfDone
    fun t => ∃ reads : List (List Byte), Shows i s (reads.flatMap (readEvents i false)) t := by
  unfold pollBusy
  split
  · exact ⟨[], Shows.refl i s⟩
  · exact shows_andThen_answer (r := now s) (shows_elapse i s) fun t0 t => shows_pollLoop t0 _ t

end Sys2Proof.Machine
end

section
/-!
SUPPORT. The mode machine in any environment: which commands a command that is done has sent, polls
between them left aside, and the mode after it (`Issues`, `issues_execCommand`).
-/

namespace Sys2Proof.Machine

/-- The events `es` are the scheduled transfers of the commands `cs`, in order, with status reads
anywhere between them (45_mode_machine.md R222). -/
inductive Carries (p : Params) (i : Nat) : List Command → List Event → Prop where
  | nil : Carries p i [] []
  | read (vs : List Byte) {cs : List Command} {es : List Event} :
    Carries p i cs es → Carries p i cs (readEvents i false vs ++ es)
  | transfer (c : Command) {cs : List Command} {es : List Event} :
    Carries p i cs es → Carries p i (c :: cs) (emitEvents p.bus i (accessOf p c) ++ es)

theorem Carries.append {p : Params} {i : Nat} {cs cs' : List Command} {es es' : List Event}
    (h : Carries p i cs es) (h' : Carries p i cs' es') : Carries p i (cs ++ cs') (es ++ es') := by
  induction h with
  | nil => exact h'
  | read vs _ ih => rw [List.append_assoc]; exact .read vs ih
  | transfer c _ ih => rw [List.append_assoc]; exact .transfer c ih

theorem carries_reads (p : Params) (i : Nat) (reads : List (List Byte)) :
    Carries p i [] (reads.flatMap (readEvents i false)) := by
  induction reads with
  | nil => exact .nil
  | cons vs reads ih => exact .read vs ih

/-- From `s` to `t` the commands `cs` went out on line `i`, and the mode of the line is `m`. -/
structure Issues (i : Nat) (cs : List Command) (m : Mode) (s t : State) : Prop where
  adds : OnlyAdds i s t
  mode : (t.line i).mode = m
  carries : ∃ evs, t.shape = s.shape ++ evs ∧ Carries s.cfg i cs evs

variable {i : Nat} {s : State}

/-- Nothing has gone out yet. -/
theorem issues_nil (i : Nat) (s : State) : Issues i [] (s.line i).mode s s :=
  ⟨.refl i s, rfl, [], (List.append_nil _).symm, .nil⟩

theorem Issues.trans {cs cs' : List Command} {m m' : Mode} {t u : State} (h : Issues i cs m s t)
    (k : Issues i cs' m' t u) : Issues i (cs ++ cs') m' s u := by
  obtain ⟨hadds, -, evs, hshape, hcarries⟩ := h
  obtain ⟨kadds, kmode, evs', kshape, kcarries⟩ := k
  rw [hadds.cfg_eq] at kcarries
  exact ⟨hadds.trans kadds, kmode, evs ++ evs', by rw [kshape, hshape, List.append_assoc],
    hcarries.append kcarries⟩

/-- Sequencing: what follows starts in the mode the first operation leaves. -/
theorem issues_andThen {α β : Type} {cs cs' : List Command} {m m' : Mode} {r : OpResult α}
    {f : α → State → OpResult β} (hr : r.IfDone (Issues i cs m s))
    (hf : ∀ a t, OnlyAdds i s t → (t.line i).mode = m → (f a t).IfDone (Issues i cs' m' t)) :
    (r.andThen f).IfDone (Issues i (cs ++ cs') m' s) :=
  endsOr_andThen hr fun a t ht => (hf a t ht.adds ht.mode).imp fun _ => ht.trans

theorem issues_emit (c : Command) :
    (emit i c s).IfDone (Issues i [c] (s.line i).mode s) :=
  (shows_emit c).imp fun _ ⟨hadds, hmode, hshape⟩ =>
    ⟨hadds, hmode, _, hshape, by simpa using Carries.transfer c (.nil (p := s.cfg) (i := i))⟩

theorem issues_pollBusy : (pollBusy i s).IfDone (Issues i [] (s.line i).mode s) :=
  shows_pollBusy.imp fun _ ⟨reads, hadds, hmode, hshape⟩ =>
    ⟨hadds, hmode, _, hshape, carries_reads _ i reads⟩

/-- A select with its assignment (45_mode_machine.md R219). -/
theorem issues_emitSelect (hi : i < s.numLines) (c : Command) (m : Mode) :
    (emitSelect i c m s).IfDone (Issues i [c] m s) := by
  refine endsOr_andThen (issues_emit c) fun _ t ⟨hadds, _, hcarries⟩ => ?_
  have hline := line_modLine_same t i (fun l => { l with mode := m }) (hadds.lt_numLines hi)
  exact ⟨hadds.trans ((closed_onlyAdds i).setMode t m), congrArg LineRegs.mode hline, hcarries⟩

theorem issues_toBasic (hi : i < s.numLines) :
    (toBasic i s).IfDone (Issues i [.selectBasic] .basic s) :=
  issues_andThen (cs := []) issues_pollBusy fun _ _ ht _ =>
    issues_emitSelect (ht.lt_numLines hi) .selectBasic .basic

/-! ### The paths of the command classes -/

/-- The selects before a command of a class (45_mode_machine.md R214 to R218). -/
def CmdClass.prelude : CmdClass → Mode → List Command
  | .basicOp, .extended => [.selectBasic]
  | .basicOp, .graphic => [.selectExtended, .selectBasic]
  | .extOp, .basic | .selG, .basic | .selB, .graphic => [.selectExtended]
  | _, _ => []

/-- The mode after a command of a class (45_mode_machine.md R223). -/
def CmdClass.modeAfter : CmdClass → Mode → Mode
  | .basicOp, _ | .selB, _ => .basic
  | .extOp, m => extMode m
  | .selE, _ => .extended
  | .selG, _ => .graphic
  | .neutral, m => m

/-- The spec's table of selects goes by class (45_mode_machine.md R213). -/
theorem insertedSelects_eq_prelude (policy : WriteModePolicy) (c : Command) (m : Mode) :
    insertedSelects policy c m = (classOf policy c).prelude m := by
  cases c with
  | write d => cases policy <;> cases m <;> rfl
  | _ => cases m <;> rfl

theorem modeAfter_eq (policy : WriteModePolicy) (c : Command) (m : Mode) :
    modeAfter policy c m = (classOf policy c).modeAfter m := by
  cases c with
  | write d => cases policy <;> rfl
  | _ => rfl

/-- What a class says of its commands: the set they are filed under, or which command it is
(45_mode_machine.md R212). -/
def CmdClass.Covers : CmdClass → Command → Prop
  | .basicOp, c => commandSet c = .basic ∧ selectedMode c = none
  | .extOp, c => commandSet c = .extendedOrGraphic ∧ selectedMode c = none
  | .selB, c => c = .selectBasic
  | .selE, c => c = .selectExtended
  | .selG, c => c = .selectGraphic
  | .neutral, c => ∃ d, c = .write d

theorem covers_classOf (policy : WriteModePolicy) (c : Command) : (classOf policy c).Covers c := by
  cases c with
  | write d =>
    cases policy with
    | basicSet => exact ⟨rfl, rfl⟩
    | neutral => exact ⟨d, rfl⟩
  | selectBasic | selectExtended | selectGraphic => rfl
  | _ => exact ⟨rfl, rfl⟩

/-- `SelectExtended` from one mode, and nothing from the others. -/
theorem issues_viaExtended (hi : i < s.numLines) {m m' : Mode} (hm : (s.line i).mode = m) :
    (whenMode i m' (toExtended i) s).IfDone
      (Issues i (if m = m' then [.selectExtended] else [])
        (if m = m' then .extended else m) s) := by
  unfold whenMode
  rw [hm]
  split_ifs
  · exact issues_emitSelect hi _ _
  · exact hm ▸ issues_nil i s

/-- `SelectBasic` from Extended, after its poll, and nothing from the others. -/
theorem issues_viaBasic (hi : i < s.numLines) {m : Mode} (hm : (s.line i).mode = m) :
    (whenMode i .extended (toBasic i) s).IfDone
      (Issues i (if m = .extended then [.selectBasic] else [])
        (if m = .extended then .basic else m) s) := by
  unfold whenMode
  rw [hm]
  split_ifs
  · exact issues_toBasic hi
  · exact hm ▸ issues_nil i s

/-- A command that is done, in any environment, went out after the selects of the spec's table, and
the mode is the one the spec's table gives (45_mode_machine.md R213, R223). -/
theorem issues_execCommand (hi : i < s.numLines) (c : Command) :
    (execCommand i c s).IfDone
      (Issues i (insertedSelects s.cfg.writePolicy c (s.line i).mode ++ [c])
        (modeAfter s.cfg.writePolicy c (s.line i).mode) s) := by
  rw [insertedSelects_eq_prelude, modeAfter_eq]
  have hclass := covers_classOf s.cfg.writePolicy c
  unfold execCommand execClass
  generalize classOf s.cfg.writePolicy c = k at hclass ⊢
  cases k with
  | basicOp =>
    have path := issues_andThen (issues_viaExtended (m' := .graphic) hi rfl) fun _ t ht hm =>
      issues_andThen (issues_viaBasic (ht.lt_numLines hi) hm) fun _ u _ hm' =>
        hm' ▸ issues_emit (i := i) (s := u) c
    cases hm : (s.line i).mode <;>
      simpa [hm, CmdClass.prelude, CmdClass.modeAfter] using path
  | extOp =>
    have path := issues_andThen (issues_viaExtended (m' := .basic) hi rfl) fun _ u _ hm' =>
      hm' ▸ issues_emit (i := i) (s := u) c
    cases hm : (s.line i).mode <;>
      simpa [hm, CmdClass.prelude, CmdClass.modeAfter, extMode] using path
  | selB =>
    obtain rfl : c = .selectBasic := hclass
    have path := issues_andThen (issues_viaExtended (m' := .graphic) hi rfl) fun _ t ht _ =>
      issues_toBasic (ht.lt_numLines hi)
    cases hm : (s.line i).mode <;>
      simpa [hm, CmdClass.prelude, CmdClass.modeAfter] using path
  | selE =>
    obtain rfl : c = .selectExtended := hclass
    exact issues_emitSelect hi _ _
  | selG =>
    obtain rfl : c = .selectGraphic := hclass
    have path := issues_andThen (issues_viaExtended (m' := .basic) hi rfl) fun _ t ht _ =>
      issues_emitSelect (ht.lt_numLines hi) .selectGraphic .graphic
    cases hm : (s.line i).mode <;>
      simpa [hm, CmdClass.prelude, CmdClass.modeAfter, toGraphic] using path
  | neutral => exact issues_emit c

/-- A command answered with `Ok` was done. -/
theorem issues_of_ok {c : Command} {t : State} (hi : i < s.numLines)
    (hx : exec (instrOf i c) s = .next t) (hok : t.results = s.results ++ [.okUnit]) :
    ∃ u, t = answer .okUnit u
      ∧ Issues i (insertedSelects s.cfg.writePolicy c (s.line i).mode ++ [c])
        (modeAfter s.cfg.writePolicy c (s.line i).mode) s u := by
  have hissues := issues_execCommand hi c
  have hends := ends_execCommand (closed_onlyAdds i) c s
  rw [exec_instrOf, execute, onLine, if_pos hi] at hx
  cases hr : execCommand i c s with
  | done a u =>
    rw [hr] at hx hissues
    cases hx
    exact ⟨u, rfl, hissues⟩
  | raised e u =>
    rw [hr] at hx hends
    cases hx
    have hres : u.results = s.results := hends.results
    simp [hres] at hok
  | hung f =>
    rw [hr] at hx
    cases hx

end Sys2Proof.Machine
end

section
/-!
SUPPORT. What the chip on a line takes from the events of transfers and status reads, at either edge
and on each transport (`Hears`): the bytes of each transfer with their `RS`, and nothing of a read
(42_parallel_transport.md R155, 43_serial_transport.md R175).
-/

namespace Sys2Proof.Machine

/-- The bytes the chip on line `i` takes when it sees `w` and, on `SER`, its chip-select is low. -/
def heard (edge : Edge) (i : Nat) (b : Bus) (w : WireView) (evs : List Event) :
    List (Bool × Byte) :=
  match b with
  | .par4 => joinTaken (takenPulses edge i w evs)
  | .par8 => takenPulses edge i w evs
  | .ser => (takenFrames i false none evs).flatMap frameBytesTaken

/-- Between accesses: the enable line is low and the block drives the wires. -/
def WireView.Idle (w : WireView) : Prop := w.level = false ∧ w.driven = true

/-- Within a write access: `RS` is as selected and `RW` is low. -/
def WireView.Selected (r : Bool) (w : WireView) : Prop := w.Idle ∧ w.rs = r ∧ w.rw = false

/-- Within a read access: `RW` is high, and the enable line is low. -/
def WireView.Reading (w : WireView) : Prop := w.level = false ∧ w.rw = true

variable {edge : Edge} {i : Nat} {b : Bus} {w : WireView}

theorem heard_nil : heard edge i b w [] = [] := by
  cases b <;> rfl

/-- A chip that listens takes what is heard from an idle view on; on `SER` it sees no wires, and any
view will do. -/
theorem chipBytes_of_listens {s : State} (h : ChipListens i s) :
    ∃ w : WireView, w.Idle ∧ ∀ edge evs, chipBytes edge i s evs = heard edge i s.cfg.bus w evs := by
  obtain ⟨-, hlow, hout⟩ := h
  cases hb : s.cfg.bus with
  | par4 | par8 =>
    rw [hb] at hlow hout
    exact ⟨wireView i s, ⟨hlow, decide_eq_true (hout rfl)⟩,
      fun _ _ => by simp [chipBytes, heard, hb]⟩
  | ser =>
    rw [hb] at hlow
    have hcs : (s.line i).cs = false := hlow
    exact ⟨⟨false, false, 0#8, false, false, true⟩, ⟨rfl, rfl⟩,
      fun _ _ => by simp [chipBytes, heard, hb, hcs]⟩

/-! ### Waits are not seen -/

theorem takenPulses_untimed (evs : List Event) :
    ∀ w, takenPulses edge i w (evs.map untimed) = takenPulses edge i w evs := by
  induction evs with
  | nil => exact fun _ => rfl
  | cons ev evs ih =>
    intro w
    have hsame : takenAt edge i w (untimed ev) = takenAt edge i w ev
        ∧ seeEvent i w (untimed ev) = seeEvent i w ev := by
      cases ev <;> exact ⟨rfl, rfl⟩
    obtain ⟨htaken, hsee⟩ := hsame
    rw [List.map_cons, takenPulses, takenPulses, htaken, hsee, ih]

theorem takenFrames_untimed (evs : List Event) : ∀ level cur,
    takenFrames i level cur (evs.map untimed) = takenFrames i level cur evs := by
  induction evs with
  | nil => exact fun _ _ => rfl
  | cons ev evs ih =>
    intro level cur
    cases ev with
    | cs j v => cases v <;> simp [untimed, takenFrames, ih]
    | _ => simp [untimed, takenFrames, ih]

theorem heard_untimed (evs : List Event) :
    heard edge i b w (evs.map untimed) = heard edge i b w evs := by
  cases b <;> simp only [heard, takenPulses_untimed, takenFrames_untimed]

/-! ### Pieces of an access -/

/-- From a view of `P` the events `evs` give the bytes `bytes`, whatever follows, and lead to a view
of `Q`. -/
def Hears (edge : Edge) (i : Nat) (b : Bus) (P Q : WireView → Prop) (evs : List Event)
    (bytes : List (Bool × Byte)) : Prop :=
  ∀ w, P w → Q (evs.foldl (seeEvent i) w) ∧ ∀ rest,
    heard edge i b w (evs ++ rest) = bytes ++ heard edge i b (evs.foldl (seeEvent i) w) rest

variable {P Q R : WireView → Prop}

theorem hears_nil : Hears edge i b P P [] [] := fun _ hw => ⟨hw, fun _ => rfl⟩

theorem Hears.append {e1 e2 : List Event} {b1 b2 : List (Bool × Byte)}
    (h : Hears edge i b P Q e1 b1) (k : Hears edge i b Q R e2 b2) :
    Hears edge i b P R (e1 ++ e2) (b1 ++ b2) := by
  intro w hw
  obtain ⟨hQ, h1⟩ := h w hw
  obtain ⟨hR, h2⟩ := k _ hQ
  rw [List.foldl_append]
  exact ⟨hR, fun rest => by rw [List.append_assoc, h1, h2, List.append_assoc]⟩

theorem Hears.weaken {evs : List Event} {bytes : List (Bool × Byte)}
    (h : Hears edge i b P Q evs bytes) (hQ : ∀ w, Q w → R w) : Hears edge i b P R evs bytes :=
  fun w hw => (h w hw).imp_left (hQ _)

/-- Pieces of one kind in a row. -/
theorem hears_flatMap {α : Type} {f : α → List Event} {g : α → List (Bool × Byte)}
    (h : ∀ a, Hears edge i b P P (f a) (g a)) (l : List α) :
    Hears edge i b P P (l.flatMap f) (l.flatMap g) := by
  induction l with
  | nil => exact hears_nil
  | cons a l ih => exact (h a).append ih

theorem hears_select (r : Bool) :
    Hears edge i b WireView.Idle (WireView.Selected r) [.wait 0, .rs r, .rw false] [] := by
  intro w hw
  refine ⟨⟨hw, rfl, rfl⟩, fun rest => ?_⟩
  cases b <;> simp [heard, takenPulses, takenAt, takesAt, takenFrames]

theorem hears_selectRead :
    Hears edge i b WireView.Idle WireView.Reading
      [.wait 0, .dir .into, .rs false, .rw true] [] := by
  intro w hw
  refine ⟨⟨hw.1, rfl⟩, fun rest => ?_⟩
  cases b <;> simp [heard, takenPulses, takenAt, takesAt, takenFrames]

theorem hears_readPulse (v : Byte) :
    Hears edge i b WireView.Reading WireView.Reading (readPulse i v) [] := by
  intro w ⟨hlevel, hrw⟩
  refine ⟨by simp [readPulse, seeEvent, WireView.Reading, hrw], fun rest => ?_⟩
  cases b <;> simp [heard, readPulse, takenPulses, takenAt, seeEvent, takenFrames, hrw]

theorem hears_endRead :
    Hears edge i b WireView.Reading WireView.Idle [.dir .out] [] := by
  intro w ⟨hlevel, _⟩
  refine ⟨⟨hlevel, rfl⟩, fun rest => ?_⟩
  cases b <;> simp [heard, takenPulses, takenAt, takesAt, takenFrames]

/-- A read gives no byte: `RW` is high at each edge. -/
theorem hears_readEvents (vs : List Byte) :
    Hears edge i b WireView.Idle WireView.Idle (readEvents i false vs) [] := by
  have hpulses := hears_flatMap (edge := edge) (i := i) (b := b) hears_readPulse vs
  rw [List.flatMap_eq_nil_iff.mpr fun _ _ => rfl] at hpulses
  exact (hears_selectRead.append hpulses).append hears_endRead

/-- One write cycle gives its value once, at the rise or at the fall. -/
theorem takenPulses_writePulse {r : Bool} (hw : w.Selected r) (v : Byte) (rest : List Event) :
    takenPulses edge i w (writePulse i v ++ rest)
      = (r, v) :: takenPulses edge i ((writePulse i v).foldl (seeEvent i) w) rest := by
  obtain ⟨⟨hlevel, hdriven⟩, rfl, hrw⟩ := hw
  cases edge <;>
    simp [writePulse, takenPulses, takenAt, takesAt, seeEvent, hlevel, hdriven, hrw]

theorem selected_writePulse {r : Bool} (hw : w.Selected r) (v : Byte) :
    ((writePulse i v).foldl (seeEvent i) w).Selected r := by
  obtain ⟨⟨hlevel, hdriven⟩, rfl, hrw⟩ := hw
  simp [writePulse, seeEvent, WireView.Selected, WireView.Idle, hdriven, hrw]

theorem upperBits_or_lowerBits (v : Byte) : (upperBits v <<< 4) ||| lowerBits v = v := by
  revert v; decide

/-- One byte written on a parallel bus is one byte taken. -/
theorem hears_byteEvents (hb : b.isParallel = true) (r : Bool) (v : Byte) :
    Hears edge i b (WireView.Selected r) (WireView.Selected r) (byteEvents b i v) [(r, v)] := by
  intro w hw
  cases b with
  | ser => cases hb
  | par8 => exact ⟨selected_writePulse hw v, takenPulses_writePulse hw v⟩
  | par4 =>
    have hhigh := selected_writePulse (i := i) hw (upperBits v)
    rw [byteEvents, List.foldl_append]
    refine ⟨selected_writePulse hhigh _, fun rest => ?_⟩
    rw [heard, List.append_assoc, takenPulses_writePulse hw, takenPulses_writePulse hhigh,
      joinTaken, upperBits_or_lowerBits]
    rfl

/-! ### Frames -/

theorem takenFrames_nibbleEvents (bytes : List Byte) : ∀ (frame : List Byte) (rest : List Event),
    takenFrames i true (some frame) (bytes.flatMap nibbleEvents ++ rest)
      = takenFrames i true (some (frame ++ bytes.flatMap nibbleBytes)) rest := by
  induction bytes with
  | nil => simp
  | cons v bytes ih =>
    have hnibbles : nibbleEvents v = (nibbleBytes v).map .link := by
      revert v; decide
    intro frame rest
    simp [hnibbles, nibbleBytes, takenFrames, ih]

theorem frameTaken_nibbleBytes (r : Bool) (bytes : List Byte) :
    frameTaken r (bytes.flatMap nibbleBytes) = bytes.map (r, ·) := by
  induction bytes with
  | nil => rfl
  | cons v bytes ih =>
    have hjoin : ∀ v : Byte, nibHi v ||| (nibLo v >>> 4) = v := by decide
    simp [nibbleBytes, frameTaken, hjoin, ih]

theorem foldl_nibbleEvents (bytes : List Byte) :
    (bytes.flatMap nibbleEvents).foldl (seeEvent i) w = w := by
  induction bytes with
  | nil => rfl
  | cons v bytes ih => simpa [nibbleEvents, seeEvent] using ih

/-- A frame gives the payload it was made from, with the `RS` bit of its sync byte (30_encoding.md
R84, R85). -/
theorem hears_frame (a : Bool × List Byte) :
    Hears edge i .ser WireView.Idle WireView.Idle (emitEvents .ser i a) (a.2.map (a.1, ·)) := by
  obtain ⟨r, bytes⟩ := a
  intro w hw
  have hsync : (if r then 0xFA#8 else 0xF8#8 : Byte)[1] = r := by
    cases r <;> rfl
  refine ⟨?_, fun rest => ?_⟩
  · simpa [emitEvents, writeEvents, seeEvent, foldl_nibbleEvents] using hw
  · simp [emitEvents, writeEvents, heard, takenFrames, takenFrames_nibbleEvents, frameBytesTaken,
      frameTaken_nibbleBytes, hsync]

/-- One scheduled transfer gives its bytes, each with the `RS` of its register. -/
theorem hears_emitEvents (a : Bool × List Byte) :
    Hears edge i b WireView.Idle WireView.Idle (emitEvents b i a) (a.2.map (a.1, ·)) := by
  have hpar : b.isParallel = true → Hears edge i b WireView.Idle WireView.Idle
      ([.wait 0, .rs a.1, .rw false] ++ a.2.flatMap (byteEvents b i)) (a.2.map (a.1, ·)) := by
    intro hb
    have hbytes := hears_flatMap (hears_byteEvents (edge := edge) (i := i) hb a.1) a.2
    rw [← List.map_eq_flatMap] at hbytes
    exact ((hears_select a.1).append hbytes).weaken fun _ h => h.1
  cases b with
  | par4 | par8 => exact hpar rfl
  | ser => exact hears_frame a

/-- The bytes a command puts on the bus, each with its `RS` (44_timing_scheduler.md R193). -/
def commandBytes (p : Params) (c : Command) : List (Bool × Byte) :=
  (accessOf p c).2.map ((accessOf p c).1, ·)

theorem hears_of_carries {p : Params} {cs : List Command} {evs : List Event}
    (h : Carries p i cs evs) :
    Hears edge i p.bus WireView.Idle WireView.Idle evs (cs.flatMap (commandBytes p)) := by
  induction h with
  | nil => exact hears_nil
  | read vs _ ih => exact (hears_readEvents vs).append ih
  | transfer c _ ih => exact (hears_emitEvents (accessOf p c)).append ih

end Sys2Proof.Machine
end

section
/-!
SUPPORT. What a chip understands of the bytes of a command in a mode in which it has the command
(`Accepts`), and so of the selects of the spec's table with the command after them
(30_encoding.md R76, R87; 45_mode_machine.md R213).
-/

namespace Sys2Proof.Machine

variable {i : Nat} {m m' : Mode} {p : Params} {c : Command}

/-- The chip in mode `m` takes the bytes of `c`, whatever follows them, as `c`, and is in mode `m'`
after them. -/
def Accepts (i : Nat) (p : Params) (m : Mode) (c : Command) (m' : Mode) : Prop :=
  ∀ rest, chipUnderstands i m (commandBytes p c ++ rest)
    = (chipUnderstands i m' rest).map (instrOf i c :: ·)

/-- A command on its way to the chip decodes as itself in the set it is filed under. -/
theorem decode_commandAccess (i : Nat) (c : Command) :
    decode ⟨i, commandSet c, (commandAccess .default c).1,
      payloadBytes (commandAccess .default c).2⟩ = .ok (instrOf i c) := by
  have hencode : encode (instrOf i c) = ⟨i, commandSet c, (commandAccess .default c).1,
      payloadBytes (commandAccess .default c).2⟩ := by
    cases c <;> rfl
  rw [← hencode]
  exact decodeOfEncode (instrOf i c)

/-- A byte that is a command stands alone, whatever follows it. -/
theorem chipUnderstands_byte {b : Byte} {x : Instr}
    (hx : decode ⟨i, modeSet m, .cmd, [b]⟩ = .ok x) (hm : chipModeAfter m x = some m')
    (rest : List (Bool × Byte)) :
    chipUnderstands i m ((false, b) :: rest) = (chipUnderstands i m' rest).map (x :: ·) := by
  match rest with
  | [] | (true, _) :: _ | (false, _) :: _ => simp [chipUnderstands, hx, hm]

/-- A byte that is no command alone is the first of two. -/
theorem chipUnderstands_pair {b1 b2 : Byte} {x : Instr} {e : DecodeError}
    (he : decode ⟨i, modeSet m, .cmd, [b1]⟩ = .error e)
    (hx : decode ⟨i, modeSet m, .cmd, [b1, b2]⟩ = .ok x) (rest : List (Bool × Byte)) :
    chipUnderstands i m ((false, b1) :: (false, b2) :: rest)
      = (chipUnderstands i m rest).map (x :: ·) := by
  simp [chipUnderstands, he, hx]

/-- A command of one byte. -/
theorem accepts_byte {b : Byte} (hp : p.cursorCtrl = .default)
    (hb : commandAccess .default c = (.cmd, .one b))
    (hx : decode ⟨i, modeSet m, .cmd, [b]⟩ = .ok (instrOf i c))
    (hm : chipModeAfter m (instrOf i c) = some m') : Accepts i p m c m' := by
  intro rest
  have hbytes : commandBytes p c = [(false, b)] := by
    simp [commandBytes, accessOf, hp, hb, regRs, payloadBytes]
  rw [hbytes]
  exact chipUnderstands_byte hx hm rest

/-- `Write` is taken in every mode: it goes to the other register (30_encoding.md R80). -/
theorem accepts_write (d : Half) : Accepts i p m (.write d) m := by
  intro rest
  have hx : decode ⟨i, modeSet m, .dataWr, [highByte d, lowByte d]⟩ = .ok (.write i d) :=
    decode_commandAccess i (.write d)
  have hbytes : commandBytes p (.write d) = [(true, highByte d), (true, lowByte d)] := rfl
  simp [hbytes, chipUnderstands, hx, instrOf]

/-- The first byte of `GraphicRamAddr` is no command alone (30_encoding.md R87). -/
theorem accepts_graphicRamAddr (hm : modeSet m = .extendedOrGraphic) (x : BitVec 6) (y : BitVec 4) :
    Accepts i p m (.graphicRamAddr x y) m := by
  intro rest
  have hfirst : ∀ y : BitVec 4, decodeExtendedByte 0 (0x80#8 ||| (y.setWidth 8 &&& 0x0F#8))
      = .error (.missingSecondByte (0x80#8 ||| (y.setWidth 8 &&& 0x0F#8))) := by decide
  have hbytes : commandBytes p (.graphicRamAddr x y)
      = [(false, 0x80#8 ||| (y.setWidth 8 &&& 0x0F#8)),
        (false, 0x80#8 ||| (x.setWidth 8 &&& 0x3F#8))] :=
    congrArg (List.map (false, ·)) (payloadBytes_append _ _)
  rw [hbytes]
  refine chipUnderstands_pair
    (e := .missingSecondByte (0x80#8 ||| (y.setWidth 8 &&& 0x0F#8))) ?_ ?_ rest
  · rw [hm]
    exact (decodeExtendedByte_onLine i _).trans (congrArg (Except.map _) (hfirst y))
  · rw [hm, ← encode_graphicRamAddr]
    exact decode_encode_graphicRamAddr i x y

/-- A chip in the set a command is filed under takes it, and keeps its mode if it is no select. -/
theorem accepts_of_commandSet (hp : p.cursorCtrl = .default) (hset : modeSet m = commandSet c)
    (hselect : selectedMode c = none) : Accepts i p m c m := by
  have hx := hset ▸ decode_commandAccess i c
  cases c with
  | write d => exact accepts_write d
  | graphicRamAddr x y => exact accepts_graphicRamAddr hset x y
  | selectBasic | selectExtended | selectGraphic => cases hselect
  | _ => exact accepts_byte hp rfl hx rfl

/-- From Graphic the chip refuses `SelectBasic`, which would change two bits
(30_encoding.md R79). -/
theorem accepts_selectBasic (hp : p.cursorCtrl = .default) (hm : m ≠ .graphic) :
    Accepts i p m .selectBasic .basic := by
  cases m with
  | basic | extended => exact accepts_byte hp rfl rfl rfl
  | graphic => exact absurd rfl hm

theorem accepts_selectExtended (hp : p.cursorCtrl = .default) :
    Accepts i p m .selectExtended .extended := by
  cases m <;> exact accepts_byte hp rfl rfl rfl

theorem accepts_selectGraphic (hp : p.cursorCtrl = .default) (hm : m ≠ .basic) :
    Accepts i p m .selectGraphic .graphic := by
  cases m with
  | extended | graphic => exact accepts_byte hp rfl rfl rfl
  | basic => exact absurd rfl hm

/-! ### A command with the selects before it -/

/-- What the chip in mode `m` understands from the bytes of the commands `cs` is `cs`. -/
def Understood (i : Nat) (p : Params) (m : Mode) (cs : List Command) : Prop :=
  chipUnderstands i m (cs.flatMap (commandBytes p)) = some (cs.map (instrOf i))

theorem Accepts.cons {cs : List Command} (h : Accepts i p m c m') (hcs : Understood i p m' cs) :
    Understood i p m (c :: cs) := by
  have hcs' : chipUnderstands i m' (cs.flatMap (commandBytes p)) = _ := hcs
  rw [Understood, List.flatMap_cons, h, hcs']
  rfl

theorem Accepts.understood (h : Accepts i p m c m') : Understood i p m [c] :=
  h.cons (m' := m') (by simp [Understood, chipUnderstands])

/-- After the selects of the spec's table the chip is in a mode in which it has the command, and it
has each select where it is sent (45_mode_machine.md R213, R220). -/
theorem understood_insertedSelects (hp : p.cursorCtrl = .default) (i : Nat)
    (policy : WriteModePolicy) (c : Command) (m : Mode) :
    Understood i p m (insertedSelects policy c m ++ [c]) := by
  rw [insertedSelects_eq_prelude]
  have hclass := covers_classOf policy c
  have ext : ∀ {m cs}, Understood i p .extended cs → Understood i p m (.selectExtended :: cs) :=
    (accepts_selectExtended hp).cons
  have basic : ∀ {cs}, Understood i p .basic cs → Understood i p .extended (.selectBasic :: cs) :=
    (accepts_selectBasic hp (by decide)).cons
  generalize classOf policy c = k at hclass ⊢
  cases k with
  | basicOp =>
    obtain ⟨hset, hselect⟩ := hclass
    have hc : Understood i p .basic [c] :=
      (accepts_of_commandSet (m := .basic) hp hset.symm hselect).understood
    cases m with
    | basic => exact hc
    | extended => exact basic hc
    | graphic => exact ext (basic hc)
  | extOp =>
    obtain ⟨hset, hselect⟩ := hclass
    have hc : ∀ m, modeSet m = .extendedOrGraphic → Understood i p m [c] := fun m hm =>
      (accepts_of_commandSet hp (hm.trans hset.symm) hselect).understood
    cases m with
    | basic => exact ext (hc _ rfl)
    | extended | graphic => exact hc _ rfl
  | selB =>
    obtain rfl : c = .selectBasic := hclass
    cases m with
    | basic | extended => exact (accepts_selectBasic hp (by decide)).understood
    | graphic => exact ext (accepts_selectBasic hp (by decide)).understood
  | selE =>
    obtain rfl : c = .selectExtended := hclass
    cases m <;> exact (accepts_selectExtended hp).understood
  | selG =>
    obtain rfl : c = .selectGraphic := hclass
    cases m with
    | basic => exact ext (accepts_selectGraphic hp (by decide)).understood
    | extended | graphic => exact (accepts_selectGraphic hp (by decide)).understood
  | neutral =>
    obtain ⟨d, rfl⟩ : ∃ d, c = .write d := hclass
    cases m <;> exact (accepts_write d).understood

end Sys2Proof.Machine
end

section
/-! Obligations of 42_parallel_transport.md. -/

namespace Sys2Proof.Machine

/-- Settles O36: a command that returned `Ok` sent the transfers of the selects and of itself, with
status reads between them (`issues_of_ok`); a chip that listens takes the bytes of the transfers and
nothing of the reads (`hears_of_carries`); and it decodes them to what was sent
(`understood_insertedSelects`). -/
theorem chipUnderstandsWhatWasIssued : Obligations.ChipUnderstandsWhatWasIssued := by
  intro i c s t hi hlistens hp hx hok
  obtain ⟨u, rfl, hadds, -, evs, hshape, hcarries⟩ := issues_of_ok hi hx hok
  obtain ⟨new, hnew⟩ := hadds.trace
  have hevs : (new.map (·.ev)).map untimed = evs := by
    simpa [State.shape, State.events, ← hnew] using hshape
  obtain ⟨w, hidle, hbytes⟩ := chipBytes_of_listens hlistens
  refine ⟨new, hnew.symm, fun edge => ?_⟩
  have hheard := (hears_of_carries (edge := edge) hcarries w hidle).2 []
  rw [List.append_nil, heard_nil, List.append_nil, ← hevs, heard_untimed] at hheard
  rw [hbytes, hheard]
  exact understood_insertedSelects hp i _ c _

end Sys2Proof.Machine
end

section
/-!
SUPPORT. Serial accesses (43_serial_transport.md): the nibble-bytes bit by bit, and sequencing
rewritten around a frame.
-/

namespace Sys2Proof.Machine

/-! ### Nibble-bytes -/

theorem nibHi_eq_append (b : Byte) : nibHi b = b.extractLsb' 4 4 ++ 0#4 := by
  revert b; decide

theorem nibLo_eq_append (b : Byte) : nibLo b = b.extractLsb' 0 4 ++ 0#4 :=
  BitVec.shiftLeft_eq_concat_of_lt (by decide)

/-- The mask of the spec's formula leaves a byte as it is. -/
theorem nibLo_eq_masked (b : Byte) : nibLo b = (b <<< 4) &&& 0xFF#8 :=
  BitVec.and_allOnes.symm

/-! ### Sequencing -/

section Sequencing

variable {α β γ : Type}

theorem OpResult.andThen_assoc (r : OpResult α) (f : α → State → OpResult β)
    (g : β → State → OpResult γ) :
    (r.andThen f).andThen g = r.andThen fun a s => (f a s).andThen g := by
  cases r <;> rfl

/-- Two continuations that agree on what `r` is known to leave when it is done are the same after
`r`. -/
theorem OpResult.andThen_congr {r : OpResult α} {P : State → Prop} {f g : α → State → OpResult β}
    (hr : r.IfDone P) (hfg : ∀ a t, P t → f a t = g a t) : r.andThen f = r.andThen g := by
  cases r with
  | done a t => exact hfg a t hr
  | raised e t => rfl
  | hung h => rfl

end Sequencing

/-! ### The serial frame -/

variable {i : Nat} {s : State}

theorem ifDone_awaitDeadline_cfg : (awaitDeadline i s).IfDone fun t => t.cfg = s.cfg :=
  (shows_waitUntil (i := i) _).imp fun _ ht => ht.adds.cfg_eq

theorem memWrite_ser (hbus : s.cfg.bus = .ser) (reg : Reg) (v : Payload) :
    memWrite i reg v s = serWrite i reg v s := by
  simp only [memWrite, hbus]

/-- A frame and its booking are one transaction (R172, R175). -/
theorem serWrite_andThen_book (reg : Reg) (v : Payload) (d : Duration) (s : State) :
    ((serWrite i reg v s).andThen fun _ s => book i d s)
      = transaction i d (linkWriteAll (frameBytes reg v)) s := by
  simp only [serWrite, OpResult.andThen_assoc, transaction, book]

end Sys2Proof.Machine
end

section
/-! Obligations of 43_serial_transport.md. -/

namespace Sys2Proof.Machine

/-- Settles O12, by the bits of each of the two nibble-bytes. -/
theorem nibbleBytes_spec : Obligations.NibbleBytes := by
  refine ⟨fun b => ?_, fun b => ?_, rfl, rfl, rfl, rfl⟩
  · rw [nibbleBytes, nibHi_eq_append, nibLo_eq_append]
  · rw [nibbleBytes, nibHi, nibLo_eq_masked]

/-- Settles O43: the wait leaves the parameters as they are (`ifDone_awaitDeadline_cfg`), so after
it `emit` is the serial frame and the booking (`serWrite_andThen_book`). -/
theorem serialEmitIsTransaction : Obligations.SerialEmitIsTransaction := by
  refine fun i c s hbus => OpResult.andThen_congr ifDone_awaitDeadline_cfg fun _ t hcfg => ?_
  rw [memWrite_ser (hcfg ▸ hbus)]
  exact serWrite_andThen_book _ _ _ t

end Sys2Proof.Machine
end

section
/-!
SUPPORT. Waits, events and bookings in time (44_timing_scheduler.md R191, R192): how a wait ends, how
late the events of an operation are (`Later`), and the deadline that a transfer, a read or a command
leaves when it is done (`DueAfter`).
-/

namespace Sys2Proof.Machine

variable {i : Nat} {s t : State} {d : Duration}

/-! ### Waits -/

/-- The state after a wait for the instant `d`. -/
def waited (d : Instant) (s : State) : State := record (.wait d) (clockTo d (elapse s))

/-- A wait is done or never returns; it does not fail. -/
theorem waitUntil_cases (d : Instant) (s : State) :
    waitUntil d s = .done () (waited d s) ∨ waitUntil d s = .hung (.clockStopped d) := by
  unfold waitUntil
  split
  · exact .inr rfl
  · exact .inl rfl

/-- A wait for an instant that has passed returns, even if the clock has stopped. -/
theorem waitUntil_of_passed {d : Instant} (h : d ≤ s.env.clock) :
    waitUntil d s = .done () (waited d s) := by
  have hpassed : ¬ (elapse s).env.clock < d :=
    Nat.not_lt.mpr (h.trans (clock_le_envAfter s.env))
  have hreaches : neverReaches d (elapse s) = false := by
    unfold neverReaches
    split
    · rfl
    · exact decide_eq_false fun hstop => hpassed hstop.1
  simp only [waitUntil, hreaches, waited]

theorem runWaitReady_of_done (hi : i < s.numLines) (h : awaitDeadline i s = .done () t) :
    runWaitReady i s = .next (answer .okUnit t) := by
  simp [runWaitReady, onLine, hi, returnUnit, h, OpResult.andThen, complete]

/-- A `wait_ready` that is answered has waited for the deadline. -/
theorem eq_of_runWaitReady_next (hi : i < s.numLines) (h : runWaitReady i s = .next t) :
    t = answer .okUnit (waited (s.line i).deadline s) := by
  rcases waitUntil_cases (s.line i).deadline s with hdone | hhung
  · rw [runWaitReady_of_done hi hdone] at h
    exact (Host.Outcome.next.inj h).symm
  · simp [runWaitReady, onLine, hi, returnUnit, awaitDeadline, hhung, OpResult.andThen,
      complete] at h

/-! ### Events in time -/

/-- From `s` to `t` the clock did not go back, and the events added happened in between. -/
structure Later (s t : State) : Prop where
  clock : s.env.clock ≤ t.env.clock
  trace : ∃ new, t.trace = s.trace ++ new
    ∧ ∀ e ∈ new, s.env.clock ≤ e.instant ∧ e.instant ≤ t.env.clock

/-- An update that adds no event. -/
theorem later_silent (htrace : t.trace = s.trace) (hclock : s.env.clock ≤ t.env.clock) :
    Later s t :=
  ⟨hclock, [], by rw [htrace, List.append_nil], nofun⟩

theorem Later.trans {u : State} (h : Later s t) (k : Later t u) : Later s u := by
  obtain ⟨hclock, new, hnew, hin⟩ := h
  obtain ⟨kclock, new', knew, kin⟩ := k
  refine ⟨hclock.trans kclock, new ++ new', by rw [knew, hnew, List.append_assoc], fun e he => ?_⟩
  rcases List.mem_append.mp he with he | he
  · exact ⟨(hin e he).1, (hin e he).2.trans kclock⟩
  · exact ⟨hclock.trans (kin e he).1, (kin e he).2⟩

/-- Every primitive update on a line goes forward in time. -/
theorem closed_later (i : Nat) : Closed i Later where
  refl _ := later_silent rfl le_rfl
  trans _ _ _ := .trans
  elapse s := later_silent rfl (clock_le_envAfter s.env)
  dropVerdict _ := later_silent rfl le_rfl
  dropSample _ := later_silent rfl (by simp)
  clockTo _ _ := later_silent rfl (le_max_left _ _)
  record s ev _ := ⟨le_rfl, [⟨s.env.clock, ev⟩], rfl, by simp⟩
  setPin _ _ _ _ := later_silent (by simp) (by simp)
  drive _ _ := later_silent (by simp) (by simp)
  scramble _ := later_silent rfl le_rfl
  applyDir _ _ := later_silent rfl le_rfl
  setMode _ _ := later_silent rfl le_rfl
  setDeadline _ _ := later_silent rfl le_rfl
  setChipUnknown _ _ := later_silent rfl le_rfl

/-- Where no event lies in the future, none does later. -/
theorem Later.past (h : Later s t) (hs : ∀ e ∈ s.trace, e.instant ≤ s.env.clock) :
    ∀ e ∈ t.trace, e.instant ≤ t.env.clock := by
  obtain ⟨hclock, new, hnew, hin⟩ := h
  intro e he
  rw [hnew] at he
  rcases List.mem_append.mp he with he | he
  · exact (hs e he).trans hclock
  · exact (hin e he).2

theorem OpResult.EndsIn.of_ends {α : Type} {r : OpResult α} {P : State → Prop} (h : r.EndsIn t)
    (hP : r.Ends P) : P t := by
  cases r with
  | done a u => obtain rfl : u = t := h; exact hP
  | raised e u => obtain rfl : u = t := h; exact hP
  | hung f => exact h.elim

/-- What follows the wait for a deadline adds its events after that wait. -/
theorem waitsFirst_of_ends {α : Type} {f : Unit → State → OpResult α}
    (hf : ∀ u, (f () u).Ends (Later u)) (h : ((awaitDeadline i s).andThen f).EndsIn t) :
    WaitsFirst (s.line i).deadline s t := by
  rw [awaitDeadline] at h
  rcases waitUntil_cases (s.line i).deadline s with hdone | hhung
  · rw [hdone] at h
    obtain ⟨-, new, hnew, hin⟩ := OpResult.EndsIn.of_ends h (hf _)
    exact ⟨new, by simp [hnew, waited], fun e he => (hin e he).1⟩
  · rw [hhung] at h
    exact h.elim

/-- What follows the wait of a scheduled read: the access and its booking. -/
theorem ends_parRead_book {α : Type} {R : State → State → Prop} (h : Closed i R) (reg : Reg)
    {read : Nat → State → OpResult α} (hr : ∀ s, (read i s).Ends (R s)) (s : State) :
    ((parRead i reg read s).andThen fun a s => (book i s.cfg.tRead s).andThen fun _ s =>
      .done a s).Ends (R s) :=
  ends_andThen h (ends_parRead h reg read hr s) fun _ s =>
    ends_andThen h (ends_book h _ s) fun _ s => h.refl s

/-! ### Bookings -/

/-- If line `i` exists, its deadline is this instant plus `d`. -/
def DueAfter (i : Nat) (d : Duration) (t : State) : Prop :=
  i < t.numLines → (t.line i).deadline = t.env.clock + d

/-- A new mode leaves the deadline. -/
theorem DueAfter.setMode (h : DueAfter i d t) (m : Mode) : DueAfter i d (setMode i m t) := by
  intro hi
  rw [numLines_setMode] at hi
  rw [Machine.setMode, line_modLine_same t i _ hi]
  exact h hi

theorem ifDone_book_due (d : Duration) (s : State) : (book i d s).IfDone (DueAfter i d) := by
  intro hi
  rw [numLines_setDeadline] at hi
  exact congrArg LineRegs.deadline (line_modLine_same (elapse s) i _ hi)

/-- A transfer that is done books its execution time (R193). -/
theorem ifDone_emit_due (c : Command) (s : State) :
    (emit i c s).IfDone (DueAfter i (executionTime c)) :=
  ifDone_last fun _ _ => ifDone_last fun _ s => ifDone_book_due _ s

/-- A read that is done books `T_READ` (R195). -/
theorem ifDone_schedRead_due {α : Type} (reg : Reg) (read : Nat → State → OpResult α) (s : State) :
    (schedRead i reg read s).IfDone fun t => DueAfter i t.cfg.tRead t :=
  ifDone_last fun _ _ => ifDone_last fun _ s => ifDone_book_due s.cfg.tRead s

theorem ifDone_emitSelect_due (c : Command) (m : Mode) (s : State) :
    (emitSelect i c m s).IfDone (DueAfter i (executionTime c)) :=
  endsOr_andThen (ifDone_emit_due c s) fun _ _ ht => ht.setMode m

theorem ifDone_toBasic_due (s : State) :
    (toBasic i s).IfDone (DueAfter i (executionTime .selectBasic)) :=
  ifDone_last fun _ s => ifDone_emitSelect_due _ _ s

/-- Each path of the mode machine ends with the transfer of the command itself
(45_mode_machine.md R211). -/
theorem ifDone_execCommand_due (c : Command) (s : State) :
    (execCommand i c s).IfDone (DueAfter i (executionTime c)) := by
  have hclass := covers_classOf s.cfg.writePolicy c
  unfold execCommand execClass
  generalize classOf s.cfg.writePolicy c = k at hclass ⊢
  cases k with
  | basicOp => exact ifDone_last fun _ _ => ifDone_last fun _ s => ifDone_emit_due c s
  | extOp => exact ifDone_last fun _ s => ifDone_emit_due c s
  | selB =>
    obtain rfl : c = .selectBasic := hclass
    exact ifDone_last fun _ s => ifDone_toBasic_due s
  | selE =>
    obtain rfl : c = .selectExtended := hclass
    exact ifDone_emitSelect_due _ _ s
  | selG =>
    obtain rfl : c = .selectGraphic := hclass
    exact ifDone_last fun _ s => ifDone_emitSelect_due _ _ s
  | neutral => exact ifDone_emit_due c s

/-- A command answered with `Ok` is one that was done. -/
theorem execCommand_of_ok {c : Command} (hi : i < s.numLines)
    (hx : exec (instrOf i c) s = .next t) (hok : t.results = s.results ++ [.okUnit]) :
    ∃ u, execCommand i c s = .done () u ∧ t = answer .okUnit u := by
  have hends := ends_execCommand (closed_onlyAdds i) c s
  rw [exec_instrOf, execute, onLine, if_pos hi] at hx
  cases hr : execCommand i c s with
  | done a u =>
    rw [hr] at hx
    cases hx
    exact ⟨u, rfl, rfl⟩
  | raised e u =>
    rw [hr] at hx hends
    cases hx
    have hres : u.results = s.results := hends.results
    simp [hres] at hok
  | hung f =>
    rw [hr] at hx
    cases hx

/-- After an operation on an existing line that booked `d`, the deadline lies that long after every
event. -/
theorem booked_of_due (hi : i < s.numLines) (hpast : ∀ e ∈ s.trace, e.instant ≤ s.env.clock)
    (hadds : OnlyAdds i s t) (hlater : Later s t) (hdue : DueAfter i d t) : Booked i d t := by
  have hdeadline := hdue (hadds.lt_numLines hi)
  refine ⟨hdeadline, fun e he => ?_⟩
  rw [hdeadline]
  exact Nat.add_le_add_right (hlater.past hpast e he) d

theorem booked_emit (hi : i < s.numLines) (hpast : ∀ e ∈ s.trace, e.instant ≤ s.env.clock)
    {c : Command} (h : emit i c s = .done () t) : Booked i (executionTime c) t := by
  have hadds := ends_emit (closed_onlyAdds i) c s
  have hlater := ends_emit (closed_later i) c s
  have hdue := ifDone_emit_due (i := i) c s
  rw [h] at hadds hlater hdue
  exact booked_of_due hi hpast hadds hlater hdue

theorem booked_schedRead {α : Type} {read : Nat → State → OpResult α}
    (hread : ∀ {R : State → State → Prop}, Closed i R → ∀ s, (read i s).Ends (R s))
    (hi : i < s.numLines) (hpast : ∀ e ∈ s.trace, e.instant ≤ s.env.clock) {reg : Reg} {a : α}
    (h : schedRead i reg read s = .done a t) : Booked i s.cfg.tRead t := by
  have hadds := ends_schedRead (closed_onlyAdds i) reg read (hread (closed_onlyAdds i)) s
  have hlater := ends_schedRead (closed_later i) reg read (hread (closed_later i)) s
  have hdue := ifDone_schedRead_due (i := i) reg read s
  rw [h] at hadds hlater hdue
  have hcfg : t.cfg = s.cfg := OnlyAdds.cfg_eq hadds
  rw [← hcfg]
  exact booked_of_due hi hpast hadds hlater hdue

end Sys2Proof.Machine
end

section
/-!
SUPPORT. An access that fails leaves the deadline and the mode of its line: pins alone change within
an access, and nothing that can fail comes after the booking (60_exceptions.md R285).
-/

namespace Sys2Proof.Machine

variable {i : Nat} {s : State}

/-- What the scheduler and the mode machine keep of a line: its deadline and its mode
(10_state.md R21, R22). -/
def LineRegs.schedule (l : LineRegs) : Instant × Mode := (l.deadline, l.mode)

/-- An update of any line that leaves a part `g` of it leaves that part of every line. -/
theorem part_modLine {α : Type} {g : LineRegs → α} (j : Nat) {f : LineRegs → LineRegs}
    (hf : ∀ l, g (f l) = g l) (i : Nat) (s : State) :
    g ((modLine j f s).line i) = g (s.line i) := by
  simp only [State.line, modLine_lines, List.getD_eq_getElem?_getD, List.getElem?_modify]
  cases s.lines[i]? with
  | none => rfl
  | some l => by_cases h : j = i <;> simp [h, hf]

theorem schedule_setPin (p : Pin) (v : Bool) (i : Nat) (s : State) :
    ((setPin p v s).line i).schedule = (s.line i).schedule := by
  cases p with
  | rs | rw => rfl
  | e j =>
    exact part_modLine (g := LineRegs.schedule) j (f := ({ · with e := v })) (fun _ => rfl) i s
  | cs j =>
    exact part_modLine (g := LineRegs.schedule) j (f := ({ · with cs := v })) (fun _ => rfl) i s

/-- No pin and no time changes the schedule of a line. -/
theorem steady_schedule (i : Nat) (x : Instant × Mode) :
    Steady (fun _ => True) fun s => (s.line i).schedule = x :=
  { steady_line (fun l => l.schedule = x) i with
    setPin := fun s p v _ h => (schedule_setPin p v i s).trans h }

/-- A transfer that fails has not booked. -/
theorem schedule_of_emit_raised (c : Command) : (emit i c s).EndsOr (fun _ => True)
    fun t => (t.line i).schedule = (s.line i).schedule := by
  have hsteady := steady_schedule i (s.line i).schedule
  refine endsOr_andThen (steady_waitUntil hsteady _ rfl) fun _ u hu => ?_
  refine endsOr_andThen (steady_memWrite (hsteady.fewer fun _ _ => trivial)
    (hsteady.fewer fun _ _ => trivial) _ _ hu) fun _ _ _ => ?_
  trivial

/-- A scheduled read that fails has not booked. -/
theorem schedule_of_schedRead_raised {α : Type} (reg : Reg) {read : Nat → State → OpResult α}
    (hread : ∀ {P : State → Prop}, Steady (Pin.onParallel i) P → ∀ s, P s →
      (read i s).EndsOr P P) :
    (schedRead i reg read s).EndsOr (fun _ => True)
      fun t => (t.line i).schedule = (s.line i).schedule := by
  have hsteady := steady_schedule i (s.line i).schedule
  have hpins := hsteady.fewer (pins' := Pin.onParallel i) fun _ _ => trivial
  refine endsOr_andThen (steady_waitUntil hsteady _ rfl) fun _ u hu => ?_
  refine endsOr_andThen (steady_parRead hpins (fun _ _ => id) reg (hread hpins) hu) fun _ _ _ => ?_
  trivial

/-- An operation that failed before it booked anything: what it leaves as it was. -/
theorem booksNothing_of_raised {α : Type} {r : OpResult α} {e : BlockError} {t : State}
    (hr : r = .raised e t) (hadds : r.Ends (OnlyAdds i s))
    (hschedule : r.EndsOr (fun _ => True) fun t => (t.line i).schedule = (s.line i).schedule) :
    (t.line i).deadline = (s.line i).deadline ∧ (t.line i).mode = (s.line i).mode
      ∧ (∃ new, t.trace = s.trace ++ new) ∧ KeepsRest i s t := by
  subst hr
  obtain ⟨hrest, ⟨new, hnew⟩, -⟩ := hadds
  obtain ⟨hdeadline, hmode⟩ := Prod.mk.inj hschedule
  exact ⟨hdeadline, hmode, ⟨new, hnew.symm⟩, hrest⟩

end Sys2Proof.Machine
end

section
/-!
SUPPORT. Where the clock stops before the deadline of a line (`Stalled`), each path of the mode machine
hangs at its first access, a transfer or the read of a poll (44_timing_scheduler.md R198).
-/

namespace Sys2Proof.Machine

variable {i : Nat} {d : Instant} {s : State}

/-- The deadline of line `i` is `d`, and the clock stops before it. -/
def Stalled (i : Nat) (d : Instant) (s : State) : Prop :=
  (s.line i).deadline = d ∧ ∃ stop, s.env.stopAt = some stop ∧ s.env.clock ≤ stop ∧ stop < d

/-- The clock does not pass the instant at which it stops. -/
theorem clock_envAfter_le {e : Env} {stop : Instant} (hstop : e.stopAt = some stop)
    (h : e.clock ≤ stop) : (envAfter e).clock ≤ stop := by
  unfold envAfter clockAfter
  rw [hstop]
  split <;> exact max_le h (min_le_right _ _)

theorem Stalled.elapse (h : Stalled i d s) : Stalled i d (elapse s) := by
  obtain ⟨hd, stop, hstop, hclock, hlt⟩ := h
  exact ⟨hd, stop, by simpa using hstop, clock_envAfter_le hstop hclock, hlt⟩

theorem awaitDeadline_stalled (h : Stalled i d s) :
    awaitDeadline i s = .hung (.clockStopped d) := by
  obtain ⟨hd, stop, hstop, hclock, hlt⟩ := h.elapse
  have hnever : neverReaches d (elapse s) = true := by
    unfold neverReaches
    rw [hstop]
    exact decide_eq_true ⟨hclock.trans_lt hlt, hlt⟩
  have hdeadline : (s.line i).deadline = d := hd
  simp only [awaitDeadline, hdeadline, waitUntil, hnever]

theorem emit_stalled (h : Stalled i d s) (c : Command) :
    emit i c s = .hung (.clockStopped d) := by
  simp only [emit, awaitDeadline_stalled h, OpResult.andThen]

theorem emitSelect_stalled (h : Stalled i d s) (c : Command) (m : Mode) :
    emitSelect i c m s = .hung (.clockStopped d) := by
  simp only [emitSelect, emit_stalled h, OpResult.andThen]

/-- A poll reads at least once, and hangs there; where nothing is polled nothing happens. -/
theorem pollBusy_stalled (h : Stalled i d s) :
    pollBusy i s = .done () s ∨ pollBusy i s = .hung (.clockStopped d) := by
  unfold pollBusy
  split
  · exact .inl rfl
  · obtain ⟨n, hn⟩ : ∃ n, pollFuel (elapse s) = n + 1 := ⟨_, rfl⟩
    rw [now_andThen, hn]
    exact .inr (by simp only [pollLoop, schedRead, awaitDeadline_stalled h.elapse, OpResult.andThen])

theorem toBasic_stalled (h : Stalled i d s) : toBasic i s = .hung (.clockStopped d) := by
  rcases pollBusy_stalled h with hp | hp
  · simp only [toBasic, hp, OpResult.andThen, emitSelect_stalled h]
  · simp only [toBasic, hp, OpResult.andThen]

/-- A step of a path that is done in one mode only hangs, or is passed over; what follows then hangs. -/
theorem whenMode_andThen_stalled {m : Mode} {op : State → OpResult Unit}
    {f : Unit → State → OpResult Unit} (hop : op s = .hung (.clockStopped d))
    (hf : f () s = .hung (.clockStopped d)) :
    (whenMode i m op s).andThen f = .hung (.clockStopped d) := by
  unfold whenMode
  split
  · rw [hop]; rfl
  · exact hf

theorem execCommand_stalled (h : Stalled i d s) (c : Command) :
    execCommand i c s = .hung (.clockStopped d) := by
  have hext : toExtended i s = _ := emitSelect_stalled h .selectExtended .extended
  have hbasic := toBasic_stalled h
  have hgraphic : toGraphic i s = _ := emitSelect_stalled h .selectGraphic .graphic
  have hemit := emit_stalled h c
  unfold execCommand execClass
  cases classOf s.cfg.writePolicy c with
  | basicOp => exact whenMode_andThen_stalled hext (whenMode_andThen_stalled hbasic hemit)
  | extOp => exact whenMode_andThen_stalled hext hemit
  | selB => exact whenMode_andThen_stalled hext hbasic
  | selE => exact hext
  | selG => exact whenMode_andThen_stalled hext hgraphic
  | neutral => exact hemit

end Sys2Proof.Machine
end

section
/-!
SUPPORT. A transfer where primitives take no time (`Prompt`): how many of the given times each helper
uses up, at most, and that it ends at the instant at which it started (44_timing_scheduler.md R194).
-/

namespace Sys2Proof.Machine

/-- It is `now`, the clock runs, pulses have no width, and the next `n` primitives at least take no
time. -/
structure Prompt (now : Instant) (n : Nat) (s : State) : Prop where
  clock : s.env.clock = now
  runs : s.env.stopAt = none
  tPw : s.cfg.tPw = 0
  enough : n ≤ s.env.ticks.length
  zero : ∀ d ∈ s.env.ticks, d = 0

variable {i : Nat} {now : Instant} {m n : Nat} {s t : State}

theorem Prompt.fewer (h : Prompt now n s) (hmn : m ≤ n) : Prompt now m s :=
  { h with enough := hmn.trans h.enough }

/-- An update of neither the environment nor the parameters. -/
theorem Prompt.congr (h : Prompt now n s) (henv : t.env = s.env) (hcfg : t.cfg = s.cfg) :
    Prompt now n t := by
  obtain ⟨hclock, hruns, htPw, henough, hzero⟩ := h
  exact ⟨henv ▸ hclock, henv ▸ hruns, hcfg ▸ htPw, henv ▸ henough, henv ▸ hzero⟩

/-- One of the given times is used up, and it is zero. -/
theorem Prompt.elapse (h : Prompt now (n + 1) s) : Prompt now n (elapse s) := by
  obtain ⟨hclock, hruns, htPw, henough, hzero⟩ := h
  cases hticks : s.env.ticks with
  | nil => simp [hticks] at henough
  | cons d rest =>
    rw [hticks] at henough hzero
    obtain rfl : d = 0 := hzero d List.mem_cons_self
    have henv : (Machine.elapse s).env = { s.env with ticks := rest } := by
      simp [envAfter, clockAfter, hticks, hruns]
    exact ⟨by rw [henv]; exact hclock, by rw [henv]; exact hruns, htPw,
      by rw [henv]; exact Nat.le_of_succ_le_succ henough,
      by rw [henv]; exact fun d hd => hzero d (List.mem_cons_of_mem 0 hd)⟩

theorem prompt_attempt {α : Type} (mk : Nat → BlockError) (onFail : State → State)
    {effect : State → OpResult α} (hEffect : ∀ s, Prompt now n s → (effect s).IfDone (Prompt now n))
    (h : Prompt now (n + 1) s) : (attempt mk onFail effect s).IfDone (Prompt now n) := by
  obtain ⟨hclock, hruns, htPw, henough, hzero⟩ := h.elapse
  unfold attempt
  split
  · trivial
  · exact hEffect _ ⟨hclock, hruns, htPw, henough, hzero⟩

theorem prompt_pinWrite (p : Pin) (v : Bool) (h : Prompt now (n + 1) s) :
    (pinWrite p v s).IfDone (Prompt now n) :=
  prompt_attempt _ _ (fun s hs => hs.congr (by simp) (by simp)) h

theorem prompt_dataDrive (v : Byte) (h : Prompt now (n + 1) s) :
    (dataDrive v s).IfDone (Prompt now n) :=
  prompt_attempt _ _ (fun s hs => hs.congr (by simp) (by simp)) h

theorem prompt_linkWrite (b : Byte) (h : Prompt now (n + 1) s) :
    (linkWrite b s).IfDone (Prompt now n) :=
  prompt_attempt _ _ (fun _ hs => hs.congr rfl rfl) h

/-- A wait takes the time to its instant and no more. -/
theorem prompt_waitUntil (d : Instant) (h : Prompt now (n + 1) s) :
    (waitUntil d s).IfDone (Prompt (max now d) n) := by
  rcases waitUntil_cases d s with hdone | hhung
  · rw [hdone]
    obtain ⟨hclock, hruns, htPw, henough, hzero⟩ := h.elapse
    exact ⟨congrArg (max · d) hclock, hruns, htPw, henough, hzero⟩
  · rw [hhung]
    trivial

/-- A delay for the pulse width, which is zero: the clock is sampled, and then waited for. -/
theorem prompt_delay (h : Prompt now (n + 2) s) : (delay s.cfg.tPw s).IfDone (Prompt now n) := by
  have hsampled := h.elapse
  rw [delay, now_andThen, h.tPw, hsampled.clock]
  simpa using prompt_waitUntil now hsampled

theorem prompt_latch (h : Prompt now (n + 4) s) : (latch i s).IfDone (Prompt now n) := by
  refine endsOr_andThen (prompt_pinWrite (.e i) true h) fun _ _ h => ?_
  refine endsOr_andThen (prompt_delay h) fun _ t h => ?_
  exact ifDone_andThen_done (prompt_pinWrite (.e i) false h) ()

/-- One write cycle: a drive and a pulse. -/
theorem prompt_cycle (b : Byte) (h : Prompt now (n + 5) s) :
    ((dataDrive b s).andThen fun _ s => latch i s).IfDone (Prompt now n) :=
  endsOr_andThen (prompt_dataDrive b h) fun _ _ => prompt_latch

/-- A byte takes two cycles at most (42_parallel_transport.md R146). -/
theorem prompt_writeU8 (b : Byte) (h : Prompt now (n + 10) s) :
    (writeU8 i b s).IfDone (Prompt now n) := by
  unfold writeU8
  split
  · refine endsOr_andThen (prompt_dataDrive _ h) fun _ _ h => ?_
    exact endsOr_andThen (prompt_latch h) fun _ _ => prompt_cycle _
  · exact prompt_cycle b (h.fewer (by omega))
  · exact prompt_cycle b (h.fewer (by omega))

/-- Two bytes at most, after the register is selected. -/
theorem prompt_parWrite (reg : Reg) (v : Payload) (h : Prompt now (n + 22) s) :
    (parWrite i reg v s).IfDone (Prompt now n) := by
  have hselect : (selectReg reg s).IfDone (Prompt now (n + 20)) :=
    endsOr_andThen (prompt_pinWrite .rs _ h) fun _ _ => prompt_pinWrite .rw _
  refine endsOr_andThen hselect fun _ t h => ?_
  cases v with
  | one b => exact prompt_writeU8 b (h.fewer (by omega))
  | two v => exact endsOr_andThen (prompt_writeU8 _ h) fun _ _ => prompt_writeU8 _

theorem prompt_linkWriteAll (bs : List Byte) :
    ∀ {s}, Prompt now (n + bs.length) s → (linkWriteAll bs s).IfDone (Prompt now n) := by
  induction bs with
  | nil => exact id
  | cons b bs ih => exact fun h => endsOr_andThen (prompt_linkWrite b h) fun _ _ => ih

/-- A frame has five bytes at most (43_serial_transport.md R175). -/
theorem length_frameBytes_le (reg : Reg) (v : Payload) : (frameBytes reg v).length ≤ 5 := by
  cases v <;> simp [frameBytes, payloadNibbles, nibbleBytes]

theorem prompt_serWrite (reg : Reg) (v : Payload) (h : Prompt now (n + 7) s) :
    (serWrite i reg v s).IfDone (Prompt now n) := by
  have hlength := length_frameBytes_le reg v
  refine endsOr_andThen (prompt_pinWrite (.cs i) true h) fun _ t h => ?_
  refine endsOr_andThen (prompt_linkWriteAll (n := n + 1) _ (h.fewer (by omega))) fun _ _ => ?_
  exact prompt_pinWrite (.cs i) false

theorem prompt_memWrite (reg : Reg) (v : Payload) (h : Prompt now (n + 22) s) :
    (memWrite i reg v s).IfDone (Prompt now n) := by
  unfold memWrite
  split
  · exact prompt_parWrite reg v h
  · exact prompt_parWrite reg v h
  · exact prompt_serWrite reg v (h.fewer (by omega))

/-- A transfer takes the wait for the deadline and no more; of the given times it uses 24 at most. -/
theorem prompt_emit (c : Command) (h : Prompt now (n + 24) s) :
    (emit i c s).IfDone (Prompt (max now (s.line i).deadline) n) := by
  refine endsOr_andThen (prompt_waitUntil _ h) fun _ t h => ?_
  refine endsOr_andThen (prompt_memWrite (n := n + 1) _ _ h) fun _ t h => ?_
  exact h.elapse.congr rfl rfl

end Sys2Proof.Machine
end

section
/-!
SUPPORT. While the clock runs each operation on an existing line returns (`Returns`). For the busy poll
there is a bound on the reads it can still make (`pollBudget`), which the clock lowers with each of
them (45_mode_machine.md R224).
-/

namespace Sys2Proof.Machine

/-- Line `i` exists and the clock runs. -/
structure Running (i : Nat) (s : State) : Prop where
  lt : i < s.numLines
  runs : s.env.stopAt = none

/-- The operation ends, and if it is done line `i` exists and the clock runs still. -/
def OpResult.Returns {α : Type} (i : Nat) (r : OpResult α) : Prop :=
  match r with
  | .done _ t => Running i t
  | .raised _ _ => True
  | .hung _ => False

variable {α β : Type} {i : Nat} {s t : State} {r : OpResult α}

theorem returns_andThen {f : α → State → OpResult β} (hr : r.Returns i)
    (hf : ∀ a t, Running i t → (f a t).Returns i) : (r.andThen f).Returns i := by
  cases r with
  | done a t => exact hf a t hr
  | raised e t => trivial
  | hung f => exact hr.elim

/-- What the line and the clock are like does not depend on its registers. -/
theorem Running.modLine (h : Running i s) (j : Nat) (f : LineRegs → LineRegs) :
    Running i (modLine j f s) := ⟨by simpa using h.lt, h.runs⟩

/-- An operation whose failures are tracked returns. -/
theorem returns_of_tracks {evs : List Event} (h : Running i s) (hr : Tracks i s evs r) :
    r.Returns i := by
  rcases hr with ⟨a, t, rfl, hmoves, -⟩ | ⟨n, e, ev, t, rfl, -⟩
  · exact ⟨hmoves.lt h.lt, hmoves.runs⟩
  · trivial

/-! ### Accesses -/

theorem returns_now (h : Running i s) : (now s).Returns i := returns_of_tracks h (tracks_now h.runs)

theorem returns_waitUntil (d : Instant) (h : Running i s) : (waitUntil d s).Returns i :=
  returns_of_tracks h (tracks_waitUntil h.runs d)

theorem returns_delay (d : Duration) (h : Running i s) : (delay d s).Returns i :=
  returns_of_tracks h (tracks_delay h.runs d)

theorem returns_memWrite {reg : Reg} (hreg : regRw reg = false) (v : Payload) (h : Running i s) :
    (memWrite i reg v s).Returns i :=
  returns_of_tracks h (tracks_memWrite h.lt h.runs reg hreg v)

theorem returns_setDir (d : Dir) (h : Running i s) : (setDir d s).Returns i :=
  returns_of_tracks h (tracks_setDir h.runs d)

/-- One read pulse, in its pieces: the value sampled depends on the state at the sample. -/
theorem returns_readPulse (h : Running i s) : (latched i dataSample s).Returns i := by
  have pin : ∀ v {t}, Running i t → (pinWrite (.e i) v t).Returns i :=
    fun v _ ht => returns_of_tracks ht (tracks_pinWrite ht.lt ht.runs (.e i) v rfl)
  refine returns_andThen (pin true h) fun _ t h => ?_
  refine returns_andThen (returns_delay _ h) fun _ t h => ?_
  refine returns_andThen (returns_of_tracks h (tracks_dataSample h.runs)) fun _ t h => ?_
  exact returns_andThen (pin false h) fun _ _ => id

theorem returns_readU8 (h : Running i s) : (readU8 i s).Returns i := by
  unfold readU8
  split
  · exact returns_andThen (returns_readPulse h) fun _ _ h =>
      returns_andThen (returns_readPulse h) fun _ _ => id
  · exact returns_readPulse h
  · exact returns_readPulse h

theorem returns_readU16 (h : Running i s) : (readU16 i s).Returns i :=
  returns_andThen (returns_readU8 h) fun _ _ h => returns_andThen (returns_readU8 h) fun _ _ => id

theorem returns_book (d : Duration) (h : Running i s) : (book i d s).Returns i :=
  returns_andThen (returns_now h) fun _ _ h => h.modLine i _

theorem returns_emit (c : Command) (h : Running i s) : (emit i c s).Returns i := by
  refine returns_andThen (returns_waitUntil _ h) fun _ t h => ?_
  refine returns_andThen (returns_memWrite (regRw_commandAccess _ c) _ h) fun _ t h => ?_
  exact returns_book _ h

theorem returns_schedRead (reg : Reg) {read : Nat → State → OpResult α}
    (hread : ∀ s, Running i s → (read i s).Returns i) (h : Running i s) :
    (schedRead i reg read s).Returns i := by
  have hpar : ∀ s, Running i s → (parRead i reg read s).Returns i := fun s h =>
    returns_andThen (returns_setDir _ h) fun _ _ h =>
    returns_andThen (returns_of_tracks h (tracks_selectReg h.lt h.runs reg)) fun _ _ h =>
    returns_andThen (hread _ h) fun _ _ h => returns_andThen (returns_setDir _ h) fun _ _ => id
  refine returns_andThen (returns_waitUntil _ h) fun _ t h => ?_
  refine returns_andThen (hpar t h) fun _ t h => ?_
  exact returns_andThen (returns_book _ h) fun _ _ => id

/-! ### The busy poll -/

/-- From `s` to `t` the clock did not go back, and no time was given anew. -/
structure Spends (s t : State) : Prop where
  clock : s.env.clock ≤ t.env.clock
  ticks : t.env.ticks.length ≤ s.env.ticks.length

theorem envAfterSample_ticks (e : Env) : (envAfterSample e).ticks = e.ticks := by
  unfold envAfterSample
  split <;> rfl

theorem length_ticks_envAfter_le (e : Env) : (envAfter e).ticks.length ≤ e.ticks.length := by
  unfold envAfter
  split
  next hticks => simp [hticks]
  next => exact le_rfl

/-- An update that leaves the environment. -/
theorem spends_of_env (h : t.env = s.env) : Spends s t := ⟨h ▸ le_rfl, h ▸ le_rfl⟩

theorem closed_spends (i : Nat) : Closed i Spends where
  refl _ := spends_of_env rfl
  trans _ _ _ h k := ⟨h.clock.trans k.clock, k.ticks.trans h.ticks⟩
  elapse s := ⟨clock_le_envAfter s.env, length_ticks_envAfter_le s.env⟩
  dropVerdict _ := ⟨le_rfl, le_rfl⟩
  dropSample s := ⟨by simp, by simp [envAfterSample_ticks]⟩
  clockTo _ _ := ⟨le_max_left _ _, le_rfl⟩
  record _ _ _ := spends_of_env rfl
  setPin _ _ _ _ := spends_of_env (by simp)
  drive _ _ := spends_of_env (by simp)
  scramble _ := ⟨le_rfl, le_rfl⟩
  applyDir _ _ := spends_of_env rfl
  setMode _ _ := spends_of_env rfl
  setDeadline _ _ := spends_of_env rfl
  setChipUnknown _ _ := spends_of_env rfl

/-- How often the clock can still be sampled before `ceiling`: each time uses up one of the given
times, or, when they are used up, takes a microsecond or more (log 1). -/
def pollBudget (ceiling : Instant) (s : State) : Nat :=
  s.env.ticks.length + (ceiling - s.env.clock)

theorem Spends.pollBudget_le (h : Spends s t) (ceiling : Instant) :
    pollBudget ceiling t ≤ pollBudget ceiling s :=
  Nat.add_le_add h.ticks (Nat.sub_le_sub_left h.clock ceiling)

theorem pollBudget_elapse_lt {ceiling : Instant} (hruns : s.env.stopAt = none)
    (hbefore : (elapse s).env.clock < ceiling) :
    pollBudget ceiling (elapse s) < pollBudget ceiling s := by
  cases hticks : s.env.ticks with
  | nil =>
    have hclock : (elapse s).env.clock = s.env.clock + (Config.freeTick s.env.draws + 1) := by
      simp [envAfter, clockAfter, hticks, hruns]
    have hnone : (elapse s).env.ticks.length = 0 := by simp [envAfter, hticks]
    simp only [pollBudget, hnone, hticks, List.length_nil]
    simp only [Instant] at *
    omega
  | cons d rest =>
    have hrest : (elapse s).env.ticks = rest := by simp [envAfter, hticks]
    have hleft : ceiling - (elapse s).env.clock ≤ ceiling - s.env.clock :=
      Nat.sub_le_sub_left (clock_le_envAfter s.env) ceiling
    simp only [pollBudget, hrest, hticks, List.length_cons]
    exact Nat.add_lt_add_of_lt_of_le (Nat.lt_succ_self _) hleft

/-- The poll returns before it has used up the reads allowed to it. -/
theorem returns_pollLoop (t0 : Instant) (fuel : Nat) : ∀ {s}, Running i s →
    pollBudget (t0 + tPollCeil) s < fuel → (pollLoop i t0 fuel s).Returns i := by
  induction fuel with
  | zero => exact fun _ hfuel => absurd hfuel (Nat.not_lt_zero _)
  | succ n ih =>
    intro s h hfuel
    have hreturns := returns_schedRead .status (fun _ => returns_readU8) h
    have hspends := ends_schedRead (closed_spends i) .status readU8
      (ends_readU8 (closed_spends i)) s
    unfold pollLoop
    cases hread : schedRead i .status readU8 s with
    | raised e t => trivial
    | hung f =>
      rw [hread] at hreturns
      exact hreturns
    | done b t =>
      rw [hread] at hreturns hspends
      have hnow : Running i (elapse t) := returns_now hreturns
      have hbudget := hspends.pollBudget_le (t0 + tPollCeil)
      simp only [OpResult.andThen, now]
      split
      · exact hreturns
      · split
        next => exact hnow
        next hceil =>
          have hbefore : (elapse t).env.clock < t0 + tPollCeil :=
            lt_add_of_tsub_lt_left (not_le.mp (of_decide_eq_false hceil))
          have hless := pollBudget_elapse_lt hreturns.runs hbefore
          exact ih hnow (by omega)

/-- What a poll is allowed from the start is enough. -/
theorem returns_pollBusy (h : Running i s) : (pollBusy i s).Returns i := by
  unfold pollBusy
  split
  · exact h
  · rw [now_andThen]
    refine returns_pollLoop _ _ (returns_now h) ?_
    simp only [pollBudget, pollFuel]
    omega

/-! ### Commands and host operations -/

theorem returns_emitSelect (c : Command) (m : Mode) (h : Running i s) :
    (emitSelect i c m s).Returns i :=
  returns_andThen (returns_emit c h) fun _ _ h => h.modLine i _

theorem returns_toBasic (h : Running i s) : (toBasic i s).Returns i :=
  returns_andThen (returns_pollBusy h) fun _ _ => returns_emitSelect _ _

theorem returns_whenMode (m : Mode) {op : State → OpResult Unit}
    (hop : ∀ {s}, Running i s → (op s).Returns i) (h : Running i s) :
    (whenMode i m op s).Returns i := by
  unfold whenMode
  split
  · exact hop h
  · exact h

theorem returns_execCommand (c : Command) (h : Running i s) : (execCommand i c s).Returns i := by
  have viaExtended : ∀ m, (whenMode i m (toExtended i) s).Returns i :=
    fun m => returns_whenMode m (returns_emitSelect _ _) h
  unfold execCommand execClass
  cases classOf s.cfg.writePolicy c with
  | basicOp =>
    refine returns_andThen (viaExtended _) fun _ t h => ?_
    exact returns_andThen (returns_whenMode _ returns_toBasic h) fun _ _ => returns_emit c
  | extOp => exact returns_andThen (viaExtended _) fun _ _ => returns_emit c
  | selB => exact returns_andThen (viaExtended _) fun _ _ => returns_toBasic
  | selE => exact returns_emitSelect _ _ h
  | selG => exact returns_andThen (viaExtended _) fun _ _ => returns_emitSelect _ _
  | neutral => exact returns_emit c h

theorem returns_initBody (h : Running i s) : (initBody i s).Returns i := by
  refine returns_andThen (returns_now h) fun _ s h => ?_
  refine returns_andThen (returns_waitUntil _ h) fun _ s h => ?_
  refine returns_andThen (returns_now (h.modLine i _)) fun _ s h => ?_
  refine returns_andThen (returns_emit _ (h.modLine i _)) fun _ s h => ?_
  refine returns_andThen (returns_delay _ h) fun _ s h => ?_
  refine returns_andThen (returns_emit _ h) fun _ s h => ?_
  refine returns_andThen (returns_delay _ h) fun _ s h => ?_
  refine returns_andThen (returns_emit _ h) fun _ s h => ?_
  exact returns_andThen (returns_emit _ h) fun _ _ => returns_emit _

/-- An operation that returns, on a line that exists or not, ends in no fault. -/
theorem onLine_ne_fault {op : State → OpResult HostResult}
    (hop : Running i s → (op s).Returns i) (hruns : s.env.stopAt = none) (f : Fault) :
    onLine i op s ≠ .fault f := by
  unfold onLine
  split
  next hi =>
    have hreturns := hop ⟨hi, hruns⟩
    intro hfault
    cases hr : op s with
    | done v t => rw [hr] at hfault; cases hfault
    | raised e t => rw [hr] at hfault; cases hfault
    | hung f => rw [hr] at hreturns; exact hreturns
  next => nofun

theorem returns_returnUnit {r : OpResult Unit} (hr : r.Returns i) : (returnUnit r).Returns i :=
  returns_andThen hr fun _ _ => id

theorem readOperation_ne_fault {op : State → OpResult HostResult}
    (hop : Running i s → (op s).Returns i) (hruns : s.env.stopAt = none) (f : Fault) :
    readOperation i op s ≠ .fault f := by
  unfold readOperation
  split
  · exact onLine_ne_fault hop hruns f
  · nofun

/-- An instruction is `execute` with its command, or a read. -/
theorem exec_ne_fault (c : Instr) (hruns : s.env.stopAt = none) (f : Fault) :
    exec c s ≠ .fault f := by
  have command : ∀ i k, execute i k s ≠ .fault f := fun i k =>
    onLine_ne_fault (fun h => returns_returnUnit (returns_execCommand k h)) hruns f
  cases c with
  | readStatus i =>
    refine readOperation_ne_fault (fun h => ?_) hruns f
    exact returns_andThen (returns_schedRead _ (fun _ => returns_readU8) h) fun _ _ => id
  | readRam i =>
    refine readOperation_ne_fault (fun h => ?_) hruns f
    exact returns_andThen (returns_schedRead _ (fun _ => returns_readU16) h) fun _ _ => id
  | _ => exact command _ _

end Sys2Proof.Machine
end

section
/-! Obligations of 44_timing_scheduler.md. -/

namespace Sys2Proof.Machine

/-- Settles O30: the first wait brings the clock to the deadline, which has then passed for the second
(`waitUntil_of_passed`). -/
theorem secondWaitNeverBlocks : Obligations.SecondWaitNeverBlocks := by
  intro i s t hi h
  obtain rfl := eq_of_runWaitReady_next hi h
  have hpassed : (s.line i).deadline ≤ (waited (s.line i).deadline s).env.clock :=
    le_max_right _ _
  refine ⟨_, runWaitReady_of_done hi (waitUntil_of_passed hpassed), rfl, ?_⟩
  exact max_eq_left (hpassed.trans (clock_le_envAfter _))

/-- Settles O33: whatever goes before it, the transfer of the command itself comes last and books
(`ifDone_execCommand_due`). -/
theorem deadlineAfterOk : Obligations.DeadlineAfterOk := by
  intro i c s t hi hx hok
  obtain ⟨u, hdone, rfl⟩ := execCommand_of_ok hi hx hok
  have hadds := ends_execCommand (closed_onlyAdds i) c s
  have hdue := ifDone_execCommand_due (i := i) c s
  rw [hdone] at hadds hdue
  exact hdue (OnlyAdds.lt_numLines hadds hi)

/-- Settles O39: each operation returns while the clock runs; a poll does since the clock it samples
reaches the ceiling (`returns_pollLoop`). -/
theorem runningClockNeverHangs : Obligations.RunningClockNeverHangs := by
  refine fun s f hruns => ⟨fun c => exec_ne_fault c hruns f, fun i => ⟨?waitReady, ?init⟩⟩
  case waitReady =>
    exact onLine_ne_fault (fun h => returns_returnUnit (returns_waitUntil _ h)) hruns f
  case init =>
    refine onLine_ne_fault (fun h => returns_returnUnit ?_) hruns f
    exact returns_andThen (returns_initBody h) fun _ _ h => h.modLine i _

/-- Settles O40: the wait comes first, and time only goes forward in what follows it
(`waitsFirst_of_ends`). -/
theorem accessWaitsForDeadline : Obligations.AccessWaitsForDeadline := by
  refine fun i s t => ⟨fun c h => ?write, fun reg h => ?readByte, fun reg h => ?readWord⟩
  case write =>
    exact waitsFirst_of_ends (fun u => ends_andThen (closed_later i)
      (ends_memWrite (closed_later i) _ _ u) fun _ => ends_book (closed_later i) _) h
  case readByte =>
    exact waitsFirst_of_ends (ends_parRead_book (closed_later i) reg (ends_readU8 (closed_later i))) h
  case readWord =>
    exact waitsFirst_of_ends (ends_parRead_book (closed_later i) reg (ends_readU16 (closed_later i))) h

/-- Settles O41: the clock is sampled once, after the access and so after its events
(`booked_of_due`). -/
theorem bookingFollowsTheAccess : Obligations.BookingFollowsTheAccess := by
  refine fun i s t hi => ⟨fun d => rfl, fun hpast => ⟨fun c h => ?_, fun reg b h => ?_,
    fun reg v h => ?_⟩⟩
  · exact booked_emit hi hpast h
  · exact booked_schedRead ends_readU8 hi hpast h
  · exact booked_schedRead ends_readU16 hi hpast h

/-- Settles O42: the wait for the old deadline takes its time and no primitive takes any
(`prompt_emit`). -/
theorem transferTakesOnlyTheWait : Obligations.TransferTakesOnlyTheWait := by
  intro i c s t hi htPw hruns henough hzero h
  have hprompt := prompt_emit (i := i) (n := 0) c ⟨rfl, hruns, htPw, henough, hzero⟩
  have hadds := ends_emit (closed_onlyAdds i) c s
  have hdue := ifDone_emit_due (i := i) c s
  rw [h] at hprompt hadds hdue
  have hclock : t.env.clock = max s.env.clock (s.line i).deadline := hprompt.clock
  exact ⟨hclock, hclock ▸ hdue (OnlyAdds.lt_numLines hadds hi)⟩

/-- Settles O50: what can fail comes before the booking and drives pins only
(`schedule_of_emit_raised`, `schedule_of_schedRead_raised`). -/
theorem failedTransferBooksNothing : Obligations.FailedTransferBooksNothing := by
  have adds := closed_onlyAdds
  rintro i e s t (⟨c, h⟩ | ⟨reg, h⟩ | ⟨reg, h⟩)
  · exact booksNothing_of_raised h (ends_emit (adds i) c s) (schedule_of_emit_raised c)
  · exact booksNothing_of_raised h (ends_schedRead (adds i) reg _ (ends_readU8 (adds i)) s)
      (schedule_of_schedRead_raised reg fun hP _ => steady_readU8 hP)
  · exact booksNothing_of_raised h (ends_schedRead (adds i) reg _ (ends_readU16 (adds i)) s)
      (schedule_of_schedRead_raised reg fun hP _ => steady_readU16 hP)

/-- Settles O53: each path of the mode machine starts with a wait for the deadline, which the clock
never reaches (`execCommand_stalled`). -/
theorem stoppedClockHangs : Obligations.StoppedClockHangs := by
  intro i c s stop hi hstop hclock hlt
  rw [exec_instrOf, execute, onLine, if_pos hi,
    execCommand_stalled ⟨rfl, stop, hstop, hclock, hlt⟩ c]
  rfl

end Sys2Proof.Machine
end

section
/-!
SUPPORT. The selects issued as commands in a cooperative environment and without busy polling: the
paths of 45_mode_machine.md R216 to R218.
-/

namespace Sys2Proof.Machine

variable {i : Nat} {s : State}

theorem sends_toExtended (h : Ready i s) :
    Sends i [] (false, [0x24#8]) 72 .extended s (toExtended i s) :=
  sends_emitSelect h .selectExtended .extended

theorem sends_toGraphic (h : Ready i s) :
    Sends i [] (false, [0x26#8]) 72 .graphic s (toGraphic i s) :=
  sends_emitSelect h .selectGraphic .graphic

theorem sends_toBasic (h : Ready i s) (hp : s.cfg.busyPoll = false) :
    Sends i [] (false, [0x20#8]) 72 .basic s (toBasic i s) := by
  rw [toBasic_off hp]
  exact sends_emitSelect h .selectBasic .basic

/-- `SelectExtended` if the line is in mode `m'`, and then a select that sends alone from every
mode. -/
theorem sends_viaExtended {m' m : Mode} {f : State → OpResult Unit} {a : Bool × List Byte}
    (h : Ready i s) (hf : ∀ t, Ready i t → t.cfg = s.cfg → Sends i [] a 72 m t (f t)) :
    Sends i (if (s.line i).mode = m' then [(false, [0x24#8])] else []) a 72 m s
      ((whenMode i m' (toExtended i) s).andThen fun _ s => f s) := by
  unfold whenMode
  split_ifs
  · exact sends_select_then h .selectExtended .extended f [] a 72 m fun t ht hcfg _ => hf t ht hcfg
  · exact hf s h rfl

/-- From Graphic through Extended (R216). -/
theorem sends_selB (h : Ready i s) (hp : s.cfg.busyPoll = false) :
    Sends i (if (s.line i).mode = .graphic then [(false, [0x24#8])] else []) (false, [0x20#8]) 72
      .basic s (execCommand i .selectBasic s) :=
  sends_viaExtended h fun _ ht hcfg => sends_toBasic ht (hcfg ▸ hp)

/-- From Basic through Extended (R218). -/
theorem sends_selG (h : Ready i s) :
    Sends i (if (s.line i).mode = .basic then [(false, [0x24#8])] else []) (false, [0x26#8]) 72
      .graphic s (execCommand i .selectGraphic s) :=
  sends_viaExtended h fun _ ht _ => sends_toGraphic ht

end Sys2Proof.Machine
end

section
/-!
SUPPORT. Where no primitive fails no operation of the mode machine does (`Unfailing`): whatever the
status reads of a poll answer, it can only be done or hang (45_mode_machine.md R222, R224).
-/

namespace Sys2Proof.Machine

/-- Line `i` exists, no primitive fails, and the parameters are `p`. -/
structure ReadyWith (i : Nat) (p : Params) (s : State) : Prop where
  ready : Ready i s
  cfg : s.cfg = p

/-- The operation does not fail, and nothing fails after it either. -/
abbrev OpResult.Unfailing {α : Type} (i : Nat) (p : Params) (r : OpResult α) : Prop :=
  r.EndsOr (ReadyWith i p) fun _ => False

variable {i : Nat} {p : Params} {s t : State}

theorem ReadyWith.of_good {evs : List Event} (h : ReadyWith i p s) (hgood : Good i s evs t) :
    ReadyWith i p t := ⟨hgood.ready h.ready, hgood.rest.1.trans h.cfg⟩

theorem ReadyWith.elapse (h : ReadyWith i p s) : ReadyWith i p (elapse s) :=
  ⟨⟨h.ready.1, h.ready.2.elapse⟩, h.cfg⟩

/-- A scheduled status read is done, with a byte of the values sampled. -/
theorem schedRead_status_coop (h : Ready i s) (hb : s.cfg.bus.isParallel = true) :
    ∃ vs b t, SampledByte s.cfg s.env.samples vs b ∧ schedRead i .status readU8 s = .done b t
      ∧ Good i s (readEvents i false vs) t
      ∧ pinView i t = (pinView i s).afterRead false vs.length := by
  obtain ⟨vs, b, t, hvs, hdone, hgood, hview, -⟩ := schedRead_coop h .status rfl
    (P := SampledByte s.cfg s.env.samples) fun t ht hcfg hs =>
      hcfg ▸ hs ▸ reads_readU8 ht (hcfg ▸ hb)
  exact ⟨vs, b, t, hvs, hdone, hgood, hview⟩

theorem unfailing_emit (c : Command) (h : ReadyWith i p s) : (emit i c s).Unfailing i p := by
  obtain ⟨t, hdone, hgood, -⟩ := emit_coop h.ready c
  rw [hdone]
  exact h.of_good hgood

theorem unfailing_schedRead_status (hb : p.bus.isParallel = true) (h : ReadyWith i p s) :
    (schedRead i .status readU8 s).Unfailing i p := by
  obtain ⟨vs, b, t, -, hdone, hgood, -⟩ := schedRead_status_coop h.ready (h.cfg ▸ hb)
  rw [hdone]
  exact h.of_good hgood

theorem unfailing_pollLoop (hb : p.bus.isParallel = true) (t0 : Instant) (fuel : Nat) :
    ∀ {s}, ReadyWith i p s → (pollLoop i t0 fuel s).Unfailing i p := by
  induction fuel with
  | zero => exact fun _ => trivial
  | succ n ih =>
    refine fun h => endsOr_andThen (unfailing_schedRead_status hb h) fun b t ht => ?_
    split
    · exact ht
    · rw [now_andThen]
      split
      · exact ht.elapse
      · exact ih ht.elapse

theorem unfailing_pollBusy (h : ReadyWith i p s) : (pollBusy i s).Unfailing i p := by
  unfold pollBusy
  split
  next => exact h
  next hpoll =>
    have hb := (Bool.and_eq_true_iff.mp hpoll).2
    rw [h.cfg] at hb
    exact unfailing_pollLoop hb _ _ h.elapse

theorem unfailing_emitSelect (c : Command) (m : Mode) (h : ReadyWith i p s) :
    (emitSelect i c m s).Unfailing i p :=
  endsOr_andThen (unfailing_emit c h) fun _ _ ht => ht.of_good (good_modLine ht.ready.2 _)

theorem unfailing_toBasic (h : ReadyWith i p s) : (toBasic i s).Unfailing i p :=
  endsOr_andThen (unfailing_pollBusy h) fun _ _ => unfailing_emitSelect _ _

theorem unfailing_whenMode (m : Mode) {op : State → OpResult Unit}
    (hop : ∀ {s}, ReadyWith i p s → (op s).Unfailing i p) (h : ReadyWith i p s) :
    (whenMode i m op s).Unfailing i p := by
  unfold whenMode
  split
  · exact hop h
  · exact h

theorem unfailing_execCommand (c : Command) (h : ReadyWith i p s) :
    (execCommand i c s).Unfailing i p := by
  have viaExtended : ∀ m, (whenMode i m (toExtended i) s).Unfailing i p :=
    fun m => unfailing_whenMode m (unfailing_emitSelect _ _) h
  unfold execCommand execClass
  cases classOf s.cfg.writePolicy c with
  | basicOp =>
    refine endsOr_andThen (viaExtended _) fun _ t ht => ?_
    exact endsOr_andThen (unfailing_whenMode _ unfailing_toBasic ht) fun _ _ => unfailing_emit c
  | extOp => exact endsOr_andThen (viaExtended _) fun _ _ => unfailing_emit c
  | selB => exact endsOr_andThen (viaExtended _) fun _ _ => unfailing_toBasic
  | selE => exact unfailing_emitSelect _ _ h
  | selG => exact endsOr_andThen (viaExtended _) fun _ _ => unfailing_emitSelect _ _
  | neutral => exact unfailing_emit c h

/-- While the clock runs a command that cannot fail is done, since it returns
(`returns_execCommand`). -/
theorem execCommand_done (h : Ready i s) (c : Command) : ∃ t, execCommand i c s = .done () t := by
  have hunfailing := unfailing_execCommand c (p := s.cfg) ⟨h, rfl⟩
  have hreturns := returns_execCommand c (i := i) ⟨h.1, h.2.2⟩
  cases hr : execCommand i c s with
  | done a t => exact ⟨t, rfl⟩
  | raised e t => rw [hr] at hunfailing; exact hunfailing.elim
  | hung f => rw [hr] at hreturns; exact hreturns.elim

/-- The instruction whose command is done hands out `Ok`. -/
theorem exec_of_done {c : Command} (hi : i < s.numLines)
    (hdone : execCommand i c s = .done () t) : exec (instrOf i c) s = .next (answer .okUnit t) := by
  simp [exec_instrOf, execute, onLine, hi, returnUnit, hdone, OpResult.andThen, complete]

end Sys2Proof.Machine
end

section
/-!
SUPPORT. The busy poll where the chip answers not busy (45_mode_machine.md R222): one status read,
and how a command that polls is sent and completes (`SendsPolled`, `completes_polled`).
-/

namespace Sys2Proof.Machine

variable {i : Nat} {s t : State} {vs : List Byte}

/-! ### The answer -/

/-- The values of one status read stand first among those the environment gives, fit the data wires,
and say not busy. -/
structure AnswersReady (p : Params) (vs given : List Byte) : Prop where
  prefix_given : vs <+: given
  length_eq : vs.length = 8 / p.width
  fits : ∀ v ∈ vs, onWires p v = v
  ready : busyRead p.bus vs = false

/-- Bit 7 of a status byte read in two nibbles is the top wire of the first (20_memory.md R55, R58).
-/
theorem statusBusy_joinNibbles (hi lo : Byte) :
    statusBusy (joinNibbles hi lo) = hi.getLsbD 3 := by
  simp [statusBusy, joinNibbles]

/-- Those values are the ones sampled, and the byte they make says not busy. -/
theorem AnswersReady.sampled {p : Params} {given us : List Byte} {b : Byte}
    (h : AnswersReady p vs given) (hb : p.bus.isParallel = true) (hus : SampledByte p given us b) :
    us = vs ∧ statusBusy b = false := by
  obtain ⟨⟨rest, rfl⟩, hlen, hfits, hready⟩ := h
  cases hbus : p.bus with
  | ser => simp [hbus, Bus.isParallel] at hb
  | par8 =>
    obtain ⟨v, rfl⟩ := List.length_eq_one_iff.mp (by simpa [Params.width, hbus] using hlen)
    obtain ⟨rfl, hv⟩ := hus.par8 hbus
    obtain rfl : b = v := hv v rest rfl
    rw [hbus] at hready
    exact ⟨rfl, hready⟩
  | par4 =>
    obtain ⟨x, y, rfl⟩ := List.length_eq_two.mp (by simpa [Params.width, hbus] using hlen)
    obtain ⟨rfl, rfl⟩ := hus.par4 hbus x y rest rfl
    rw [hfits x (by simp), hfits y (by simp), statusBusy_joinNibbles]
    rw [hbus] at hready
    exact ⟨rfl, hready⟩

/-- Line `i` exists and is polled, nothing fails, and the chip is not busy. -/
structure PollReady (i : Nat) (vs : List Byte) (s : State) : Prop where
  ready : Ready i s
  parallel : s.cfg.bus.isParallel = true
  polls : s.cfg.busyPoll = true
  answers : AnswersReady s.cfg vs s.env.samples

theorem PollReady.congr (h : PollReady i vs s) (ht : Ready i t) (hcfg : t.cfg = s.cfg)
    (hsamples : t.env.samples = s.env.samples) : PollReady i vs t := by
  obtain ⟨-, hb, hpolls, hanswers⟩ := h
  exact ⟨ht, hcfg ▸ hb, hcfg ▸ hpolls, hcfg ▸ hsamples ▸ hanswers⟩

/-- The loop stops at an answer that is not busy. -/
theorem pollLoop_of_notBusy {b : Byte} (t0 : Instant) (fuel : Nat)
    (hread : schedRead i .status readU8 s = .done b t) (hbusy : statusBusy b = false) :
    pollLoop i t0 (fuel + 1) s = .done () t := by
  simp only [pollLoop, hread, OpResult.andThen, hbusy]

/-- A poll of a chip that is not busy is one status read. -/
theorem pollBusy_ready (h : PollReady i vs s) :
    ∃ t, pollBusy i s = .done () t ∧ Good i s (readEvents i false vs) t
      ∧ pinView i t = (pinView i s).afterRead false vs.length := by
  obtain ⟨_, hnow, gnow, vnow⟩ := goes_now (i := i) h.ready.2
  cases hnow
  have helapse := h.congr (gnow.ready h.ready) rfl (congrArg PinView.samples vnow)
  obtain ⟨us, b, t, hus, hread, gread, vread⟩ :=
    schedRead_status_coop helapse.ready helapse.parallel
  obtain ⟨rfl, hbusy⟩ := helapse.answers.sampled helapse.parallel hus
  have hpoll : pollBusy i s = pollLoop i (elapse s).env.clock (pollFuel (elapse s)) (elapse s) := by
    simp only [pollBusy, h.polls, h.parallel, Bool.and_self, now_andThen]
  exact ⟨t, hpoll.trans (pollLoop_of_notBusy _ _ hread hbusy), gnow.trans gread,
    by rw [vread, vnow]⟩

/-! ### Transfers after a poll -/

/-- The operation is done, having polled with the values `vs`: the trace grew by `evs`, after the
poll the last access on line `i` was `a`, the mode is `m` and `d` is booked. -/
def SendsPolled (i : Nat) (vs : List Byte) (evs : List Event) (a : Bool × List Byte) (d : Duration)
    (m : Mode) (s : State) (r : OpResult Unit) : Prop :=
  ∃ t, r = .done () t ∧ Good i s evs t
    ∧ pinView i t
      = { ((pinView i s).afterRead false vs.length).afterWrite s.cfg.bus a.1 a.2 with mode := m }
    ∧ (t.line i).deadline = t.env.clock + d

variable {evs : List Event} {a : Bool × List Byte} {d : Duration} {m : Mode}

/-- A read sets the wires to outputs, so the write after it leaves the pins as they would be without
the write before it. -/
theorem afterWrite_afterRead (v : PinView) {b : Bus} (hb : b.isParallel = true)
    (x y : Bool) (l l' : List Byte) (n : Nat) (m m' : Mode) :
    ({ (({ v.afterWrite b x l with mode := m } : PinView).afterRead false n).afterWrite b y l' with
        mode := m' } : PinView)
      = { (v.afterRead false n).afterWrite b y l' with mode := m' } := by
  obtain ⟨rs, rw, data, wires, dir, mode, e, cs, unknown, samples⟩ := v
  cases b with
  | ser => cases hb
  | par4 | par8 => cases dir <;> rfl

/-- A write access uses up no sample. -/
theorem afterWrite_samples (v : PinView) (b : Bus) (x : Bool) (l : List Byte) :
    (v.afterWrite b x l).samples = v.samples := by
  obtain ⟨rs, rw, data, wires, dir, mode, e, cs, unknown, samples⟩ := v
  cases b <;> cases dir <;> rfl

/-- The poll and `SelectBasic` (R214, R216). -/
theorem sendsPolled_toBasic (h : PollReady i vs s) :
    SendsPolled i vs (readEvents i false vs ++ emitEvents s.cfg.bus i (false, [0x20#8]))
      (false, [0x20#8]) 72 .basic s (toBasic i s) := by
  obtain ⟨t, hpoll, gpoll, vpoll⟩ := pollBusy_ready h
  obtain ⟨u, hsel, gsel, vsel, hd, -⟩ :=
    sends_emitSelect (gpoll.ready h.ready) .selectBasic .basic
  rw [gpoll.rest.1, List.nil_append, List.flatMap_singleton] at gsel
  rw [gpoll.rest.1] at vsel
  refine ⟨u, by simp [toBasic, hpoll, hsel, OpResult.andThen], gpoll.trans gsel, ?_, hd⟩
  · rw [vsel, vpoll]; rfl

/-- A transfer after those that followed the poll. -/
theorem SendsPolled.emit {r : OpResult Unit} (h : Ready i s) (c : Command)
    (hr : SendsPolled i vs evs a d m s r) :
    SendsPolled i vs (evs ++ emitEvents s.cfg.bus i (accessOf s.cfg c)) (accessOf s.cfg c)
      (executionTime c) m s (r.andThen fun _ s => emit i c s) := by
  obtain ⟨t, rfl, g, v, -⟩ := hr
  obtain ⟨u, hdone, gemit, vemit, hd, -⟩ := emit_coop (g.ready h) c
  rw [g.rest.1] at gemit vemit
  refine ⟨u, by simp [hdone, OpResult.andThen], g.trans gemit, ?_, hd⟩
  rw [vemit, v, afterWrite_twice]

/-- `SelectExtended` before the poll, where the line is in Graphic (R214, R216). -/
theorem sendsPolled_viaExtended {f : State → OpResult Unit} (h : PollReady i vs s)
    (hf : ∀ t, PollReady i vs t → t.cfg = s.cfg →
      (t.line i).mode = (if (s.line i).mode = .graphic then .extended else (s.line i).mode) →
      SendsPolled i vs evs a d m t (f t)) :
    SendsPolled i vs
      ((if (s.line i).mode = .graphic then emitEvents s.cfg.bus i (false, [0x24#8]) else []) ++ evs)
      a d m s ((whenMode i .graphic (toExtended i) s).andThen fun _ s => f s) := by
  unfold whenMode
  split_ifs at hf ⊢ with hm
  · obtain ⟨t, hsel, gsel, vsel, -⟩ := sends_emitSelect h.ready .selectExtended .extended
    have hsamples : t.env.samples = s.env.samples :=
      (congrArg PinView.samples vsel).trans (afterWrite_samples _ _ _ _)
    have ht := h.congr (gsel.ready h.ready) gsel.rest.1 hsamples
    obtain ⟨u, hdone, g, v, hd⟩ := hf t ht gsel.rest.1 (congrArg PinView.mode vsel)
    rw [List.nil_append, List.flatMap_singleton] at gsel
    refine ⟨u, by simp [toExtended, hsel, hdone, OpResult.andThen], gsel.trans g, ?_, hd⟩
    · rw [v, vsel, gsel.rest.1, afterWrite_afterRead _ h.parallel]
  · exact hf s h rfl rfl

/-- `SelectBasic`, from every mode (R216). -/
theorem sendsPolled_selB (h : PollReady i vs s) :
    SendsPolled i vs
      ((if (s.line i).mode = .graphic then emitEvents s.cfg.bus i (false, [0x24#8]) else [])
        ++ (readEvents i false vs ++ emitEvents s.cfg.bus i (false, [0x20#8])))
      (false, [0x20#8]) 72 .basic s (execCommand i .selectBasic s) :=
  sendsPolled_viaExtended h fun _ ht hcfg _ => hcfg ▸ sendsPolled_toBasic ht

/-- A Basic-set command from the other modes (R214). -/
theorem sendsPolled_basicOp (h : PollReady i vs s) (hm : (s.line i).mode ≠ .basic) (c : Command) :
    SendsPolled i vs
      ((if (s.line i).mode = .graphic then emitEvents s.cfg.bus i (false, [0x24#8]) else [])
        ++ (readEvents i false vs ++ emitEvents s.cfg.bus i (false, [0x20#8])
          ++ emitEvents s.cfg.bus i (accessOf s.cfg c)))
      (accessOf s.cfg c) (executionTime c) .basic s (execClass i c .basicOp s) := by
  refine sendsPolled_viaExtended h fun t ht hcfg hmode => ?_
  have hext : (t.line i).mode = .extended := by
    rw [hmode]
    cases hm' : (s.line i).mode with
    | basic => exact absurd hm' hm
    | extended | graphic => rfl
  rw [whenMode_eq hext, ← hcfg]
  exact (sendsPolled_toBasic ht).emit ht.ready c

/-! ### Completion -/

/-- A write access while the wires are outputs drives them. -/
theorem afterWrite_out {v : PinView} {b : Bus} (hb : b.isParallel = true) (hv : v.dir = .out)
    (x : Bool) (l : List Byte) :
    v.afterWrite b x l = { v with
      rs := x, rw := false, data := lastDriven b (l.getLastD 0#8),
      wires := lastDriven b (l.getLastD 0#8), e := false } := by
  obtain ⟨rs, rw, data, wires, dir, mode, e, cs, unknown, samples⟩ := v
  cases hv
  cases b with
  | ser => cases hb
  | par4 | par8 => rfl

/-- A command that is sent after a poll completes as sent, with the wires outputs. -/
theorem completes_polled {c : Command} (h : PollReady i vs s)
    (hs : SendsPolled i vs evs a d m s (execCommand i c s)) :
    Completes (instrOf i c) s fun t => t.env.samples = s.env.samples.drop vs.length
      ∧ SentWith i evs a d m .out s t := by
  obtain ⟨t, hdone, g, v, hd⟩ := hs
  rw [afterWrite_out h.parallel rfl] at v
  have hpins : PinsAfterWrite i a s t := by
    have hrs := congrArg PinView.rs v
    have hrw := congrArg PinView.rw v
    have hdata := congrArg PinView.data v
    have hwires := congrArg PinView.wires v
    have hdir := congrArg PinView.dir v
    have he := congrArg PinView.e v
    have hcs := congrArg PinView.cs v
    have hb := h.parallel
    unfold PinsAfterWrite DataAfterDrive
    cases hbus : s.cfg.bus with
    | ser => simp [hbus, Bus.isParallel] at hb
    | par4 | par8 =>
      rw [hbus] at hdata hwires
      exact ⟨hrs, hrw, he, hcs, fun _ => ⟨hdata, hwires⟩,
        fun hin => absurd (hdir.symm.trans hin) nofun⟩
  exact ⟨answer .okUnit t, exec_of_done h.ready.1 hdone, congrArg PinView.samples v,
    by simp [g.results], g.shape, congrArg PinView.mode v, hd, congrArg PinView.chipUnknown v,
    congrArg PinView.dir v, hpins, g.rest⟩

/-- In Basic a Basic-set command goes out alone (R214). -/
theorem execClass_basicOp_of_basic (hm : (s.line i).mode = .basic) (c : Command) :
    execClass i c .basicOp s = emit i c s := by
  simp only [execClass, whenMode_ne hm (show Mode.basic ≠ .graphic by decide),
    whenMode_ne hm (show Mode.basic ≠ .extended by decide), OpResult.andThen]

/-- What is sent without a poll uses up no sample. -/
theorem completes_sent_samples {pre : List (Bool × List Byte)} {c : Command} (h : Ready i s)
    (hs : Sends i pre a d m s (execCommand i c s)) :
    Completes (instrOf i c) s fun t => t.env.samples = s.env.samples ∧ Sent i pre a d m s t := by
  obtain ⟨t', hx, hsent⟩ := completes_sent h (exec_instrOf i c s) hs
  obtain ⟨t, hdone, -, v, -⟩ := hs
  rw [exec_of_done h.1 hdone] at hx
  obtain rfl := Host.Outcome.next.inj hx
  exact ⟨_, exec_of_done h.1 hdone,
    (congrArg PinView.samples v).trans (afterWrite_samples _ _ _ _), hsent⟩

/-- The commands before which the chip must be in the Basic set are those of its class
(45_mode_machine.md R212). -/
theorem classOf_of_needsBasic {policy : WriteModePolicy} {c : Command}
    (h : needsBasic policy c = true) : classOf policy c = .basicOp := by
  cases c with
  | write d =>
    cases policy with
    | basicSet => rfl
    | neutral => simp [needsBasic] at h
  | clear | home | entryMode | displayOnOff | cursorDisplayCtrl | cgRamAddr | ddRamAddr => rfl
  | _ => cases h

end Sys2Proof.Machine
end

section
/-!
SUPPORT. What an operation shows in any environment, whether it is done or fails (`Yields`): an
operation that fails has shown a proper part of what it would have shown (60_exceptions.md R283).
-/

namespace Sys2Proof.Machine

/-- A first part of some events, and not all of them. -/
def ProperPart (part evs : List Event) : Prop := part <+: evs ∧ part ≠ evs

/-- From `s` to `t`, on line `i`: of the events `evs` a proper part stands. -/
def ShowsPart (i : Nat) (s : State) (evs : List Event) (t : State) : Prop :=
  ∃ part, ProperPart part evs ∧ Shows i s part t

/-- Done with `a`, the operation has shown events that `E` allows with `a`; failed, a proper part of
events that `E` allows. -/
def OpResult.Yields {α : Type} (i : Nat) (s : State) (E : α → List Event → Prop)
    (r : OpResult α) : Prop :=
  match r with
  | .done a t => ∃ evs, E a evs ∧ Shows i s evs t
  | .raised _ t => ∃ a evs, E a evs ∧ ShowsPart i s evs t
  | .hung _ => True

/-- These events, whatever the value. -/
abbrev only {α : Type} (evs : List Event) : α → List Event → Prop := fun _ es => es = evs

variable {α β : Type} {i : Nat} {s t u : State} {r : OpResult α}

/-! ### Sequencing -/

theorem ProperPart.left {part evs : List Event} (h : ProperPart part evs) (more : List Event) :
    ProperPart part (evs ++ more) := by
  obtain ⟨hpart, hne⟩ := h
  refine ⟨hpart.trans (List.prefix_append _ _), fun heq => hne ?_⟩
  have hle := hpart.length_le
  rw [heq, List.length_append] at hle
  have hmore : more = [] := List.length_eq_zero_iff.mp (by omega)
  rw [heq, hmore, List.append_nil]

theorem ProperPart.after {part evs : List Event} (h : ProperPart part evs) (e1 : List Event) :
    ProperPart (e1 ++ part) (e1 ++ evs) :=
  ⟨(List.prefix_append_right_inj e1).mpr h.1, fun heq => h.2 (List.append_cancel_left heq)⟩

theorem properPart_nil (ev : Event) (evs : List Event) : ProperPart [] (ev :: evs) :=
  ⟨List.nil_prefix, nofun⟩

/-- What is handed on shows nothing. -/
theorem yields_done (a : α) : (OpResult.done a s).Yields i s (only []) := ⟨[], rfl, Shows.refl i s⟩

/-- Sequencing. What follows can always be done somehow: a failure before it is a failure of the
whole. -/
theorem yields_andThen {E : α → List Event → Prop} {F : α → β → List Event → Prop}
    {G : β → List Event → Prop} {f : α → State → OpResult β} (hr : r.Yields i s E)
    (hf : ∀ a t, OnlyAdds i s t → (f a t).Yields i t (F a)) (hsome : ∀ a, ∃ b es, F a b es)
    (hG : ∀ a b e1 e2, E a e1 → F a b e2 → G b (e1 ++ e2)) : (r.andThen f).Yields i s G := by
  cases r with
  | done a t =>
    obtain ⟨e1, h1, hshows⟩ := hr
    have hnext := hf a t hshows.adds
    simp only [OpResult.andThen]
    cases hfa : f a t with
    | done b u =>
      rw [hfa] at hnext
      obtain ⟨e2, h2, hshows2⟩ := hnext
      exact ⟨e1 ++ e2, hG a b e1 e2 h1 h2, hshows.trans hshows2⟩
    | raised e u =>
      rw [hfa] at hnext
      obtain ⟨b, e2, h2, part, hpart, hshows2⟩ := hnext
      exact ⟨b, e1 ++ e2, hG a b e1 e2 h1 h2, e1 ++ part, hpart.after e1, hshows.trans hshows2⟩
    | hung x => trivial
  | raised e t =>
    obtain ⟨a, e1, h1, part, hpart, hshows⟩ := hr
    obtain ⟨b, e2, h2⟩ := hsome a
    exact ⟨b, e1 ++ e2, hG a b e1 e2 h1 h2, part, hpart.left e2, hshows⟩
  | hung x => trivial

/-- Sequencing of operations that show fixed events. -/
theorem yields_seq {e1 e2 : List Event} {f : α → State → OpResult Unit}
    (hr : r.Yields i s (only e1)) (hf : ∀ a t, OnlyAdds i s t → (f a t).Yields i t (only e2)) :
    (r.andThen f).Yields i s (only (e1 ++ e2)) :=
  yields_andThen hr hf (fun _ => ⟨(), e2, rfl⟩) fun _ _ _ _ h1 h2 => by rw [h1, h2]

/-- Fixed events first, and then what the answers of the environment decide. -/
theorem yields_then {e1 : List Event} {F : β → List Event → Prop} {f : α → State → OpResult β}
    (hr : r.Yields i s (only e1)) (hf : ∀ a t, OnlyAdds i s t → (f a t).Yields i t F)
    (hsome : ∃ b es, F b es) :
    (r.andThen f).Yields i s fun b es => ∃ e2, F b e2 ∧ es = e1 ++ e2 :=
  yields_andThen hr hf (fun _ => hsome) fun _ _ _ e2 h1 h2 => ⟨e2, h2, by rw [h1]⟩

/-- Fixed events last, after which the value is handed on. -/
theorem yields_keep {e2 : List Event} {E : α → List Event → Prop} {f : α → State → OpResult β}
    (hr : r.Yields i s E) (hf : ∀ a t, OnlyAdds i s t → (f a t).Yields i t (only e2)) :
    (r.andThen fun a s => (f a s).andThen fun _ s => .done a s).Yields i s
      fun a es => ∃ e1, E a e1 ∧ es = e1 ++ e2 := by
  have hkeep : ∀ a t, OnlyAdds i s t → ((f a t).andThen fun _ s => .done a s).Yields i t
      fun a' es => a' = a ∧ es = e2 := fun a t ht =>
    yields_andThen (F := fun _ a' es => a' = a ∧ es = []) (hf a t ht)
      (fun _ u _ => ⟨[], ⟨rfl, rfl⟩, Shows.refl i u⟩) (fun _ => ⟨a, [], rfl, rfl⟩)
      fun _ _ _ _ h1 ⟨ha, h2⟩ => ⟨ha, by rw [h1, h2, List.append_nil]⟩
  exact yields_andThen hr hkeep (fun a => ⟨a, e2, rfl, rfl⟩)
    fun _ _ e1 _ h1 ⟨ha, h2⟩ => ⟨e1, ha ▸ h1, by rw [h2]⟩

theorem OpResult.Yields.mono {E E' : α → List Event → Prop} (h : r.Yields i s E)
    (hE : ∀ a es, E a es → E' a es) : r.Yields i s E' := by
  cases r with
  | done a t =>
    obtain ⟨evs, hevs, hshows⟩ := h
    exact ⟨evs, hE a evs hevs, hshows⟩
  | raised e t =>
    obtain ⟨a, evs, hevs, hpart⟩ := h
    exact ⟨a, evs, hE a evs hevs, hpart⟩
  | hung x => trivial

/-! ### Primitives -/

/-- A primitive that shows its event when it is done and nothing when it fails. -/
theorem yields_of_shows [Inhabited α] {ev : Event}
    (hdone : r.IfDone (Shows i s [ev])) (hfail : r.EndsOr (fun _ => True) (Shows i s [])) :
    r.Yields i s (only [ev]) := by
  cases r with
  | done a t => exact ⟨[ev], rfl, hdone⟩
  | raised e t => exact ⟨default, [ev], rfl, [], properPart_nil ev [], hfail⟩
  | hung x => trivial

/-- Time passes and the verdict is used up. -/
theorem shows_tick (i : Nat) (s : State) : Shows i s [] (dropVerdict (elapse s)) :=
  (shows_elapse i s).trans (shows_nothing ((closed_onlyAdds i).dropVerdict _) rfl rfl)

/-- A fallible primitive that fails shows nothing. -/
theorem raised_attempt {α : Type} (mk : Nat → BlockError) {onFail : State → State}
    {effect : State → OpResult α} (hfail : ∀ s, Shows i s [] (onFail s))
    (heffect : ∀ s, ∃ a t, effect s = .done a t) :
    (attempt mk onFail effect s).EndsOr (fun _ => True) (Shows i s []) := by
  unfold attempt
  split
  · exact (shows_tick i s).trans (hfail _)
  · obtain ⟨a, t, hdone⟩ := heffect (dropVerdict (elapse s))
    rw [hdone]
    trivial

theorem yields_pinWrite {p : Pin} (hp : p.ofLine i) (v : Bool) :
    (pinWrite p v s).Yields i s (only [pinEvent p v]) :=
  yields_of_shows (shows_pinWrite hp v) (raised_attempt _ (Shows.refl i) fun _ => ⟨_, _, rfl⟩)

theorem yields_dataDrive (v : Byte) :
    (dataDrive v s).Yields i s (only [.data (onWires s.cfg v)]) :=
  yields_of_shows (shows_dataDrive v) <| raised_attempt _
    (fun s => shows_nothing ((closed_onlyAdds i).scramble s) rfl rfl) fun _ => ⟨_, _, rfl⟩

theorem yields_setDir (d : Dir) : (setDir d s).Yields i s (only [.dir d]) :=
  yields_of_shows (shows_setDir d) (raised_attempt _ (Shows.refl i) fun _ => ⟨_, _, rfl⟩)

theorem yields_linkWrite (b : Byte) : (linkWrite b s).Yields i s (only [.link b]) :=
  yields_of_shows (shows_linkWrite b) (raised_attempt _ (Shows.refl i) fun _ => ⟨_, _, rfl⟩)

/-- The event of a sample shows the value sampled. -/
theorem yields_dataSample : (dataSample s).Yields i s fun v es => es = [.sample v] := by
  unfold dataSample attempt
  split
  · exact ⟨0#8, _, rfl, [], properPart_nil _ [], shows_tick i s⟩
  · have hsample := shows_nothing ((closed_onlyAdds i).dropSample (dropVerdict (elapse s))) rfl rfl
    exact ⟨_, rfl, (shows_tick i s).trans (hsample.record (ev := .sample _) trivial)⟩

/-- A wait does not fail. -/
theorem yields_waitUntil (d : Instant) : (waitUntil d s).Yields i s (only [.wait 0]) := by
  have hshows := shows_waitUntil (i := i) (s := s) d
  rcases waitUntil_cases d s with hw | hw
  · rw [hw] at hshows ⊢
    exact ⟨_, rfl, hshows⟩
  · rw [hw]
    trivial

theorem yields_now : (now s).Yields i s (only []) := ⟨[], rfl, shows_elapse i s⟩

/-- The clock may be sampled first. -/
theorem yields_now_then {F : β → List Event → Prop} {f : Instant → State → OpResult β}
    (hf : ∀ d t, (f d t).Yields i t F) (hsome : ∃ b es, F b es) :
    ((now s).andThen f).Yields i s F :=
  (yields_then yields_now (fun d t _ => hf d t) hsome).mono fun _ _ ⟨_, h2, hes⟩ => hes ▸ h2

theorem yields_book (d : Duration) : (book i d s).Yields i s (only []) := ⟨[], rfl, shows_book d⟩

theorem yields_delay (d : Duration) : (delay d s).Yields i s (only [.wait 0]) :=
  yields_seq yields_now fun _ _ _ => yields_waitUntil _

/-! ### Writes -/

theorem yields_selectReg (reg : Reg) :
    (selectReg reg s).Yields i s (only [.rs (regRs reg), .rw (regRw reg)]) :=
  yields_seq (yields_pinWrite (p := .rs) trivial _) fun _ _ _ =>
    yields_pinWrite (p := .rw) trivial _

/-- One pulse around `f`. -/
theorem yields_latched {E : α → List Event → Prop} {f : State → OpResult α}
    (hf : ∀ t, (f t).Yields i t E) (hsome : ∃ a es, E a es) :
    (latched i f s).Yields i s fun a es =>
      ∃ mid, E a mid ∧ es = [.en i true, .wait 0] ++ mid ++ [.en i false] := by
  obtain ⟨a, mid, hmid⟩ := hsome
  have hpulse := yields_then (yields_pinWrite (s := s) (p := .e i) rfl true)
    (fun _ t _ => yields_then (yields_delay (s := t) t.cfg.tPw)
      (fun _ u _ => yields_keep (hf u) fun _ _ _ => yields_pinWrite (p := .e i) rfl false)
      ⟨a, _, mid, hmid, rfl⟩)
    ⟨a, _, _, ⟨mid, hmid, rfl⟩, rfl⟩
  refine hpulse.mono ?_
  rintro a _ ⟨_, ⟨_, ⟨mid, hmid, rfl⟩, rfl⟩, rfl⟩
  exact ⟨mid, hmid, rfl⟩

theorem yields_latch : (latch i s).Yields i s (only [.en i true, .wait 0, .en i false]) :=
  (yields_latched (E := only []) (fun _ => yields_done ()) ⟨(), [], rfl⟩).mono
    fun _ _ ⟨_, hmid, hes⟩ => by rw [hes, hmid]; rfl

/-- One write cycle: a drive and a pulse. -/
theorem yields_cycle (v : Byte) : ((dataDrive v s).andThen fun _ s => latch i s).Yields i s
    (only (writePulse i (onWires s.cfg v))) :=
  yields_seq (yields_dataDrive v) fun _ _ _ => yields_latch

theorem yields_writeU8 (hb : s.cfg.bus.isParallel = true) (v : Byte) :
    (writeU8 i v s).Yields i s (only (byteEvents s.cfg.bus i v)) := by
  unfold writeU8
  cases hbus : s.cfg.bus with
  | ser => simp [hbus, Bus.isParallel] at hb
  | par8 =>
    have hcycle := yields_cycle (i := i) (s := s) v
    rwa [onWires_par8 hbus] at hcycle
  | par4 =>
    have hhigh := yields_cycle (i := i) (s := s) (highNibble v)
    rw [onWires_high hbus] at hhigh
    simp only [← OpResult.andThen_assoc _ (fun _ s => latch i s)]
    refine yields_seq hhigh fun _ t ht => ?_
    rw [← onWires_low (p := t.cfg) (by rw [ht.cfg_eq, hbus])]
    exact yields_cycle _

theorem yields_parWrite (hb : s.cfg.bus.isParallel = true) {reg : Reg} (hr : regRw reg = false)
    (v : Payload) : (parWrite i reg v s).Yields i s
      (only ([.rs (regRs reg), .rw false]
        ++ (payloadBytes v).flatMap (byteEvents s.cfg.bus i))) := by
  have hbyte : ∀ u v, OnlyAdds i s u →
      (writeU8 i v u).Yields i u (only (byteEvents s.cfg.bus i v)) := by
    intro u v hu
    have hcfg := hu.cfg_eq
    rw [← hcfg] at hb ⊢
    exact yields_writeU8 hb v
  rw [← hr]
  refine yields_seq (yields_selectReg reg) fun _ t ht => ?_
  cases v with
  | one b => simpa [payloadBytes] using hbyte t b ht
  | two w =>
    have hword := yields_seq (hbyte t (highByte w) ht) fun _ u hu =>
      hbyte u (lowByte w) (ht.trans hu)
    simpa [payloadBytes, highByte, lowByte, writeU16] using hword

theorem yields_linkWriteAll (bs : List Byte) :
    ∀ s, (linkWriteAll bs s).Yields i s (only (bs.map .link)) := by
  induction bs with
  | nil => exact fun _ => yields_done ()
  | cons b bs ih =>
    exact fun s => yields_seq (e1 := [.link b]) (yields_linkWrite b) fun _ t _ => ih t

theorem yields_serWrite {reg : Reg} (hr : regRw reg = false) (v : Payload) :
    (serWrite i reg v s).Yields i s
      (only (writeEvents .ser i (regRs reg) (payloadBytes v))) := by
  have hframe : (serWrite i reg v s).Yields i s
      (only ([.cs i true] ++ ((frameBytes reg v).map .link ++ [.cs i false]))) :=
    yields_seq (yields_pinWrite (p := .cs i) rfl true) fun _ t _ =>
    yields_seq (yields_linkWriteAll _ t) fun _ _ _ => yields_pinWrite (p := .cs i) rfl false
  rw [frame_links reg hr v] at hframe
  simpa [writeEvents] using hframe

/-- A write access, on each transport. -/
theorem yields_memWrite {reg : Reg} (hr : regRw reg = false) (v : Payload) :
    (memWrite i reg v s).Yields i s
      (only (writeEvents s.cfg.bus i (regRs reg) (payloadBytes v))) := by
  unfold memWrite
  cases hbus : s.cfg.bus with
  | par4 | par8 =>
    have hpar := yields_parWrite (i := i) (by rw [hbus]; rfl) hr v
    rwa [hbus] at hpar
  | ser => exact yields_serWrite hr v

/-- The events of one scheduled transfer (44_timing_scheduler.md R193). -/
def transferEvents (p : Params) (i : Nat) (c : Command) : List Event :=
  emitEvents p.bus i (accessOf p c)

theorem yields_emit (c : Command) :
    (emit i c s).Yields i s (only (transferEvents s.cfg i c)) := by
  refine yields_seq (e1 := [.wait 0])
    (e2 := writeEvents s.cfg.bus i (accessOf s.cfg c).1 (accessOf s.cfg c).2)
    (yields_waitUntil _) fun _ t ht => ?_
  have hcfg := ht.cfg_eq
  rw [← hcfg, ← List.append_nil (writeEvents _ _ _ _)]
  exact yields_seq (yields_memWrite (regRw_commandAccess _ c) _) fun _ _ _ => yields_book _

/-! ### Status reads -/

/-- One read cycle shows the value it hands on. -/
theorem yields_readPulse :
    (latched i dataSample s).Yields i s fun v es => es = readPulse i v :=
  (yields_latched (fun _ => yields_dataSample) ⟨0#8, _, rfl⟩).mono
    fun _ _ ⟨_, hmid, hes⟩ => by rw [hes, hmid]; rfl

/-- The events of a byte read, whose values say busy if the byte does (20_memory.md R55, R58). -/
def ByteRead (p : Params) (i : Nat) (b : Byte) (es : List Event) : Prop :=
  ∃ vs, es = vs.flatMap (readPulse i) ∧ busyRead p.bus vs = statusBusy b

theorem yields_readU8 : (readU8 i s).Yields i s (ByteRead s.cfg i) := by
  unfold readU8
  cases hbus : s.cfg.bus with
  | par4 =>
    have hlow : ∀ hi t, ((latched i dataSample t).andThen fun lo s =>
        .done (joinNibbles hi lo) s).Yields i t
        fun b es => ∃ lo, b = joinNibbles hi lo ∧ es = readPulse i lo := fun hi t =>
      yields_andThen (F := fun lo b es => b = joinNibbles hi lo ∧ es = []) yields_readPulse
        (fun _ u _ => ⟨[], ⟨rfl, rfl⟩, Shows.refl i u⟩) (fun _ => ⟨_, _, rfl, rfl⟩)
        fun lo _ _ _ h1 ⟨hb, h2⟩ => ⟨lo, hb, by rw [h1, h2, List.append_nil]⟩
    refine yields_andThen yields_readPulse (fun hi t _ => hlow hi t)
      (fun hi => ⟨_, _, 0#8, rfl, rfl⟩) ?_
    rintro hi b e1 e2 rfl ⟨lo, rfl, rfl⟩
    exact ⟨[hi, lo], by simp, by rw [hbus, statusBusy_joinNibbles]; rfl⟩
  | par8 | ser =>
    exact yields_readPulse.mono fun b _ hes => ⟨[b], by simp [hes], by rw [hbus]; rfl⟩

/-- The events of a scheduled status read, whose values say busy if the byte does. -/
def StatusRead (p : Params) (i : Nat) (b : Byte) (es : List Event) : Prop :=
  ∃ vs, es = readEvents i false vs ∧ busyRead p.bus vs = statusBusy b

theorem byteRead_some (p : Params) (i : Nat) : ∃ b es, ByteRead p i b es :=
  ⟨0#8, [], [], rfl, by cases p.bus <;> rfl⟩

theorem yields_parRead_status : (parRead i .status readU8 s).Yields i s fun b es =>
    ∃ mid, ByteRead s.cfg i b mid
      ∧ es = [.dir .into, .rs false, .rw true] ++ mid ++ [.dir .out] := by
  obtain ⟨b, mid, hsome⟩ := byteRead_some s.cfg i
  have hbyte : ∀ t, OnlyAdds i s t → (readU8 i t).Yields i t (ByteRead s.cfg i) :=
    fun t ht => ht.cfg_eq ▸ yields_readU8
  have hread := yields_then (yields_setDir (s := s) .into)
    (fun _ t ht => yields_then (yields_selectReg (s := t) .status)
      (fun _ u hu => yields_keep (hbyte u (ht.trans hu)) fun _ _ _ => yields_setDir .out)
      ⟨b, _, mid, hsome, rfl⟩)
    ⟨b, _, _, ⟨mid, hsome, rfl⟩, rfl⟩
  refine hread.mono ?_
  rintro b _ ⟨_, ⟨_, ⟨mid, hmid, rfl⟩, rfl⟩, rfl⟩
  exact ⟨mid, hmid, rfl⟩

theorem yields_schedRead_status :
    (schedRead i .status readU8 s).Yields i s (StatusRead s.cfg i) := by
  obtain ⟨b, mid, hsome⟩ := byteRead_some s.cfg i
  have hsched := yields_then (yields_waitUntil (s := s) (s.line i).deadline)
    (fun _ t ht => ht.cfg_eq ▸ yields_keep (yields_parRead_status (s := t))
      fun _ u _ => yields_book u.cfg.tRead)
    ⟨b, _, _, ⟨mid, hsome, rfl⟩, rfl⟩
  refine hsched.mono ?_
  rintro b _ ⟨_, ⟨_, ⟨_, ⟨vs, rfl, hbusy⟩, rfl⟩, rfl⟩, rfl⟩
  exact ⟨vs, by simp [readEvents], hbusy⟩

end Sys2Proof.Machine
end

section
/-!
SUPPORT. How long the busy poll reads on (45_mode_machine.md R222): its reads in time (`PollReads`).
-/

namespace Sys2Proof.Machine

variable {i : Nat} {s t : State} {b : Byte}

/-- The events added, where their shape is known. -/
theorem Shows.map_new {evs : List Event} {new : List Stamped} (h : Shows i s evs t)
    (hnew : t.trace = s.trace ++ new) : new.map (fun e => untimed e.ev) = evs := by
  have hshape := h.shape
  simp only [State.shape, State.events, hnew, List.map_append, List.map_map] at hshape
  exact List.append_cancel_left hshape

/-- From `s` to `t` one status read of the values `vs` was made, and its events `new` lie in the
past. -/
structure ReadOnce (i : Nat) (vs : List Byte) (new : List Stamped) (s t : State) : Prop where
  trace : t.trace = s.trace ++ new
  shape : new.map (fun e => untimed e.ev) = readEvents i false vs
  past : ∀ e ∈ new, e.instant ≤ t.env.clock
  cfg : t.cfg = s.cfg

/-- A status read that is done, and what its values say. -/
theorem readOnce_of_done (hread : schedRead i .status readU8 s = .done b t) :
    ∃ vs new, ReadOnce i vs new s t ∧ busyRead s.cfg.bus vs = statusBusy b := by
  have hyields := yields_schedRead_status (i := i) (s := s)
  have hlater := ends_schedRead (closed_later i) .status readU8 (ends_readU8 (closed_later i)) s
  rw [hread] at hyields hlater
  obtain ⟨_, ⟨vs, rfl, hbusy⟩, hshows⟩ := hyields
  obtain ⟨-, new, hnew, hin⟩ := hlater
  exact ⟨vs, new, ⟨hnew, hshows.map_new hnew, fun e he => (hin e he).2, hshows.adds.cfg_eq⟩, hbusy⟩

theorem ReadOnce.elapse {vs : List Byte} {new : List Stamped} (h : ReadOnce i vs new s t) :
    ReadOnce i vs new s (elapse t) :=
  { h with past := fun e he => (h.past e he).trans (clock_le_envAfter t.env) }

/-- From `s` to `t` one or more status reads were made: all before the last answered busy, within
the ceiling of a poll that started at `t0`, and the last not busy, or the ceiling has passed. -/
def PollReads (i : Nat) (t0 : Instant) (s t : State) : Prop :=
  ∃ (early : List (List Byte)) (last : List Byte) (a b : List Stamped),
    t.trace = s.trace ++ a ++ b
    ∧ a.map (fun e => untimed e.ev) = early.flatMap (readEvents i false)
    ∧ b.map (fun e => untimed e.ev) = readEvents i false last
    ∧ (∀ vs ∈ early, busyRead s.cfg.bus vs = true)
    ∧ (∀ e ∈ a, e.instant < t0 + 1000)
    ∧ (busyRead s.cfg.bus last = false ∨ t0 + 1000 ≤ t.env.clock)

variable {t0 : Instant} {vs : List Byte} {new : List Stamped}

/-- The last read of a poll. -/
theorem ReadOnce.last (h : ReadOnce i vs new s t)
    (hends : busyRead s.cfg.bus vs = false ∨ t0 + 1000 ≤ t.env.clock) : PollReads i t0 s t :=
  ⟨[], vs, [], new, by rw [h.trace, List.append_nil], rfl, h.shape, nofun, nofun, hends⟩

/-- A read that answers busy within the ceiling, before the others. -/
theorem PollReads.cons {u : State} (h : ReadOnce i vs new s t)
    (hbusy : busyRead s.cfg.bus vs = true) (hbefore : t.env.clock < t0 + 1000)
    (hrest : PollReads i t0 t u) : PollReads i t0 s u := by
  obtain ⟨early, last, a, b, htrace, ha, hb, hearly, hin, hends⟩ := hrest
  rw [h.cfg] at hearly hends
  refine ⟨vs :: early, last, new ++ a, b, by simp [htrace, h.trace], by simp [h.shape, ha], hb,
    List.forall_mem_cons.mpr ⟨hbusy, hearly⟩, fun e he => ?_, hends⟩
  rcases List.mem_append.mp he with he | he
  · exact (h.past e he).trans_lt hbefore
  · exact hin e he

/-- The ceiling has passed when the poll has taken that long (00_scope.md R7). -/
theorem ceiling_le {now : Instant} (h : tPollCeil ≤ now - t0) : t0 + 1000 ≤ now := by
  simp only [tPollCeil, Instant, Duration] at h ⊢
  omega

theorem pollReads_pollLoop (t0 : Instant) (fuel : Nat) :
    ∀ s, (pollLoop i t0 fuel s).IfDone (PollReads i t0 s) := by
  induction fuel with
  | zero => exact fun _ => trivial
  | succ n ih =>
    intro s
    unfold pollLoop
    cases hread : schedRead i .status readU8 s with
    | raised e t => trivial
    | hung f => trivial
    | done b t =>
      obtain ⟨vs, new, hnew, hbusy⟩ := readOnce_of_done hread
      simp only [OpResult.andThen, now]
      split
      next hb => exact hnew.last (.inl (hbusy.trans hb))
      next hb =>
        split
        next hceil =>
          exact hnew.elapse.last (.inr (ceiling_le (of_decide_eq_true hceil)))
        next hceil =>
          have hbefore : (elapse t).env.clock < t0 + 1000 :=
            lt_add_of_tsub_lt_left (not_le.mp (of_decide_eq_false hceil))
          exact (ih (elapse t)).imp fun _ => .cons hnew.elapse (hbusy.trans hb) hbefore

end Sys2Proof.Machine
end

section
/-!
SUPPORT. The writes among the events of a command, its polls left aside (`dropReads`): what is left
of transfers with status reads between them, and of a part of a transfer that polls go before.
-/

namespace Sys2Proof.Machine

variable {p : Params} {i : Nat} {c : Command}

/-! ### Turns of the data wires -/

/-- Whether an event turns the data wires (42_parallel_transport.md R153). -/
def Event.isDir : Event → Bool
  | .dir _ => true
  | .rs _ | .rw _ | .en _ _ | .data _ | .sample _ | .cs _ _ | .link _ | .wait _ => false

/-- No event of these turns the data wires. -/
def NoTurn (es : List Event) : Prop := ∀ ev ∈ es, ev.isDir = false

theorem NoTurn.append {es es' : List Event} (h : NoTurn es) (h' : NoTurn es') :
    NoTurn (es ++ es') := List.forall_mem_append.mpr ⟨h, h'⟩

theorem noTurn_flatMap {α : Type} {f : α → List Event} (hf : ∀ a, NoTurn (f a)) (l : List α) :
    NoTurn (l.flatMap f) := fun ev hev =>
  let ⟨a, _, ha⟩ := List.mem_flatMap.mp hev
  hf a ev ha

theorem noTurn_readPulses (i : Nat) (vs : List Byte) : NoTurn (vs.flatMap (readPulse i)) :=
  noTurn_flatMap (fun v => by simp [NoTurn, readPulse, Event.isDir]) vs

theorem noTurn_byteEvents (b : Bus) (i : Nat) (v : Byte) : NoTurn (byteEvents b i v) := by
  have hpulse : ∀ v, NoTurn (writePulse i v) := fun v => by simp [NoTurn, writePulse, Event.isDir]
  cases b with
  | par4 => exact (hpulse _).append (hpulse _)
  | par8 | ser => exact hpulse v

theorem noTurn_writeEvents (b : Bus) (i : Nat) (toRam : Bool) (bytes : List Byte) :
    NoTurn (writeEvents b i toRam bytes) := by
  have hnibbles : ∀ v, NoTurn (nibbleEvents v) := fun v => by
    simp [NoTurn, nibbleEvents, Event.isDir]
  cases b with
  | par4 | par8 =>
    refine NoTurn.append ?_ (noTurn_flatMap (noTurn_byteEvents _ i) bytes)
    simp [NoTurn, Event.isDir]
  | ser =>
    refine (NoTurn.append ?_ (noTurn_flatMap hnibbles bytes)).append ?_ <;>
      simp [NoTurn, Event.isDir]

theorem noTurn_transferEvents (p : Params) (i : Nat) (c : Command) :
    NoTurn (transferEvents p i c) :=
  List.forall_mem_cons.mpr ⟨rfl, noTurn_writeEvents _ i _ _⟩

/-- A transfer is its wait and an access. -/
theorem transferEvents_eq_wait_cons (p : Params) (i : Nat) (c : Command) :
    ∃ ev es, transferEvents p i c = .wait 0 :: ev :: es := by
  unfold transferEvents emitEvents
  cases p.bus <;> exact ⟨_, _, rfl⟩

/-! ### What is dropped -/

/-- An event is kept if the wires are not turned right after it. -/
theorem dropReads_cons {ev : Event} {es : List Event} (h : es.head? ≠ some (.dir .into)) :
    dropReads false (ev :: es) = ev :: dropReads false es := by
  cases ev with
  | wait t =>
    match es with
    | .dir .into :: _ => exact absurd rfl h
    | [] | .dir .out :: _ | .rs _ :: _ | .rw _ :: _ | .en _ _ :: _ | .data _ :: _ | .sample _ :: _
    | .cs _ _ :: _ | .link _ :: _ | .wait _ :: _ => rfl
  | dir d => cases d <;> rfl
  | _ => rfl

theorem dropReads_append {es rest : List Event} (h : NoTurn es)
    (hrest : rest.head? ≠ some (.dir .into)) :
    dropReads false (es ++ rest) = es ++ dropReads false rest := by
  induction es with
  | nil => rfl
  | cons ev es ih =>
    obtain ⟨-, hes⟩ := List.forall_mem_cons.mp h
    rw [List.cons_append, dropReads_cons, ih hes]
    · rfl
    · cases es with
      | nil => exact hrest
      | cons ev' es =>
        have hev' : ev'.isDir = false := hes ev' List.mem_cons_self
        rintro ⟨⟩
        cases hev'

/-- A turn that no wait stands before is kept. -/
theorem head?_of_noTurn_dropReads {es : List Event} (h : NoTurn (dropReads false es)) :
    es.head? ≠ some (.dir .into) := by
  cases es with
  | nil => nofun
  | cons ev es =>
    rintro ⟨⟩
    exact absurd (h (.dir .into) List.mem_cons_self) nofun

/-- Within a read everything is dropped up to the next turn. -/
theorem dropReads_true_append {es : List Event} (h : NoTurn es) (rest : List Event) :
    dropReads true (es ++ rest) = dropReads true rest := by
  induction es with
  | nil => rfl
  | cons ev es ih =>
    obtain ⟨hev, hes⟩ := List.forall_mem_cons.mp h
    rw [← ih hes]
    cases ev with
    | dir d => cases hev
    | _ => rfl

/-! ### Status reads between transfers -/

theorem readEvents_eq (i : Nat) (vs : List Byte) : readEvents i false vs
    = .wait 0 :: .dir .into ::
      (.rs false :: .rw true :: vs.flatMap (readPulse i) ++ [.dir .out]) := by
  simp [readEvents]

theorem noTurn_readBody (i : Nat) (vs : List Byte) :
    NoTurn (.rs false :: .rw true :: vs.flatMap (readPulse i)) :=
  NoTurn.append (es := [.rs false, .rw true]) (by simp [NoTurn, Event.isDir])
    (noTurn_readPulses i vs)

/-- A read is dropped. -/
theorem dropReads_readEvents (vs : List Byte) (rest : List Event) :
    dropReads false (readEvents i false vs ++ rest) = dropReads false rest := by
  rw [readEvents_eq, List.cons_append, List.cons_append, List.append_assoc]
  exact dropReads_true_append (noTurn_readBody i vs) _

/-- Of transfers with reads between them the transfers are left, whatever follows that does not
start with a turn of the wires. -/
theorem dropReads_carries {cs : List Command} {es rest : List Event} (h : Carries p i cs es)
    (hrest : rest.head? ≠ some (.dir .into)) :
    dropReads false (es ++ rest) = cs.flatMap (transferEvents p i) ++ dropReads false rest
      ∧ (es ++ rest).head? ≠ some (.dir .into) := by
  induction h with
  | nil => exact ⟨rfl, hrest⟩
  | read vs _ ih =>
    obtain ⟨hdrop, -⟩ := ih
    refine ⟨?_, by simp [readEvents_eq]⟩
    rw [List.append_assoc, dropReads_readEvents, hdrop]
  | transfer c _ ih =>
    obtain ⟨hdrop, hhead⟩ := ih
    refine ⟨?_, by simp [emitEvents]⟩
    rw [List.append_assoc, List.flatMap_cons, List.append_assoc, ← hdrop]
    exact dropReads_append (noTurn_transferEvents p i c) hhead

/-! ### Parts -/

theorem ProperPart.noTurn {part evs : List Event} (h : ProperPart part evs) (hevs : NoTurn evs) :
    NoTurn part := fun ev hev => hevs ev (h.1.subset hev)

/-- Of a part of a read at most the wait before it is left. -/
theorem dropReads_readPart {vs : List Byte} {part : List Event}
    (h : ProperPart part (readEvents i false vs)) :
    dropReads false part = [] ∨ dropReads false part = [.wait 0] := by
  obtain ⟨hpart, hne⟩ := h
  rw [readEvents_eq] at hpart hne
  match part with
  | [] => exact .inl rfl
  | [ev] =>
    obtain ⟨rfl, -⟩ := List.cons_prefix_cons.mp hpart
    exact .inr rfl
  | ev :: ev' :: body =>
    obtain ⟨rfl, htail⟩ := List.cons_prefix_cons.mp hpart
    obtain ⟨rfl, hbody⟩ := List.cons_prefix_cons.mp htail
    rcases List.prefix_concat_iff.mp hbody with rfl | hbody
    · exact absurd rfl hne
    · have hturn : NoTurn body := fun ev hev => noTurn_readBody i vs ev (hbody.subset hev)
      have hdrop := dropReads_true_append hturn []
      rw [List.append_nil] at hdrop
      exact .inl hdrop

/-- Of a part of a transfer that polls go before, a part of the transfer is left. -/
theorem properPart_dropReads (reads : List (List Byte)) : ∀ {part : List Event},
    ProperPart part (reads.flatMap (readEvents i false) ++ transferEvents p i c) →
    ProperPart (dropReads false part) (transferEvents p i c) := by
  induction reads with
  | nil =>
    intro part hpart
    have hdrop := dropReads_append (rest := []) (hpart.noTurn (noTurn_transferEvents p i c)) nofun
    rw [List.append_nil, show dropReads false [] = [] from rfl, List.append_nil] at hdrop
    rwa [hdrop]
  | cons vs reads ih =>
    rintro part ⟨hpart, hne⟩
    rw [List.flatMap_cons, List.append_assoc] at hpart hne
    obtain ⟨ev, es, htransfer⟩ := transferEvents_eq_wait_cons p i c
    by_cases hread : readEvents i false vs <+: part
    · obtain ⟨rest, rfl⟩ := hread
      rw [dropReads_readEvents]
      exact ih ⟨(List.prefix_append_right_inj _).mp hpart, fun heq => hne (by rw [heq])⟩
    · have hshort :=
        (List.prefix_or_prefix_of_prefix hpart (List.prefix_append _ _)).resolve_right hread
      rw [htransfer]
      rcases dropReads_readPart ⟨hshort, fun heq => hread (heq ▸ List.prefix_rfl)⟩
        with hdrop | hdrop
      · rw [hdrop]; exact properPart_nil _ _
      · rw [hdrop]; exact ⟨⟨_, rfl⟩, nofun⟩

end Sys2Proof.Machine
end

section
/-!
SUPPORT. The mode machine in any environment, whether a command is done or fails (`Progresses`):
which of the commands that are to go out went out, and the mode in force after them
(45_mode_machine.md R219). And that the selects of the spec's table change one mode bit each (R220).
-/

namespace Sys2Proof.Machine

variable {i : Nat} {s t u : State} {c : Command} {cs cs' : List Command}

/-! ### A transfer and the polls before it -/

/-- The events of the transfer of `c` with status reads before it. -/
def PolledTransfer {α : Type} (p : Params) (i : Nat) (c : Command) : α → List Event → Prop :=
  fun _ es => ∃ reads : List (List Byte),
    es = reads.flatMap (readEvents i false) ++ transferEvents p i c

/-- The events of a poll. -/
def Polls (i : Nat) : Unit → List Event → Prop :=
  fun _ es => ∃ reads : List (List Byte), es = reads.flatMap (readEvents i false)

theorem yields_pollLoop (t0 : Instant) (fuel : Nat) :
    ∀ s, (pollLoop i t0 fuel s).Yields i s (Polls i) := by
  induction fuel with
  | zero => exact fun _ => trivial
  | succ n ih =>
    intro s
    refine yields_andThen (F := fun _ => Polls i) yields_schedRead_status (fun b t _ => ?_)
      (fun _ => ⟨(), [], [], rfl⟩) ?_
    · split
      · exact ⟨[], ⟨[], rfl⟩, Shows.refl i t⟩
      · refine yields_now_then (fun now u => ?_) ⟨(), [], [], rfl⟩
        split
        · exact ⟨[], ⟨[], rfl⟩, Shows.refl i u⟩
        · exact ih u
    · rintro b _ e1 e2 ⟨vs, rfl, -⟩ ⟨reads, rfl⟩
      exact ⟨vs :: reads, rfl⟩

theorem yields_pollBusy : (pollBusy i s).Yields i s (Polls i) := by
  unfold pollBusy
  split
  · exact ⟨[], ⟨[], rfl⟩, Shows.refl i s⟩
  · exact yields_now_then (fun t0 t => yields_pollLoop t0 _ t) ⟨(), [], [], rfl⟩

theorem yields_pollBusy_emit (c : Command) :
    ((pollBusy i s).andThen fun _ s => emit i c s).Yields i s (PolledTransfer s.cfg i c) := by
  refine yields_andThen (F := fun _ => only (transferEvents s.cfg i c)) yields_pollBusy
    (fun _ t ht => ?_) (fun _ => ⟨(), _, rfl⟩) ?_
  · rw [← ht.cfg_eq]
    exact yields_emit c
  · rintro _ _ e1 e2 ⟨reads, rfl⟩ rfl
    exact ⟨reads, rfl⟩

/-! ### Commands cut short -/

/-- The mode in force after commands sent from mode `m` (10_state.md R30). -/
def modeAlong (m : Mode) (cs : List Command) : Mode :=
  cs.foldl (fun m c => (selectedMode c).getD m) m

/-- From `s` to `t` of the commands `cs` some went out, but not all: of the next a part stands at
most, polls left aside, and the mode is that in force after those that went out. -/
def CutShort (i : Nat) (cs : List Command) (s t : State) : Prop :=
  OnlyAdds i s t ∧ ∃ sent next unsent evs part, cs = sent ++ next :: unsent
    ∧ t.shape = s.shape ++ evs
    ∧ dropReads false evs = sent.flatMap (transferEvents s.cfg i) ++ part
    ∧ ProperPart part (transferEvents s.cfg i next)
    ∧ (t.line i).mode = modeAlong (s.line i).mode sent

/-- Done, the operation has sent the commands `cs`; failed, it was cut short. -/
def Progresses (i : Nat) (cs : List Command) (s : State) (r : OpResult Unit) : Prop :=
  r.EndsOr (Issues i cs (modeAlong (s.line i).mode cs) s) (CutShort i cs s)

theorem CutShort.more (h : CutShort i cs s t) (cs' : List Command) :
    CutShort i (cs ++ cs') s t := by
  obtain ⟨hadds, sent, next, unsent, evs, part, rfl, h⟩ := h
  exact ⟨hadds, sent, next, unsent ++ cs', evs, part, by simp, h⟩

theorem CutShort.after (h : Issues i cs (modeAlong (s.line i).mode cs) s t)
    (k : CutShort i cs' t u) : CutShort i (cs ++ cs') s u := by
  obtain ⟨hadds, hmode, evs, hshape, hcarries⟩ := h
  obtain ⟨kadds, sent, next, unsent, evs', part, rfl, kshape, kdrop, kpart, kmode⟩ := k
  rw [hadds.cfg_eq] at kdrop kpart
  refine ⟨hadds.trans kadds, cs ++ sent, next, unsent, evs ++ evs', part, by simp,
    by rw [kshape, hshape, List.append_assoc], ?_, kpart, ?_⟩
  · have hkept : NoTurn (dropReads false evs') := by
      rw [kdrop]
      exact (noTurn_flatMap (noTurn_transferEvents s.cfg i) sent).append
        (kpart.noTurn (noTurn_transferEvents s.cfg i next))
    obtain ⟨hdrop, -⟩ := dropReads_carries hcarries (head?_of_noTurn_dropReads hkept)
    rw [hdrop, kdrop, List.flatMap_append, List.append_assoc]
  · rw [kmode, hmode, modeAlong, modeAlong, modeAlong, List.foldl_append]

/-- Sequencing: what follows starts in the mode in force after the commands before it. -/
theorem progresses_andThen {r : OpResult Unit} {f : Unit → State → OpResult Unit}
    (hr : Progresses i cs s r) (hf : ∀ a t, OnlyAdds i s t →
      (t.line i).mode = modeAlong (s.line i).mode cs → Progresses i cs' t (f a t)) :
    Progresses i (cs ++ cs') s (r.andThen f) := by
  have hmore : r.EndsOr (Issues i cs (modeAlong (s.line i).mode cs) s) (CutShort i (cs ++ cs') s) :=
    hr.mono (fun _ => id) fun _ h => h.more cs'
  refine endsOr_andThen hmore fun a t ht => ?_
  refine (hf a t ht.adds ht.mode).mono (fun u hu => ?_) fun u => .after ht
  have hissues := ht.trans hu
  rw [ht.mode] at hissues
  simpa [modeAlong] using hissues

theorem progresses_nil (i : Nat) (s : State) : Progresses i [] s (.done () s) := issues_nil i s

/-- A transfer that fails, or a poll before it, is cut short before anything has gone out. -/
theorem cutShort_of_yields {r : OpResult Unit} (hr : r.Yields i s (PolledTransfer s.cfg i c)) :
    r.EndsOr (fun _ => True) (CutShort i [c] s) := by
  cases r with
  | done a t => trivial
  | raised e t =>
    obtain ⟨-, _, ⟨reads, rfl⟩, part, hpart, hshows⟩ := hr
    exact ⟨hshows.adds, [], c, [], part, dropReads false part, rfl, hshows.shape, rfl,
      properPart_dropReads reads hpart, hshows.mode⟩
  | hung f => trivial

/-- A transfer as its polled form with no poll. -/
theorem yields_emit_polled (c : Command) :
    (emit i c s).Yields i s (PolledTransfer s.cfg i c) :=
  (yields_emit c).mono fun _ _ hes => ⟨[], hes⟩

/-- A command that is no select. -/
theorem progresses_emit (hc : selectedMode c = none) : Progresses i [c] s (emit i c s) := by
  have hboth := (issues_emit (i := i) (s := s) c).and (cutShort_of_yields (yields_emit_polled c))
  refine hboth.mono (fun t ht => ?_) fun _ ht => ht.2
  simpa [modeAlong, hc] using ht.1

/-- A select with its assignment, which is not made if the transfer, or a poll before it, fails. -/
theorem progresses_select {r : OpResult Unit} {m : Mode} (hc : selectedMode c = some m)
    (hr : r.Yields i s (PolledTransfer s.cfg i c))
    (hdone : (r.andThen fun _ s => .done () (setMode i m s)).IfDone (Issues i [c] m s)) :
    Progresses i [c] s (r.andThen fun _ s => .done () (setMode i m s)) := by
  have hfail := endsOr_andThen (P' := fun _ => True)
    (f := fun _ s => .done () (setMode i m s)) (cutShort_of_yields hr) fun _ _ _ => trivial
  refine (hdone.and hfail).mono (fun t ht => ?_) fun _ ht => ht.2
  simpa [modeAlong, hc] using ht.1

theorem progresses_emitSelect (hi : i < s.numLines) {m : Mode} (hc : selectedMode c = some m) :
    Progresses i [c] s (emitSelect i c m s) :=
  progresses_select hc (yields_emit_polled c) (issues_emitSelect hi c m)

theorem progresses_toBasic (hi : i < s.numLines) :
    Progresses i [.selectBasic] s (toBasic i s) := by
  have hdone := issues_toBasic hi
  simp only [toBasic, emitSelect, ← OpResult.andThen_assoc] at hdone ⊢
  exact progresses_select rfl (yields_pollBusy_emit _) hdone

/-! ### The paths of the command classes -/

/-- A select from one mode, and nothing from the others. -/
theorem progresses_whenMode {m m' : Mode} {op : State → OpResult Unit}
    (hm : (s.line i).mode = m) (hop : Progresses i cs s (op s)) :
    Progresses i (if m = m' then cs else []) s (whenMode i m' op s) := by
  unfold whenMode
  rw [hm]
  split_ifs
  · exact hop
  · exact progresses_nil i s

/-- A command, in any environment: done, it went out after the selects of the spec's table; failed,
it was cut short (45_mode_machine.md R213, R219). -/
theorem progresses_execCommand (hi : i < s.numLines) (c : Command) :
    Progresses i (insertedSelects s.cfg.writePolicy c (s.line i).mode ++ [c]) s
      (execCommand i c s) := by
  rw [insertedSelects_eq_prelude]
  have hclass := covers_classOf s.cfg.writePolicy c
  have viaExtended : ∀ m', Progresses i (if (s.line i).mode = m' then [.selectExtended] else []) s
      (whenMode i m' (toExtended i) s) :=
    fun m' => progresses_whenMode rfl (progresses_emitSelect hi rfl)
  unfold execCommand execClass
  generalize classOf s.cfg.writePolicy c = k at hclass ⊢
  cases k with
  | basicOp =>
    have path := progresses_andThen (viaExtended .graphic) fun _ t ht hm =>
      progresses_andThen (progresses_whenMode (m' := .extended) hm
        (progresses_toBasic (ht.lt_numLines hi))) fun _ u _ _ => progresses_emit hclass.2
    cases hm : (s.line i).mode <;>
      simpa [hm, CmdClass.prelude, modeAlong, selectedMode] using path
  | extOp =>
    have path := progresses_andThen (viaExtended .basic) fun _ u _ _ => progresses_emit hclass.2
    cases hm : (s.line i).mode <;> simpa [hm, CmdClass.prelude] using path
  | selB =>
    obtain rfl : c = .selectBasic := hclass
    have path := progresses_andThen (viaExtended .graphic) fun _ t ht _ =>
      progresses_toBasic (ht.lt_numLines hi)
    cases hm : (s.line i).mode <;> simpa [hm, CmdClass.prelude] using path
  | selE =>
    obtain rfl : c = .selectExtended := hclass
    exact progresses_emitSelect hi rfl
  | selG =>
    obtain rfl : c = .selectGraphic := hclass
    have path := progresses_andThen (viaExtended .basic) fun _ t ht _ =>
      progresses_emitSelect (c := .selectGraphic) (m := .graphic) (ht.lt_numLines hi) rfl
    cases hm : (s.line i).mode <;> simpa [hm, CmdClass.prelude, toGraphic] using path
  | neutral =>
    obtain ⟨d, rfl⟩ : ∃ d, c = .write d := hclass
    exact progresses_emit rfl

/-! ### The answered command -/

/-- A command on an existing line that answers a next state was done, or failed. -/
theorem exec_next_cases (hi : i < s.numLines) (hx : exec (instrOf i c) s = .next t) :
    (∃ u, execCommand i c s = .done () u ∧ t = answer .okUnit u)
      ∨ ∃ e u, execCommand i c s = .raised e u
        ∧ t = answer (.err e) (setChipUnknown i true u) := by
  rw [exec_instrOf, execute, onLine, if_pos hi] at hx
  cases hr : execCommand i c s with
  | done a u => rw [hr] at hx; cases hx; exact .inl ⟨u, rfl, rfl⟩
  | raised e u => rw [hr] at hx; cases hx; exact .inr ⟨e, u, rfl, rfl⟩
  | hung f => rw [hr] at hx; cases hx

/-- The events added, given their shape. -/
theorem OnlyAdds.exists_new {evs : List Event} (h : OnlyAdds i s t)
    (hshape : t.shape = s.shape ++ evs) :
    ∃ new, t.trace = s.trace ++ new ∧ writesIn new = dropReads false evs := by
  obtain ⟨new, hnew⟩ := h.trace
  refine ⟨new, hnew.symm, ?_⟩
  rw [State.shape, State.events, ← hnew, List.map_append, List.map_append] at hshape
  rw [← List.append_cancel_left hshape, List.map_map]
  rfl

/-- The flag of a line is apart from its mode. -/
theorem mode_setChipUnknown (b : Bool) (s : State) :
    ((setChipUnknown i b s).line i).mode = (s.line i).mode :=
  mode_modLine i (f := fun l => { l with chipUnknown := b }) (fun _ => rfl) i s

/-! ### One mode bit at a time -/

/-- A select that changes one bit at most, before commands that go on from its mode. -/
theorem OneBitAtATime.select {m m' : Mode} (hc : selectedMode c = some m')
    (hbits : modeBitsChanged m m' ≤ 1) (hcs : OneBitAtATime m' cs) : OneBitAtATime m (c :: cs) := by
  rw [OneBitAtATime, hc]
  exact ⟨hbits, hcs⟩

/-- A command that is no select changes no bit. -/
theorem oneBitAtATime_of_noSelect (m : Mode) (hc : selectedMode c = none) :
    OneBitAtATime m [c] := by
  rw [OneBitAtATime, hc]
  trivial

/-- The selects of the spec's table change one bit each (45_mode_machine.md R213, R220). -/
theorem oneBitAtATime_insertedSelects (policy : WriteModePolicy) (c : Command) (m : Mode) :
    OneBitAtATime m (insertedSelects policy c m ++ [c]) := by
  rw [insertedSelects_eq_prelude]
  have hclass := covers_classOf policy c
  have ext : ∀ {m cs}, OneBitAtATime .extended cs → OneBitAtATime m (.selectExtended :: cs) :=
    fun {m _} => .select rfl (by cases m <;> decide)
  have basic : ∀ {cs}, OneBitAtATime .basic cs → OneBitAtATime .extended (.selectBasic :: cs) :=
    .select rfl (by decide)
  generalize classOf policy c = k at hclass ⊢
  cases k with
  | basicOp =>
    have hc := oneBitAtATime_of_noSelect (c := c) .basic hclass.2
    cases m with
    | basic => exact hc
    | extended => exact basic hc
    | graphic => exact ext (basic hc)
  | extOp =>
    have hc := fun m => oneBitAtATime_of_noSelect (c := c) m hclass.2
    cases m with
    | basic => exact ext (hc .extended)
    | extended => exact hc .extended
    | graphic => exact hc .graphic
  | selB =>
    obtain rfl : c = .selectBasic := hclass
    cases m with
    | basic => exact .select rfl (by decide) trivial
    | extended => exact basic trivial
    | graphic => exact ext (basic trivial)
  | selE =>
    obtain rfl : c = .selectExtended := hclass
    cases m <;> exact ext trivial
  | selG =>
    obtain rfl : c = .selectGraphic := hclass
    have graphic : ∀ {m}, m ≠ .basic → OneBitAtATime m [.selectGraphic] := fun {m} hm =>
      .select rfl (by cases m with
        | basic => exact absurd rfl hm
        | extended | graphic => decide) trivial
    cases m with
    | basic => exact ext (graphic nofun)
    | extended | graphic => exact graphic nofun
  | neutral =>
    obtain ⟨d, rfl⟩ : ∃ d, c = .write d := hclass
    exact trivial

/-- The first `k` of a list of pieces with a part of the next are a first part of them all. -/
theorem prefix_flatMap_of_part {α β : Type} {f : α → List β} {l : List α} {k : Nat} {a : α}
    {part : List β} (ha : l[k]? = some a) (hpart : part <+: f a) :
    (l.take k).flatMap f ++ part <+: l.flatMap f := by
  obtain ⟨hk, rfl⟩ := List.getElem?_eq_some_iff.mp ha
  conv_rhs => rw [← List.take_append_drop k l, List.drop_eq_getElem_cons hk]
  rw [List.flatMap_append, List.flatMap_cons, List.prefix_append_right_inj]
  exact hpart.trans (List.prefix_append _ _)

end Sys2Proof.Machine
end

section
/-! Obligations of 45_mode_machine.md. -/

namespace Sys2Proof.Machine

/-- Settles O18: the command goes out from every mode, from Graphic after `SelectExtended`
(`sends_selB`). -/
theorem selectBasicCompletes : Obligations.SelectBasicCompletes := by
  intro i s h hp
  have hsent := completes_sent (c := .selectBasic i) h rfl (sends_selB h hp)
  cases hm : (s.line i).mode <;> simpa [hm] using hsent

/-- Settles O19: nothing is inserted (`sends_toExtended`). -/
theorem selectExtendedCompletes : Obligations.SelectExtendedCompletes := fun _ _ h =>
  completes_sent (cmd := .selectExtended) h rfl (sends_toExtended h)

/-- Settles O20: the command goes out from every mode, from Basic after `SelectExtended`
(`sends_selG`). -/
theorem selectGraphicCompletes : Obligations.SelectGraphicCompletes := by
  intro i s h
  have hsent := completes_sent (c := .selectGraphic i) h rfl (sends_selG h)
  cases hm : (s.line i).mode <;> simpa [hm] using hsent

/-- Settles O32: the mode is that after the selects and the command that were sent (`issues_of_ok`).
-/
theorem modeAfterOk : Obligations.ModeAfterOk := by
  intro i c s t hi hx hok
  obtain ⟨u, rfl, -, hmode, -⟩ := issues_of_ok hi hx hok
  exact hmode

/-- Settles O21: no command fails, and none hangs while the clock runs (`execCommand_done`). -/
theorem everyCommandReturnsOk : Obligations.EveryCommandReturnsOk := by
  intro i c s h
  obtain ⟨t, hdone⟩ := execCommand_done h c
  have hadds := ends_execCommand (closed_onlyAdds i) c s
  rw [hdone] at hadds
  have hresults : t.results = s.results := hadds.results
  exact ⟨_, exec_of_done h.1 hdone, congrArg (· ++ [HostResult.okUnit]) hresults⟩

/-- Settles O37: the loop stops at its first read (`pollBusy_ready`), so a command that needs
`SelectBasic` goes out after one poll (`completes_polled`), and in Basic there is nothing to poll
for. -/
theorem pollOnceWhenNotBusy : Obligations.PollOnceWhenNotBusy := by
  intro i c s vs rest h hb hpolls hsamples hlen hfits hready evs first polled
  have hpoll : PollReady i vs s := ⟨h, hb, hpolls, ⟨rest, hsamples.symm⟩, hlen, hfits, hready⟩
  have hrest : s.env.samples.drop vs.length = rest := by simp [hsamples]
  have hfirst : first = if (s.line i).mode = .graphic then evs (false, [0x24#8]) else [] := by
    cases hm : (s.line i).mode <;> simp [first, hm]
  refine ⟨fun hneeds hm => ?polls, fun hneeds hm => ?alone, ?selectBasic⟩
  case polls =>
    have hs := sendsPolled_basicOp hpoll hm c
    rw [← classOf_of_needsBasic hneeds] at hs
    have hc := completes_polled hpoll hs
    rwa [hrest, ← hfirst, ← List.append_assoc, ← List.append_assoc] at hc
  case alone =>
    have hs := sends_emit h c
    rw [← execClass_basicOp_of_basic hm, ← classOf_of_needsBasic hneeds, hm] at hs
    exact completes_sent_samples h hs
  case selectBasic =>
    have hc := completes_polled (c := .selectBasic) hpoll (sendsPolled_selB hpoll)
    rwa [hrest, ← hfirst, ← List.append_assoc] at hc

/-- Settles O38, by the reads of the loop in time (`pollReads_pollLoop`). -/
theorem pollEndsWhenReadyOrAtCeiling : Obligations.PollEndsWhenReadyOrAtCeiling := by
  intro i s t _ hb hpolls hdone
  have hreads := pollReads_pollLoop (i := i) (elapse s).env.clock (pollFuel (elapse s)) (elapse s)
  simp only [pollBusy, hpolls, hb, Bool.and_self, now_andThen] at hdone
  rw [hdone] at hreads
  exact hreads

/-- Settles O34: done, the command has sent all of the list, and failed, it was cut short within it
(`progresses_execCommand`); polls leave nothing among the writes (`dropReads_carries`). -/
theorem modeNamesLastSelectSent : Obligations.ModeNamesLastSelectSent := by
  intro i c s t hi hx cs evs
  have hprogress := progresses_execCommand hi c
  rcases exec_next_cases hi hx with ⟨u, hr, rfl⟩ | ⟨e, u, hr, rfl⟩
  · rw [hr] at hprogress
    obtain ⟨hadds, hmode, es, hshape, hcarries⟩ := hprogress
    obtain ⟨new, hnew, hwrites⟩ := hadds.exists_new hshape
    obtain ⟨hdrop, -⟩ := dropReads_carries (rest := []) hcarries nofun
    rw [List.append_nil] at hdrop
    refine ⟨new, cs.length, [], hnew, ?_, ?_, .inl ⟨?_, rfl, rfl⟩⟩
    · rw [hwrites, hdrop, List.take_length]; rfl
    · rw [List.take_length]; exact hmode
    · exact congrArg (· ++ [HostResult.okUnit]) hadds.results
  · rw [hr] at hprogress
    obtain ⟨hadds, sent, next, unsent, es, part, hcs, hshape, hdrop, hpart, hmode⟩ := hprogress
    obtain ⟨new, hnew, hwrites⟩ := hadds.exists_new hshape
    have hsent : cs.take sent.length = sent := by
      show List.take _ (insertedSelects _ _ _ ++ [c]) = _
      rw [hcs, List.take_left]
    refine ⟨new, sent.length, part, hnew, ?_, ?_, .inr ⟨e, next, ?_, ?_, hpart⟩⟩
    · rw [hwrites, hdrop, hsent]; rfl
    · rw [hsent]
      exact (mode_setChipUnknown true u).trans hmode
    · exact congrArg (· ++ [HostResult.err e]) hadds.results
    · show (insertedSelects _ _ _ ++ [c])[_]? = _
      rw [hcs]; simp

/-- Settles O35: what went out is a first part of the list of selects and command
(`modeNamesLastSelectSent`), whose selects change one bit each (`oneBitAtATime_insertedSelects`) and
which the chip understands (`chipUnderstandsWhatWasIssued`). -/
theorem oneModeBitPerSelect : Obligations.OneModeBitPerSelect := by
  intro i c s t hi hx evs
  obtain ⟨new, k, part, hnew, hwrites, -, hends⟩ := modeNamesLastSelectSent i c s t hi hx
  refine ⟨new, _, hnew, oneBitAtATime_insertedSelects s.cfg.writePolicy c _, ?_, fun hok => ?_⟩
  · rw [hwrites]
    rcases hends with ⟨-, rfl, rfl⟩ | ⟨e, next, -, hnext, hpart, -⟩
    · rw [List.take_length, List.append_nil]
    · exact prefix_flatMap_of_part hnext hpart
  · rcases hends with ⟨-, rfl, rfl⟩ | ⟨e, next, herr, -⟩
    · refine ⟨by rw [hwrites, List.take_length, List.append_nil], fun hlistens hdefault edge => ?_⟩
      obtain ⟨new', hnew', hunderstood⟩ :=
        chipUnderstandsWhatWasIssued i c s t hi hlistens hdefault hx hok
      obtain rfl : new = new' := List.append_cancel_left (hnew.symm.trans hnew')
      exact hunderstood edge
    · rw [hok] at herr
      exact absurd (List.append_cancel_left herr) nofun

end Sys2Proof.Machine
end

section
/-!
SUPPORT. An operation runs the same whatever the registers of another line are, and leaves them as it
found them (`Ignores`): a change of them passes through each primitive, helper, access and command
(46_shared_bus.md R245).
-/

namespace Sys2Proof.Machine

/-- The same end, with the registers of line `j` changed in its last state. -/
def OpResult.withLine {α : Type} (j : Nat) (g : LineRegs → LineRegs) : OpResult α → OpResult α
  | .done a t => .done a (modLine j g t)
  | .raised e t => .raised e (modLine j g t)
  | .hung f => .hung f

/-- A change of line `j` before the operation is the same change after it. -/
def Ignores {α : Type} (j : Nat) (op : State → OpResult α) : Prop :=
  ∀ g s, op (modLine j g s) = (op s).withLine j g

/-- Sequencing ignores a line that both parts ignore. -/
theorem ignores_andThen {α β : Type} {j : Nat} {op : State → OpResult α}
    {f : α → State → OpResult β} (hop : Ignores j op) (hf : ∀ a, Ignores j (f a)) :
    Ignores j fun s => (op s).andThen f := by
  intro g s
  simp only [hop g s]
  cases op s with
  | done a t => exact hf a g t
  | raised e t => rfl
  | hung e => rfl

theorem ignores_done {α : Type} {j : Nat} (a : α) : Ignores j (OpResult.done a) := fun _ _ => rfl

/-! ### Primitives -/

section Primitives

variable {α : Type} {i j : Nat}

theorem ignores_attempt (mk : Nat → BlockError) {onFail : State → State}
    {effect : State → OpResult α}
    (hFail : ∀ g s, onFail (modLine j g s) = modLine j g (onFail s)) (hEffect : Ignores j effect) :
    Ignores j (attempt mk onFail effect) := by
  intro g s
  have hverdict : nextVerdict (elapse (modLine j g s)) = nextVerdict (elapse s) := rfl
  unfold attempt
  rw [hverdict]
  cases nextVerdict (elapse s) with
  | some e => exact congrArg (OpResult.raised (mk e)) (hFail g (dropVerdict (elapse s)))
  | none => exact hEffect g (dropVerdict (elapse s))

/-- A pin that is not of line `j` is set whatever that line is like. -/
theorem setPin_modLine {p : Pin} (hp : p.ofLine i) (hij : i ≠ j) (v : Bool)
    (g : LineRegs → LineRegs) (s : State) :
    setPin p v (modLine j g s) = modLine j g (setPin p v s) := by
  cases p with
  | rs | rw => rfl
  | e k | cs k =>
    obtain rfl : k = i := hp
    exact modLine_comm s k j _ g hij.symm

theorem ignores_pinWrite {p : Pin} (hp : p.ofLine i) (hij : i ≠ j) (v : Bool) :
    Ignores j (pinWrite p v) :=
  ignores_attempt _ (fun _ _ => rfl) fun g s =>
    congrArg (OpResult.done () ∘ record (pinEvent p v)) (setPin_modLine hp hij v g s)

theorem driveWires_modLine (v : Byte) (g : LineRegs → LineRegs) (s : State) :
    driveWires v (modLine j g s) = modLine j g (driveWires v s) := by
  cases hdir : s.dir <;> simp [driveWires, modLine, hdir]

theorem ignores_dataDrive (v : Byte) : Ignores j (dataDrive v) :=
  ignores_attempt _ (fun _ _ => rfl) fun g s =>
    congrArg (OpResult.done () ∘ record (.data (onWires s.cfg v))) (driveWires_modLine v g s)

theorem ignores_dataSample : Ignores j dataSample :=
  ignores_attempt _ (fun _ _ => rfl) fun _ _ => rfl

theorem ignores_setDir (d : Dir) : Ignores j (setDir d) :=
  ignores_attempt _ (fun _ _ => rfl) fun _ _ => rfl

theorem ignores_linkWrite (b : Byte) : Ignores j (linkWrite b) :=
  ignores_attempt _ (fun _ _ => rfl) fun _ _ => rfl

theorem ignores_now : Ignores j now := fun _ _ => rfl

theorem ignores_waitUntil (t : Instant) : Ignores j (waitUntil t) := by
  intro g s
  have hreach : neverReaches t (elapse (modLine j g s)) = neverReaches t (elapse s) := rfl
  unfold waitUntil
  rw [hreach]
  cases neverReaches t (elapse s) <;> rfl

theorem ignores_delay (d : Duration) : Ignores j (delay d) :=
  ignores_andThen ignores_now fun t => ignores_waitUntil (t + d)

/-- An assignment to a register of line `i` before what follows. -/
theorem ignores_modLine (hij : i ≠ j) (f : LineRegs → LineRegs) {op : State → OpResult α}
    (hop : Ignores j op) : Ignores j fun s => op (modLine i f s) := fun g s =>
  (congrArg op (modLine_comm s i j f g hij.symm)).trans (hop g (modLine i f s))

end Primitives

/-! ### Accesses -/

section Accesses

variable {α : Type} {i j : Nat} (hij : i ≠ j)
include hij

theorem ignores_selectReg (reg : Reg) : Ignores j (selectReg reg) :=
  ignores_andThen (ignores_pinWrite (p := .rs) trivial hij _) fun _ =>
    ignores_pinWrite (p := .rw) trivial hij _

theorem ignores_latched {f : State → OpResult α} (hf : Ignores j f) : Ignores j (latched i f) := by
  have enable : ∀ v, Ignores j (pinWrite (.e i) v) := ignores_pinWrite rfl hij
  have pulseWidth : Ignores j fun s => delay s.cfg.tPw s := fun g s => ignores_delay s.cfg.tPw g s
  refine ignores_andThen (enable true) fun _ => ignores_andThen pulseWidth fun _ => ?_
  exact ignores_andThen hf fun r => ignores_andThen (enable false) fun _ => ignores_done r

theorem ignores_latch : Ignores j (latch i) := ignores_latched hij (ignores_done ())

/-- One write cycle: a drive and a pulse. -/
theorem ignores_cycle (b : Byte) : Ignores j fun s => (dataDrive b s).andThen fun _ s => latch i s :=
  ignores_andThen (ignores_dataDrive b) fun _ => ignores_latch hij

theorem ignores_writeU8 (b : Byte) : Ignores j (writeU8 i b) := by
  intro g s
  unfold writeU8
  rw [modLine_cfg]
  cases s.cfg.bus with
  | par4 =>
    exact ignores_andThen (ignores_dataDrive _) (fun _ =>
      ignores_andThen (ignores_latch hij) fun _ => ignores_cycle hij _) g s
  | par8 | ser => exact ignores_cycle hij b g s

theorem ignores_writeU16 (v : Half) : Ignores j (writeU16 i v) :=
  ignores_andThen (ignores_writeU8 hij _) fun _ => ignores_writeU8 hij _

theorem ignores_readU8 : Ignores j (readU8 i) := by
  have pulse := ignores_latched hij ignores_dataSample
  intro g s
  unfold readU8
  rw [modLine_cfg]
  cases s.cfg.bus with
  | par4 =>
    exact ignores_andThen pulse (fun _ => ignores_andThen pulse fun _ => ignores_done _) g s
  | par8 | ser => exact pulse g s

theorem ignores_readU16 : Ignores j (readU16 i) :=
  ignores_andThen (ignores_readU8 hij) fun _ =>
    ignores_andThen (ignores_readU8 hij) fun _ => ignores_done _

theorem ignores_parWrite (reg : Reg) (v : Payload) : Ignores j (parWrite i reg v) := by
  refine ignores_andThen (ignores_selectReg hij reg) fun _ => ?_
  cases v with
  | one b => exact ignores_writeU8 hij b
  | two v => exact ignores_writeU16 hij v

theorem ignores_parRead (reg : Reg) {read : Nat → State → OpResult α}
    (hread : Ignores j (read i)) : Ignores j (parRead i reg read) := by
  refine ignores_andThen (ignores_setDir _) fun _ => ?_
  refine ignores_andThen (ignores_selectReg hij reg) fun _ => ?_
  exact ignores_andThen hread fun r => ignores_andThen (ignores_setDir _) fun _ => ignores_done r

omit hij in
theorem ignores_linkWriteAll (bs : List Byte) : Ignores j (linkWriteAll bs) := by
  induction bs with
  | nil => exact ignores_done ()
  | cons b bs ih => exact ignores_andThen (ignores_linkWrite b) fun _ => ih

theorem ignores_serWrite (reg : Reg) (v : Payload) : Ignores j (serWrite i reg v) := by
  have select : ∀ v, Ignores j (pinWrite (.cs i) v) := ignores_pinWrite rfl hij
  exact ignores_andThen (select true) fun _ =>
    ignores_andThen (ignores_linkWriteAll _) fun _ => select false

theorem ignores_memWrite (reg : Reg) (v : Payload) : Ignores j (memWrite i reg v) := by
  intro g s
  unfold memWrite
  rw [modLine_cfg]
  cases s.cfg.bus with
  | par4 | par8 => exact ignores_parWrite hij reg v g s
  | ser => exact ignores_serWrite hij reg v g s

/-- The deadline that is waited for is that of line `i`. -/
theorem ignores_awaitDeadline : Ignores j (awaitDeadline i) := by
  intro g s
  unfold awaitDeadline
  rw [line_modLine_ne s j i g hij]
  exact ignores_waitUntil _ g s

theorem ignores_book (d : Duration) : Ignores j (book i d) :=
  ignores_andThen ignores_now fun _ => ignores_modLine hij _ (ignores_done ())

theorem ignores_emit (c : Command) : Ignores j (emit i c) := by
  refine ignores_andThen (ignores_awaitDeadline hij) fun _ => ?_
  refine ignores_andThen (fun g s => ?_) fun _ => ignores_book hij _
  exact ignores_memWrite hij _ _ g s

theorem ignores_schedRead (reg : Reg) {read : Nat → State → OpResult α}
    (hread : Ignores j (read i)) : Ignores j (schedRead i reg read) := by
  refine ignores_andThen (ignores_awaitDeadline hij) fun _ => ?_
  refine ignores_andThen (ignores_parRead hij reg hread) fun r => ?_
  exact ignores_andThen (fun g s => ignores_book hij s.cfg.tRead g s) fun _ => ignores_done r

end Accesses

/-! ### Commands and host operations -/

section Operations

variable {i j : Nat} (hij : i ≠ j)
include hij

theorem ignores_pollLoop (t0 : Instant) (fuel : Nat) : Ignores j (pollLoop i t0 fuel) := by
  induction fuel with
  | zero => exact fun _ _ => rfl
  | succ n ih =>
    refine ignores_andThen (ignores_schedRead hij _ (ignores_readU8 hij)) fun b => ?_
    cases statusBusy b with
    | false => exact ignores_done ()
    | true =>
      refine ignores_andThen ignores_now fun t => ?_
      cases decide (tPollCeil ≤ t - t0) with
      | true => exact ignores_done ()
      | false => exact ih

theorem ignores_pollBusy : Ignores j (pollBusy i) := by
  intro g s
  unfold pollBusy
  rw [modLine_cfg]
  cases s.cfg.busyPoll && s.cfg.bus.isParallel with
  | false => rfl
  | true =>
    exact ignores_andThen ignores_now
      (fun t0 g s => ignores_pollLoop hij t0 (pollFuel s) g s) g s

theorem ignores_emitSelect (c : Command) (m : Mode) : Ignores j (emitSelect i c m) :=
  ignores_andThen (ignores_emit hij c) fun _ => ignores_modLine hij _ (ignores_done ())

theorem ignores_toBasic : Ignores j (toBasic i) :=
  ignores_andThen (ignores_pollBusy hij) fun _ => ignores_emitSelect hij _ _

/-- The mode that is asked for is that of line `i`. -/
theorem ignores_whenMode (m : Mode) {op : State → OpResult Unit} (hop : Ignores j op) :
    Ignores j (whenMode i m op) := by
  intro g s
  unfold whenMode
  rw [line_modLine_ne s j i g hij]
  split
  · exact hop g s
  · rfl

theorem ignores_execClass (c : Command) (k : CmdClass) : Ignores j (execClass i c k) := by
  have viaExtended : ∀ m, Ignores j (whenMode i m (toExtended i)) :=
    fun m => ignores_whenMode hij m (ignores_emitSelect hij _ _)
  cases k with
  | basicOp =>
    refine ignores_andThen (viaExtended _) fun _ => ?_
    exact ignores_andThen (ignores_whenMode hij _ (ignores_toBasic hij)) fun _ => ignores_emit hij c
  | extOp => exact ignores_andThen (viaExtended _) fun _ => ignores_emit hij c
  | selB => exact ignores_andThen (viaExtended _) fun _ => ignores_toBasic hij
  | selE => exact ignores_emitSelect hij _ _
  | selG => exact ignores_andThen (viaExtended _) fun _ => ignores_emitSelect hij _ _
  | neutral => exact ignores_emit hij c

theorem ignores_execCommand (c : Command) : Ignores j (execCommand i c) :=
  fun g s => ignores_execClass hij c (classOf s.cfg.writePolicy c) g s

omit hij in
theorem ignores_returnUnit {op : State → OpResult Unit} (hop : Ignores j op) :
    Ignores j fun s => returnUnit (op s) := ignores_andThen hop fun _ => ignores_done _

theorem ignores_statusBody : Ignores j (statusBody i) :=
  ignores_andThen (ignores_schedRead hij _ (ignores_readU8 hij)) fun _ => ignores_done _

theorem ignores_ramBody : Ignores j (ramBody i) :=
  ignores_andThen (ignores_schedRead hij _ (ignores_readU16 hij)) fun _ => ignores_done _

theorem ignores_initBody : Ignores j (initBody i) := by
  have settle : Ignores j fun s => delay s.cfg.tInitSettle s :=
    fun g s => ignores_delay s.cfg.tInitSettle g s
  have restart : Ignores j fun s => now (setMode i .basic s) :=
    ignores_modLine hij _ ignores_now
  have first : ∀ t, Ignores j fun s => emit i .selectBasic (setDeadline i t s) := fun t =>
    ignores_modLine hij _ (ignores_emit hij _)
  refine ignores_andThen ignores_now fun _ => ignores_andThen (ignores_waitUntil _) fun _ => ?_
  refine ignores_andThen restart fun t => ignores_andThen (first t) fun _ => ?_
  refine ignores_andThen settle fun _ => ignores_andThen (ignores_emit hij _) fun _ => ?_
  refine ignores_andThen settle fun _ => ignores_andThen (ignores_emit hij _) fun _ => ?_
  exact ignores_andThen (ignores_emit hij _) fun _ => ignores_emit hij _

/-- The answer of a host operation with the registers of line `j` changed after it. -/
def answerWithLine (j : Nat) (g : LineRegs → LineRegs) :
    Host.Outcome State Fault Refusal → Host.Outcome State Fault Refusal
  | .next t => .next (modLine j g t)
  | .fault e => .fault e
  | .refused e => .refused e

theorem complete_withLine (g : LineRegs → LineRegs) (r : OpResult HostResult) :
    complete i (r.withLine j g) = answerWithLine j g (complete i r) := by
  cases r with
  | done v t => rfl
  | raised e t =>
    exact congrArg (Host.Outcome.next ∘ answer (.err e)) (modLine_comm t i j _ g hij.symm)
  | hung f => rfl

/-- An operation on line `i` as the host asks for it, be there such a line or not. -/
theorem onLine_modLine {op : State → OpResult HostResult} (hop : Ignores j op)
    (g : LineRegs → LineRegs) (s : State) :
    onLine i op (modLine j g s) = answerWithLine j g (onLine i op s) := by
  unfold onLine
  rw [numLines_modLine, hop g s, complete_withLine hij]
  split <;> rfl

theorem readOperation_modLine {op : State → OpResult HostResult} (hop : Ignores j op)
    (g : LineRegs → LineRegs) (s : State) :
    readOperation i op (modLine j g s) = answerWithLine j g (readOperation i op s) := by
  unfold readOperation
  rw [modLine_cfg]
  split
  · exact onLine_modLine hij hop g s
  · rfl

omit hij in
/-- An instruction is `execute` with its command, or a read. -/
theorem exec_modLine {c : Instr} (hc : c.line ≠ j) (g : LineRegs → LineRegs) (s : State) :
    exec c (modLine j g s) = answerWithLine j g (exec c s) := by
  have command : ∀ i k, i ≠ j →
      execute i k (modLine j g s) = answerWithLine j g (execute i k s) := fun i k hi =>
    onLine_modLine hi (ignores_returnUnit (ignores_execCommand hi k)) g s
  cases c with
  | readStatus i => exact readOperation_modLine hc (ignores_statusBody hc) g s
  | readRam i => exact readOperation_modLine hc (ignores_ramBody hc) g s
  | _ => exact command _ _ hc

end Operations

end Sys2Proof.Machine
end

section
/-!
SUPPORT. The events an operation on a line adds are of that line (`TracesOf`), and of such events a chip
on another line takes nothing (46_shared_bus.md R246, 42_parallel_transport.md R155).
-/

namespace Sys2Proof.Machine

/-- From `s` to `t` the trace grew by events an operation on line `i` may produce. -/
def TracesOf (i : Nat) (s t : State) : Prop :=
  ∃ new, t.trace = s.trace ++ new ∧ ∀ e ∈ new, e.ev.ofLine i

variable {i j : Nat} {s t u : State}

/-- An update that records nothing. -/
theorem tracesOf_silent (h : t.trace = s.trace) : TracesOf i s t :=
  ⟨[], by rw [h, List.append_nil], nofun⟩

theorem TracesOf.trans (h : TracesOf i s t) (k : TracesOf i t u) : TracesOf i s u := by
  obtain ⟨n1, h1, hof1⟩ := h
  obtain ⟨n2, h2, hof2⟩ := k
  refine ⟨n1 ++ n2, by rw [h2, h1, List.append_assoc], fun e he => ?_⟩
  exact (List.mem_append.1 he).elim (hof1 e) (hof2 e)

theorem closed_tracesOf (i : Nat) : Closed i (TracesOf i) where
  refl _ := tracesOf_silent rfl
  trans _ _ _ := .trans
  elapse _ := tracesOf_silent rfl
  dropVerdict _ := tracesOf_silent rfl
  dropSample _ := tracesOf_silent rfl
  clockTo _ _ := tracesOf_silent rfl
  record s ev hev := ⟨[⟨s.env.clock, ev⟩], rfl, by simpa using hev⟩
  setPin s p v _ := tracesOf_silent (setPin_trace s p v)
  drive s v := tracesOf_silent (driveWires_trace s v)
  scramble _ := tracesOf_silent rfl
  applyDir _ _ := tracesOf_silent rfl
  setMode _ _ := tracesOf_silent rfl
  setDeadline _ _ := tracesOf_silent rfl
  setChipUnknown _ _ := tracesOf_silent rfl

/-- An instruction, `wait_ready` or `init` that answers a next state hands out one result after updates
on its line. -/
theorem answersOnce_of_runsOn {R : State → State → Prop} (h : Closed i R) (hr : RunsOn i s t) :
    ∃ v u, R s u ∧ t = answer v u := by
  rcases hr with ⟨c, rfl, hx⟩ | hx | hx
  · exact answersOnce_exec c h s t hx
  · exact answersOnce_runWaitReady h s t hx
  · exact answersOnce_runInit h s t hx

/-- An event of line `i` is no enable or chip-select edge of another line. -/
theorem Event.ofLine.not_edge {ev : Event} (hev : ev.ofLine i) (hj : j ≠ i) (v : Bool) :
    ev ≠ .en j v ∧ ev ≠ .cs j v :=
  ⟨fun h => hj (h ▸ hev : (Event.en j v).ofLine i), fun h => hj (h ▸ hev : (Event.cs j v).ofLine i)⟩

variable {evs : List Event}

/-- Without an edge of its enable line a chip takes nothing from a parallel bus. -/
theorem takenPulses_of_no_edge (edge : Edge) (h : ∀ ev ∈ evs, ∀ v, ev ≠ .en j v) :
    ∀ w, takenPulses edge j w evs = [] := by
  induction evs with
  | nil => exact fun _ => rfl
  | cons ev evs ih =>
    obtain ⟨hev, hevs⟩ := List.forall_mem_cons.1 h
    have htakes : ∀ w, takesAt edge j w ev = false := by
      cases ev with
      | en k v =>
        have hk : k ≠ j := fun hk => hev v (hk ▸ rfl)
        simp [takesAt, hk]
      | _ => exact fun _ => rfl
    intro w
    simp [takenPulses, takenAt, htakes, ih hevs]

/-- Without an edge of its chip-select a chip takes no frame from a serial link. -/
theorem takenFrames_of_no_edge (level : Bool) (h : ∀ ev ∈ evs, ∀ v, ev ≠ .cs j v) :
    takenFrames j level none evs = [] := by
  induction evs with
  | nil => rfl
  | cons ev evs ih =>
    obtain ⟨hev, hevs⟩ := List.forall_mem_cons.1 h
    cases ev with
    | cs k v =>
      have hk : k ≠ j := fun hk => hev v (hk ▸ rfl)
      cases v <;> simpa [takenFrames, hk] using ih hevs
    | _ => simpa [takenFrames] using ih hevs

/-- A chip on a line none of whose edges is among the events takes nothing, on any transport. -/
theorem chipBytes_of_no_edge (edge : Edge) (h : ∀ ev ∈ evs, ∀ v, ev ≠ .en j v ∧ ev ≠ .cs j v) :
    chipBytes edge j s evs = [] := by
  have hpulses := takenPulses_of_no_edge edge fun ev hev v => (h ev hev v).1
  have hframes := takenFrames_of_no_edge (s.line j).cs fun ev hev v => (h ev hev v).2
  unfold chipBytes
  cases s.cfg.bus with
  | par4 => simp [hpulses, joinTaken]
  | par8 => exact hpulses _
  | ser => simp [hframes]

end Sys2Proof.Machine
end

section
/-!
SUPPORT. What a transport leaves alone on its own line: on a parallel bus the chip-select
(`ParallelWith`), on a serial link every latch but the chip-select (`SerialWith`)
(10_state.md R23 to R26).
-/

namespace Sys2Proof.Machine

/-- The bus is parallel, and the chip-select of line `k` is at `x`. -/
def ParallelWith (k : Nat) (x : Bool) (s : State) : Prop :=
  s.cfg.bus.isParallel = true ∧ (s.line k).cs = x

/-- The latches a serial link does not use: `RS`, `RW`, `DATA`, the wires, `DIR` and the enable line of
line `i`. -/
def unusedOnSerial (i : Nat) (s : State) : Bool × Bool × Byte × Byte × Dir × Bool :=
  (s.rs, s.rw, s.data, s.wires, s.dir, (s.line i).e)

/-- The bus is serial, and its unused latches are at `x`. -/
def SerialWith (i : Nat) (x : Bool × Bool × Byte × Byte × Dir × Bool) (s : State) : Prop :=
  s.cfg.bus = .ser ∧ unusedOnSerial i s = x

variable {i k : Nat} {s t : State}

/-! ### On a parallel bus -/

section Parallel

variable {x : Bool}

theorem ParallelWith.modLine (h : ParallelWith k x s) (i : Nat) {f : LineRegs → LineRegs}
    (hf : ∀ l, (f l).cs = l.cs) : ParallelWith k x (modLine i f s) :=
  ⟨h.1, (part_modLine i hf k s).trans h.2⟩

theorem ParallelWith.setChipUnknown (h : ParallelWith k x s) (i : Nat) (b : Bool) :
    ParallelWith k x (setChipUnknown i b s) := h.modLine i fun _ => rfl

theorem steady_parallelWith (i k : Nat) (x : Bool) :
    Steady (Pin.onParallel i) (ParallelWith k x) where
  elapse _ := id
  dropVerdict _ := id
  dropSample _ := id
  clockTo _ _ := id
  record _ _ := id
  drive s v h := ⟨by simpa using h.1, by rw [line_congr (driveWires_lines s v) k]; exact h.2⟩
  scramble _ := id
  setPin _ p _ hp h := match p with
    | .rs | .rw => h
    | .e j => h.modLine j fun _ => rfl
    | .cs _ => hp.elim

theorem keptBetween_parallelWith (k : Nat) (x : Bool) (i : Nat) :
    KeptBetween i (ParallelWith k x) (ParallelWith k x) where
  steady := (steady_parallelWith i k x).fewer fun _ => False.elim
  setMode _ _ h := h.modLine i fun _ => rfl
  book _ _ _ h := h.modLine i fun _ => rfl
  write s reg v h := by
    have hparallel := steady_parWrite (steady_parallelWith i k x) reg v h
    unfold memWrite
    split
    · exact hparallel
    · exact hparallel
    next hser => exact absurd h.1 (by simp [hser, Bus.isParallel])
  readByte _ reg h := steady_parRead (steady_parallelWith i k x) (fun _ _ => id) reg
    (fun _ => steady_readU8 (steady_parallelWith i k x)) h
  readWord _ reg h := steady_parRead (steady_parallelWith i k x) (fun _ _ => id) reg
    (fun _ => steady_readU16 (steady_parallelWith i k x)) h
  known _ _ _ _ h := h.setChipUnknown i false

/-- No instruction moves a chip-select of a parallel bus. -/
theorem cs_exec_parallel (c : Instr) (hpar : s.cfg.bus.isParallel = true) (k : Nat)
    (hx : exec c s = .next t) : (t.line k).cs = (s.line k).cs := by
  cases answered_exec (keptBetween_parallelWith k (s.line k).cs) c ⟨hpar, rfl⟩ hx with
  | value v hu => exact hu.2
  | error i e hu => exact (hu.setChipUnknown i true).2

end Parallel

/-! ### On a serial link -/

/-- A command keeps what its transfers, its polls and its mode assignments keep. -/
theorem endsOr_execCommand {P Q : State → Prop}
    (hemit : ∀ c s, P s → (emit i c s).EndsOr P Q) (hpoll : ∀ s, P s → (pollBusy i s).EndsOr P Q)
    (hmode : ∀ m s, P s → P (setMode i m s)) (c : Command) (hs : P s) :
    (execCommand i c s).EndsOr P Q := by
  have select : ∀ c m s, P s → (emitSelect i c m s).EndsOr P Q :=
    fun c m s hs => endsOr_andThen (hemit c s hs) fun _ => hmode m
  have toBasic : ∀ s, P s → (toBasic i s).EndsOr P Q :=
    fun s hs => endsOr_andThen (hpoll s hs) fun _ => select _ _
  have viaExtended : ∀ m, (whenMode i m (toExtended i) s).EndsOr P Q :=
    fun m => between_whenMode m (select _ _) hs
  unfold execCommand execClass
  cases classOf s.cfg.writePolicy c with
  | basicOp =>
    refine endsOr_andThen (viaExtended _) fun _ _ hs => ?_
    exact endsOr_andThen (between_whenMode _ toBasic hs) fun _ => hemit c
  | extOp => exact endsOr_andThen (viaExtended _) fun _ => hemit c
  | selB => exact endsOr_andThen (viaExtended _) fun _ => toBasic
  | selE => exact select _ _ s hs
  | selG => exact endsOr_andThen (viaExtended _) fun _ => select _ _
  | neutral => exact hemit c s hs

section Serial

variable {x : Bool × Bool × Byte × Byte × Dir × Bool}

/-- The operation keeps the latches that are not used on a serial link, however it ends. -/
abbrev OpResult.KeepsSerial {α : Type} (i : Nat) (x : Bool × Bool × Byte × Byte × Dir × Bool)
    (r : OpResult α) : Prop := r.EndsOr (SerialWith i x) (SerialWith i x)

theorem SerialWith.modLine (h : SerialWith i x s) (j : Nat) {f : LineRegs → LineRegs}
    (hf : ∀ l, (f l).e = l.e) : SerialWith i x (modLine j f s) := by
  obtain ⟨hser, rfl⟩ := h
  exact ⟨hser, by simp [unusedOnSerial, part_modLine j hf]⟩

theorem SerialWith.setChipUnknown (h : SerialWith i x s) (j : Nat) (b : Bool) :
    SerialWith i x (setChipUnknown j b s) := h.modLine j fun _ => rfl

theorem serial_attempt {α : Type} (mk : Nat → BlockError) {effect : State → OpResult α}
    (hEffect : ∀ s, SerialWith i x s → (effect s).KeepsSerial i x) (hs : SerialWith i x s) :
    (attempt mk id effect s).KeepsSerial i x := by
  unfold attempt
  split
  · exact hs
  · exact hEffect _ hs

theorem serial_chipSelect (j : Nat) (v : Bool) (hs : SerialWith i x s) :
    (pinWrite (.cs j) v s).KeepsSerial i x :=
  serial_attempt _ (fun _ hs => hs.modLine j fun _ => rfl) hs

theorem serial_linkWriteAll (bs : List Byte) :
    ∀ s, SerialWith i x s → (linkWriteAll bs s).KeepsSerial i x := by
  induction bs with
  | nil => exact fun _ => id
  | cons b bs ih =>
    exact fun s hs => endsOr_andThen (serial_attempt _ (fun _ => id) hs) fun _ => ih

theorem serial_memWrite (reg : Reg) (v : Payload) (hs : SerialWith i x s) :
    (memWrite i reg v s).KeepsSerial i x := by
  rw [memWrite_ser hs.1]
  refine endsOr_andThen (serial_chipSelect i true hs) fun _ s hs => ?_
  exact endsOr_andThen (serial_linkWriteAll _ s hs) fun _ _ => serial_chipSelect i false

theorem serial_awaitDeadline (hs : SerialWith i x s) : (awaitDeadline i s).KeepsSerial i x := by
  unfold awaitDeadline waitUntil
  split
  · trivial
  · exact hs

theorem serial_emit (c : Command) (s : State) (hs : SerialWith i x s) :
    (emit i c s).KeepsSerial i x := by
  refine endsOr_andThen (serial_awaitDeadline hs) fun _ s hs => ?_
  refine endsOr_andThen (serial_memWrite _ _ hs) fun _ s hs => ?_
  exact SerialWith.modLine (s := elapse s) hs i fun _ => rfl

/-- There are no polls on a serial link (log 15). -/
theorem pollBusy_ser (hser : s.cfg.bus = .ser) : pollBusy i s = .done () s := by
  simp [pollBusy, hser, Bus.isParallel]

theorem serial_execCommand (c : Command) (hs : SerialWith i x s) :
    (execCommand i c s).KeepsSerial i x := by
  have hpoll : ∀ s, SerialWith i x s → (pollBusy i s).KeepsSerial i x := fun s hs => by
    rw [pollBusy_ser hs.1]
    exact hs
  exact endsOr_execCommand serial_emit hpoll (fun _ _ hs => hs.modLine i fun _ => rfl) c hs

/-- Reads are absent from a serial link (47_facade.md R267). -/
theorem readOperation_ser (hser : s.cfg.bus = .ser) (op : State → OpResult HostResult) :
    readOperation i op s = .refused .absentOnSerial := by
  simp [readOperation, hser, Bus.isParallel]

/-- No instruction changes a latch that is not used on a serial link. -/
theorem unusedOnSerial_exec (c : Instr) (hser : s.cfg.bus = .ser) (hx : exec c s = .next t) :
    unusedOnSerial c.line t = unusedOnSerial c.line s := by
  have command : ∀ i k, execute i k s = .next t → unusedOnSerial i t = unusedOnSerial i s := by
    intro i k hk
    have hs : SerialWith i (unusedOnSerial i s) s := ⟨hser, rfl⟩
    cases answered_onLine (Q := fun _ => SerialWith i (unusedOnSerial i s))
      (between_returnUnit (serial_execCommand k hs)) hs hk with
    | value v hu => exact hu.2
    | error j e hu => exact (hu.setChipUnknown j true).2
  cases c with
  | readStatus i => exact absurd ((readOperation_ser hser _).symm.trans hx) nofun
  | readRam i => exact absurd ((readOperation_ser hser _).symm.trans hx) nofun
  | _ => exact command _ _ hx

end Serial

end Sys2Proof.Machine
end

section
/-!
SUPPORT. Host operations that are not performed, and the step of an operation that is no row of the
opcode table (46_shared_bus.md R241, R242).
-/

namespace Sys2Proof.Machine

variable {s : State}

/-- An operation for an index that names no line hands out that there is no handle. -/
theorem onLine_of_absent {i : Nat} (hi : s.numLines ≤ i) (op : State → OpResult HostResult) :
    onLine i op s = .next (answer .noHandle s) := if_neg (Nat.not_lt.2 hi)

theorem readOperation_parallel (hpar : s.cfg.bus.isParallel = true) (i : Nat)
    (op : State → OpResult HostResult) : readOperation i op s = onLine i op s := by
  simp [readOperation, hpar]

/-- A step takes an operation that is no row of the opcode table and runs it. -/
theorem step_of_facade {op : HostOp} {rest : List HostOp} (hp : s.pending = op :: rest)
    (hop : ∀ w, op ≠ .command w) : step s = runFacade op { s with pending := rest } := by
  have hfetch : fetch s = .facade op { s with pending := rest } := by
    cases op with
    | command w => exact absurd rfl (hop w)
    | _ => simp [fetch, hp]
  simp only [step, hfetch]

end Sys2Proof.Machine
end

section
/-! Obligations of 46_shared_bus.md. -/

namespace Sys2Proof.Machine

/-- Settles O44: what each operation reads and assigns of the per-line registers is of its own line, so
a change of another line passes through it (`Ignores`). -/
theorem linesDoNotInterfere : Obligations.LinesDoNotInterfere := by
  refine fun j f s => ⟨fun c hc => exec_modLine hc f s, fun i hi => ?waitReady, fun i hi => ?init⟩
  case waitReady =>
    exact onLine_modLine hi (ignores_returnUnit (ignores_awaitDeadline hi)) f s
  case init =>
    have hknown := ignores_andThen (ignores_initBody hi) fun _ => ignores_modLine hi
      (fun l => { l with chipUnknown := false }) (ignores_done ())
    exact onLine_modLine hi (ignores_returnUnit hknown) f s

/-- Settles O45: the events added are of line `i` (`closed_tracesOf`), and a chip without an edge among
them takes nothing. -/
theorem otherChipsTakeNothing : Obligations.OtherChipsTakeNothing := by
  intro i s t hr
  obtain ⟨v, u, ⟨new, hnew, hof⟩, rfl⟩ := answersOnce_of_runsOn (closed_tracesOf i) hr
  refine ⟨new, hnew, fun j hj => ?_⟩
  have noEdge : ∀ e ∈ new, ∀ v, e.ev ≠ .en j v ∧ e.ev ≠ .cs j v :=
    fun e he => (hof e he).not_edge hj
  refine ⟨noEdge, fun _ edge => chipBytes_of_no_edge edge ?_⟩
  simpa only [List.forall_mem_map] using noEdge

/-- Settles O46: the rest is left alone by every primitive update (`closed_onlyAdds`), and what the
transport does not use by every access (`cs_exec_parallel`, `unusedOnSerial_exec`). -/
theorem instructionFrame : Obligations.InstructionFrame := by
  intro c s t hx
  refine ⟨?rest, fun hpar => cs_exec_parallel c hpar c.line hx, fun hser => ?serial⟩
  case rest =>
    obtain ⟨v, u, hadds, rfl⟩ := answersOnce_exec c (closed_onlyAdds c.line) s t hx
    exact hadds.rest
  case serial =>
    have hunused := unusedOnSerial_exec c hser hx
    simpa only [unusedOnSerial, Prod.mk.injEq] using hunused

/-- Settles O26: every instruction is performed by `onLine`, which performs nothing on a line that does
not exist. -/
theorem noSuchLineNotPerformed : Obligations.NoSuchLineNotPerformed := by
  intro c s hi hread
  have command : ∀ i k, s.numLines ≤ i → execute i k s = .next (answer .noHandle s) :=
    fun i k hi => onLine_of_absent hi _
  cases c with
  | readStatus i => exact (readOperation_parallel (hread rfl) i _).trans (onLine_of_absent hi _)
  | readRam i => exact (readOperation_parallel (hread rfl) i _).trans (onLine_of_absent hi _)
  | _ => exact command _ _ hi

/-- Settles O27: `num` answers with the number of lines in the state it was taken from. -/
theorem numReturnsLineCount : Obligations.NumReturnsLineCount :=
  fun _ _ hp => step_of_facade hp nofun

/-- Settles O28: below the number of lines the index itself is the handle. -/
theorem getReturnsHandle : Obligations.GetReturnsHandle := by
  intro s x rest hp
  have hstep : step s = runGet x { s with pending := rest } := step_of_facade hp nofun
  refine ⟨fun hx => ?handle, fun hx => ?none⟩
  case handle =>
    have hx' : x < State.numLines { s with pending := rest } := hx
    rw [hstep, runGet, if_pos hx']
    rfl
  case none =>
    have hx' : ¬ x < State.numLines { s with pending := rest } := Nat.not_lt.2 hx
    rw [hstep, runGet, if_neg hx']
    rfl

end Sys2Proof.Machine
end

section
/-!
SUPPORT. What an operation does to the model's flag of its line, and which errors it ends with
(`Tame`): until its result is handed out it leaves the flag, and on a parallel bus it fails with a pin
error only (93_implementation_defined.md section 2, 60_exceptions.md R281).
-/

namespace Sys2Proof.Machine

/-- The error can come from the primitives of the transport: a parallel bus has no link
(60_exceptions.md R281). -/
def BlockError.Fits (p : Params) (e : BlockError) : Prop :=
  p.bus.isParallel = true → ∃ n, e = .pinError n

/-- The parameters, and the flag of line `i`, are as before. -/
structure SameFlag (i : Nat) (s t : State) : Prop where
  cfg : t.cfg = s.cfg
  flag : (t.line i).chipUnknown = (s.line i).chipUnknown

/-- Done, the operation has left the flag of line `i`; failed, its error fits the transport. -/
def Tame {α : Type} (i : Nat) (s : State) (r : OpResult α) : Prop :=
  match r with
  | .done _ t => SameFlag i s t
  | .raised e _ => e.Fits s.cfg
  | .hung _ => True

variable {α β : Type} {i : Nat} {s t : State}

theorem fits_pinError (p : Params) (n : Nat) : (BlockError.pinError n).Fits p := fun _ => ⟨n, rfl⟩

theorem SameFlag.refl (i : Nat) (s : State) : SameFlag i s s := ⟨rfl, rfl⟩

theorem SameFlag.trans {u : State} (h : SameFlag i s t) (k : SameFlag i t u) : SameFlag i s u :=
  ⟨k.cfg.trans h.cfg, k.flag.trans h.flag⟩

/-- An update of a line that leaves its flag. -/
theorem sameFlag_modLine (j : Nat) {f : LineRegs → LineRegs}
    (hf : ∀ l, (f l).chipUnknown = l.chipUnknown) (i : Nat) (s : State) :
    SameFlag i s (modLine j f s) := ⟨rfl, part_modLine j hf i s⟩

theorem sameFlag_setMode (m : Mode) (i : Nat) (s : State) : SameFlag i s (setMode i m s) :=
  sameFlag_modLine i (f := ({ · with mode := m })) (fun _ => rfl) i s

theorem sameFlag_setDeadline (d : Instant) (i : Nat) (s : State) :
    SameFlag i s (setDeadline i d s) :=
  sameFlag_modLine i (f := ({ · with deadline := d })) (fun _ => rfl) i s

theorem sameFlag_setPin (p : Pin) (v : Bool) (i : Nat) (s : State) :
    SameFlag i s (setPin p v s) := by
  cases p with
  | rs | rw => exact ⟨rfl, rfl⟩
  | e j => exact sameFlag_modLine j (f := ({ · with e := v })) (fun _ => rfl) i s
  | cs j => exact sameFlag_modLine j (f := ({ · with cs := v })) (fun _ => rfl) i s

/-- What follows an update that leaves the flag. -/
theorem SameFlag.tame {r : OpResult α} (h : SameFlag i s t) (hr : Tame i t r) : Tame i s r := by
  cases r with
  | done a u => exact h.trans hr
  | raised e u =>
    have hfits : e.Fits t.cfg := hr
    rwa [h.cfg] at hfits
  | hung x => trivial

theorem tame_andThen {r : OpResult α} {f : α → State → OpResult β} (hr : Tame i s r)
    (hf : ∀ a t, t.cfg = s.cfg → Tame i t (f a t)) : Tame i s (r.andThen f) := by
  cases r with
  | done a t => exact SameFlag.tame hr (hf a t hr.cfg)
  | raised e t => exact hr
  | hung x => trivial

theorem tame_done (a : α) : Tame i s (.done a s) := .refl i s

/-! ### Primitives -/

theorem tame_attempt {mk : Nat → BlockError} (hmk : ∀ n, (mk n).Fits s.cfg)
    (onFail : State → State) {effect : State → OpResult α} (heff : ∀ s, Tame i s (effect s)) :
    Tame i s (attempt mk onFail effect s) := by
  unfold attempt
  split
  next n _ => exact hmk n
  next => exact SameFlag.tame (t := dropVerdict (elapse s)) ⟨rfl, rfl⟩ (heff _)

theorem tame_pinWrite (p : Pin) (v : Bool) : Tame i s (pinWrite p v s) :=
  tame_attempt (fits_pinError _) _ fun s =>
    let ⟨hcfg, hflag⟩ := sameFlag_setPin p v i s
    ⟨hcfg, hflag⟩

theorem tame_dataDrive (v : Byte) : Tame i s (dataDrive v s) :=
  tame_attempt (fits_pinError _) _ fun s =>
    ⟨driveWires_cfg s v, congrArg LineRegs.chipUnknown (line_congr (driveWires_lines s v) i)⟩

theorem tame_dataSample : Tame i s (dataSample s) :=
  tame_attempt (fits_pinError _) _ fun _ => ⟨rfl, rfl⟩

theorem tame_setDir (d : Dir) : Tame i s (setDir d s) :=
  tame_attempt (fits_pinError _) _ fun _ => ⟨rfl, rfl⟩

/-- A byte is handed to the link on `SER` only. -/
theorem tame_linkWrite (hser : s.cfg.bus = .ser) (b : Byte) : Tame i s (linkWrite b s) :=
  tame_attempt (fun _ hb => absurd hb (by simp [hser, Bus.isParallel])) _ fun _ => ⟨rfl, rfl⟩

theorem tame_waitUntil (d : Instant) : Tame i s (waitUntil d s) := by
  rcases waitUntil_cases d s with h | h
  · rw [h]; exact ⟨rfl, rfl⟩
  · rw [h]; trivial

theorem tame_now : Tame i s (now s) := ⟨rfl, rfl⟩

theorem tame_delay (d : Duration) : Tame i s (delay d s) :=
  tame_andThen tame_now fun _ _ _ => tame_waitUntil _

/-! ### Accesses -/

theorem tame_selectReg (reg : Reg) : Tame i s (selectReg reg s) :=
  tame_andThen (tame_pinWrite .rs _) fun _ _ _ => tame_pinWrite .rw _

theorem tame_latched {f : State → OpResult α} (hf : ∀ s, Tame i s (f s)) :
    Tame i s (latched i f s) :=
  tame_andThen (tame_pinWrite (.e i) true) fun _ _ _ =>
  tame_andThen (tame_delay _) fun _ s _ =>
  tame_andThen (hf s) fun a _ _ =>
  tame_andThen (tame_pinWrite (.e i) false) fun _ _ _ => tame_done a

/-- One write cycle: a drive and a pulse. -/
theorem tame_cycle (b : Byte) : Tame i s ((dataDrive b s).andThen fun _ s => latch i s) :=
  tame_andThen (tame_dataDrive b) fun _ _ _ => tame_latched fun _ => tame_done ()

theorem tame_writeU8 (b : Byte) : Tame i s (writeU8 i b s) := by
  unfold writeU8
  split
  · exact tame_andThen (tame_dataDrive _) fun _ _ _ =>
      tame_andThen (tame_latched fun _ => tame_done ()) fun _ _ _ => tame_cycle _
  · exact tame_cycle b
  · exact tame_cycle b

theorem tame_readU8 : Tame i s (readU8 i s) := by
  have pulse : ∀ s, Tame i s (latched i dataSample s) := fun _ => tame_latched fun _ => tame_dataSample
  unfold readU8
  split
  · exact tame_andThen (pulse s) fun _ t _ => tame_andThen (pulse t) fun _ _ _ => tame_done _
  · exact pulse s
  · exact pulse s

theorem tame_readU16 : Tame i s (readU16 i s) :=
  tame_andThen tame_readU8 fun _ _ _ => tame_andThen tame_readU8 fun _ _ _ => tame_done _

theorem tame_parWrite (reg : Reg) (v : Payload) : Tame i s (parWrite i reg v s) := by
  refine tame_andThen (tame_selectReg reg) fun _ t _ => ?_
  cases v with
  | one b => exact tame_writeU8 b
  | two w => exact tame_andThen (tame_writeU8 _) fun _ _ _ => tame_writeU8 _

theorem tame_parRead (reg : Reg) {read : Nat → State → OpResult α}
    (hread : ∀ s, Tame i s (read i s)) : Tame i s (parRead i reg read s) :=
  tame_andThen (tame_setDir .into) fun _ _ _ =>
  tame_andThen (tame_selectReg reg) fun _ s _ =>
  tame_andThen (hread s) fun a _ _ => tame_andThen (tame_setDir .out) fun _ _ _ => tame_done a

theorem tame_linkWriteAll (bs : List Byte) :
    ∀ {s}, s.cfg.bus = .ser → Tame i s (linkWriteAll bs s) := by
  induction bs with
  | nil => exact fun _ => tame_done ()
  | cons b bs ih =>
    exact fun hser => tame_andThen (tame_linkWrite hser b) fun _ _ hcfg => ih (hcfg ▸ hser)

theorem tame_memWrite (reg : Reg) (v : Payload) : Tame i s (memWrite i reg v s) := by
  unfold memWrite
  split
  · exact tame_parWrite reg v
  · exact tame_parWrite reg v
  next hser =>
    exact tame_andThen (tame_pinWrite (.cs i) true) fun _ t hcfg =>
      tame_andThen (tame_linkWriteAll _ (hcfg ▸ hser)) fun _ _ _ => tame_pinWrite (.cs i) false

/-! ### Commands and host operations -/

theorem tame_book (d : Duration) : Tame i s (book i d s) :=
  tame_andThen tame_now fun _ t _ => sameFlag_setDeadline _ i t

theorem tame_emit (c : Command) : Tame i s (emit i c s) :=
  tame_andThen (tame_waitUntil _) fun _ _ _ =>
  tame_andThen (tame_memWrite _ _) fun _ _ _ => tame_book _

theorem tame_schedRead (reg : Reg) {read : Nat → State → OpResult α}
    (hread : ∀ s, Tame i s (read i s)) : Tame i s (schedRead i reg read s) :=
  tame_andThen (tame_waitUntil _) fun _ _ _ =>
  tame_andThen (tame_parRead reg hread) fun a _ _ =>
  tame_andThen (tame_book _) fun _ _ _ => tame_done a

theorem tame_pollLoop (t0 : Instant) (fuel : Nat) : ∀ {s}, Tame i s (pollLoop i t0 fuel s) := by
  induction fuel with
  | zero => exact trivial
  | succ n ih =>
    intro s
    refine tame_andThen (tame_schedRead _ fun _ => tame_readU8) fun b t _ => ?_
    split
    · exact tame_done ()
    · refine tame_andThen tame_now fun now t _ => ?_
      split
      · exact tame_done ()
      · exact ih

theorem tame_pollBusy : Tame i s (pollBusy i s) := by
  unfold pollBusy
  split
  · exact tame_done ()
  · exact tame_andThen tame_now fun _ _ _ => tame_pollLoop _ _

theorem tame_emitSelect (c : Command) (m : Mode) : Tame i s (emitSelect i c m s) :=
  tame_andThen (tame_emit c) fun _ t _ => sameFlag_setMode m i t

theorem tame_toBasic : Tame i s (toBasic i s) :=
  tame_andThen tame_pollBusy fun _ _ _ => tame_emitSelect _ _

theorem tame_whenMode (m : Mode) {op : State → OpResult Unit} (hop : Tame i s (op s)) :
    Tame i s (whenMode i m op s) := by
  unfold whenMode
  split
  · exact hop
  · exact tame_done ()

theorem tame_execCommand (c : Command) : Tame i s (execCommand i c s) := by
  have viaExtended : ∀ m, Tame i s (whenMode i m (toExtended i) s) :=
    fun m => tame_whenMode m (tame_emitSelect _ _)
  unfold execCommand execClass
  cases classOf s.cfg.writePolicy c with
  | basicOp =>
    exact tame_andThen (viaExtended _) fun _ _ _ =>
      tame_andThen (tame_whenMode _ tame_toBasic) fun _ _ _ => tame_emit c
  | extOp => exact tame_andThen (viaExtended _) fun _ _ _ => tame_emit c
  | selB => exact tame_andThen (viaExtended _) fun _ _ _ => tame_toBasic
  | selE => exact tame_emitSelect _ _
  | selG => exact tame_andThen (viaExtended _) fun _ _ _ => tame_emitSelect _ _
  | neutral => exact tame_emit c

theorem tame_initBody : Tame i s (initBody i s) := by
  have restart : ∀ s, Tame i s (now (setMode i .basic s)) :=
    fun s => (sameFlag_setMode .basic i s).tame tame_now
  have first : ∀ t s, Tame i s (emit i .selectBasic (setDeadline i t s)) :=
    fun t s => (sameFlag_setDeadline t i s).tame (tame_emit _)
  refine tame_andThen tame_now fun _ s _ => tame_andThen (tame_waitUntil _) fun _ s _ => ?_
  refine tame_andThen (restart s) fun t s _ => tame_andThen (first t s) fun _ s _ => ?_
  refine tame_andThen (tame_delay _) fun _ s _ => tame_andThen (tame_emit _) fun _ s _ => ?_
  refine tame_andThen (tame_delay _) fun _ s _ => tame_andThen (tame_emit _) fun _ s _ => ?_
  exact tame_andThen (tame_emit _) fun _ _ _ => tame_emit _

/-! ### Answers -/

/-- What an operation hands out before its result is answered: done, a result that is no `Err`, with
the flag of its line at `x` if there is such a line; failed, an error that fits the transport. -/
def Honest (i : Nat) (s : State) (x : Bool) (r : OpResult HostResult) : Prop :=
  match r with
  | .done v t => t.results = s.results ∧ v.isErr = false
      ∧ (i < s.numLines → (t.line i).chipUnknown = x)
  | .raised e t => t.results = s.results ∧ e.Fits s.cfg
  | .hung _ => True

/-- The host got one result; the flag of the line is at `x`, and an `Err` has set it; an error fits
the transport. -/
def Replies (i : Nat) (x : Bool) (s t : State) : Prop :=
  ∃ r : HostResult, t.results = s.results ++ [r]
    ∧ (i < s.numLines → (t.line i).chipUnknown = (r.isErr || x))
    ∧ ∀ e, r = .err e → e.Fits s.cfg

/-- A tame operation that then hands out a value is honest. -/
theorem honest_of_tame {r : OpResult α} {g : α → HostResult} (hadds : r.Ends (OnlyAdds i s))
    (htame : Tame i s r) (hg : ∀ a, (g a).isErr = false) :
    Honest i s (s.line i).chipUnknown (r.andThen fun a s => .done (g a) s) := by
  cases r with
  | done a t => exact ⟨hadds.results, hg a, fun _ => htame.flag⟩
  | raised e t => exact ⟨hadds.results, htame⟩
  | hung f => trivial

theorem honest_statusBody : Honest i s (s.line i).chipUnknown (statusBody i s) :=
  honest_of_tame (g := fun b => .okStatus (statusBusy b) (statusAc b))
    (ends_schedRead (closed_onlyAdds i) _ _ (ends_readU8 (closed_onlyAdds i)) s)
    (tame_schedRead _ fun _ => tame_readU8) fun _ => rfl

theorem honest_ramBody : Honest i s (s.line i).chipUnknown (ramBody i s) :=
  honest_of_tame (g := .okWord)
    (ends_schedRead (closed_onlyAdds i) _ _ (ends_readU16 (closed_onlyAdds i)) s)
    (tame_schedRead _ fun _ => tame_readU16) fun _ => rfl

/-- `init` that is done has cleared the flag. -/
theorem honest_init : Honest i s false
    (returnUnit ((initBody i s).andThen fun _ s => .done () (setChipUnknown i false s))) := by
  have hadds := ends_initBody (closed_onlyAdds i) s
  have htame := tame_initBody (i := i) (s := s)
  cases hr : initBody i s with
  | done a t =>
    rw [hr] at hadds
    exact ⟨hadds.results, rfl, fun hi => congrArg LineRegs.chipUnknown
      (line_modLine_same t i (fun l => { l with chipUnknown := false })
        (OnlyAdds.lt_numLines hadds hi))⟩
  | raised e t => rw [hr] at hadds htame; exact ⟨hadds.results, htame⟩
  | hung f => trivial

theorem replies_onLine {op : State → OpResult HostResult} {x : Bool} (hop : Honest i s x (op s))
    (ht : onLine i op s = .next t) : Replies i x s t := by
  unfold onLine at ht
  split at ht
  next hi =>
    cases hr : op s with
    | done v u =>
      rw [hr] at hop ht
      obtain ⟨hresults, hok, hflag⟩ := hop
      cases ht
      refine ⟨v, by simp [hresults], fun hi => ?_, ?_⟩
      · rw [hok]; exact hflag hi
      · rintro e rfl; cases hok
    | raised e u =>
      rw [hr] at hop ht
      obtain ⟨hresults, hfits⟩ := hop
      cases ht
      refine ⟨.err e, by simp [hresults], fun _ => chipUnknown_setChipUnknown i u, ?_⟩
      rintro _ ⟨⟩
      exact hfits
    | hung f => rw [hr] at ht; cases ht
  next hi =>
    cases ht
    exact ⟨.noHandle, rfl, fun hlt => absurd hlt hi, nofun⟩

theorem replies_readOperation {op : State → OpResult HostResult} {x : Bool}
    (hop : Honest i s x (op s)) (ht : readOperation i op s = .next t) : Replies i x s t := by
  unfold readOperation at ht
  split at ht
  · exact replies_onLine hop ht
  · cases ht

/-- An instruction is `execute` with its command, or a read. -/
theorem replies_exec (c : Instr) (ht : exec c s = .next t) :
    Replies c.line (s.line c.line).chipUnknown s t := by
  have command : ∀ i k, execute i k s = .next t → Replies i (s.line i).chipUnknown s t :=
    fun i k => replies_onLine (honest_of_tame (ends_execCommand (closed_onlyAdds i) k s)
      (tame_execCommand k) fun _ => rfl)
  cases c with
  | readStatus i => exact replies_readOperation honest_statusBody ht
  | readRam i => exact replies_readOperation honest_ramBody ht
  | _ => exact command _ _ ht

theorem replies_runWaitReady (ht : runWaitReady i s = .next t) :
    Replies i (s.line i).chipUnknown s t :=
  replies_onLine (honest_of_tame (ends_awaitDeadline (closed_onlyAdds i) s) (tame_waitUntil _)
    fun _ => rfl) ht

theorem replies_runInit (ht : runInit i s = .next t) : Replies i false s t :=
  replies_onLine honest_init ht

theorem Replies.fits {x : Bool} {e : BlockError} (h : Replies i x s t)
    (hres : t.results = s.results ++ [.err e]) : e.Fits s.cfg := by
  obtain ⟨r, hr, -, hfits⟩ := h
  have heq : [r] = [HostResult.err e] := List.append_cancel_left (hr.symm.trans hres)
  exact hfits e (List.singleton_inj.mp heq)

end Sys2Proof.Machine
end

section
/-! Obligations of 60_exceptions.md and 93_implementation_defined.md about every `Err`. -/

namespace Sys2Proof.Machine

/-- Settles O51: what an operation hands out fits the transport (`Replies`), and a parallel bus has no
link error. -/
theorem linkErrorOnlyOnSerial : Obligations.LinkErrorOnlyOnSerial := by
  intro i s t e hruns hres
  have hfits : (BlockError.linkError e).Fits s.cfg := by
    rcases hruns with ⟨c, -, hx⟩ | hx | hx
    · exact (replies_exec c hx).fits hres
    · exact (replies_runWaitReady hx).fits hres
    · exact (replies_runInit hx).fits hres
  cases hb : s.cfg.bus with
  | ser => rfl
  | par4 | par8 =>
    obtain ⟨n, hn⟩ := hfits (by rw [hb]; rfl)
    cases hn

/-- Settles O52: an operation leaves the flag, but `init` clears it when it is done, and every `Err`
sets it as it is handed out (`Replies`). -/
theorem errMarksChipUnknown : Obligations.ErrMarksChipUnknown := by
  refine fun i s t hi => ⟨?_, fun hx => ?_⟩
  · rintro (⟨c, rfl, hx⟩ | hx)
    · obtain ⟨r, hres, hflag, -⟩ := replies_exec c hx
      exact ⟨r, hres, hflag hi⟩
    · obtain ⟨r, hres, hflag, -⟩ := replies_runWaitReady hx
      exact ⟨r, hres, hflag hi⟩
  · obtain ⟨r, hres, hflag, -⟩ := replies_runInit hx
    exact ⟨r, hres, by simpa using hflag hi⟩

end Sys2Proof.Machine
end

section
/-! Obligations of 47_facade.md: what a step does with no instruction at the front, the reads, and
`wait_ready`. -/

namespace Sys2Proof.Machine

/-- Settles O7: `fetch` tells the cases apart, and an operation that is no row of the opcode table runs
(`step_of_facade`). -/
theorem stepRunsOtherRequests : Obligations.StepRunsOtherRequests := by
  refine fun s rest => ⟨fun hp => ?idle, fun w e hp hd => ?reserved, fun i hp => ?waitReady,
    fun i hp => ?init, fun hp => ?num, fun x hp => ?get⟩
  case idle =>
    have hfetch : fetch s = .idle := by simp [fetch, hp]
    simp only [step, hfetch]
  case reserved =>
    have hfetch : fetch s = .reserved e := by simp [fetch, hp, hd]
    simp only [step, hfetch]
  all_goals exact step_of_facade hp nofun

/-- Settles O25: a read operation is refused off a parallel bus (`readOperation_ser`). -/
theorem readsAbsentOnSerial : Obligations.ReadsAbsentOnSerial := fun _ _ hser =>
  ⟨readOperation_ser hser _, readOperation_ser hser _⟩

/-- Settles O29: the wait is done while the clock runs (`waitUntil_runs`), and moves nothing but the
clock and the trace. -/
theorem waitReadyWaitsOnly : Obligations.WaitReadyWaitsOnly := by
  rintro i s ⟨hi, -, hruns⟩
  exact ⟨_, runWaitReady_of_done hi (waitUntil_runs hruns _), le_max_right _ _, rfl, rfl, rfl, rfl,
    rfl, rfl, rfl, rfl, rfl⟩

/-- Settles O23: of the completion of a read (`completes_readRam`) the values given decide both bytes
on 8 wires and the four nibbles on 4, the high byte first. -/
theorem readRamCompletes : Obligations.ReadRamCompletes := by
  refine fun i s h => ⟨fun hbus x y rest hs => ?par8, fun hbus a b c d rest hs => ?par4⟩
  all_goals
    obtain ⟨vs, w, ⟨high, low, hi, lo, rfl, rfl, hhi, hlo⟩, hc⟩ :=
      completes_readRam h (by simp [hbus, Bus.isParallel])
    rw [hs] at hhi hlo
  case par8 =>
    obtain ⟨rfl, hx⟩ := hhi.par8 hbus
    obtain ⟨rfl, hy⟩ := hlo.par8 hbus
    obtain rfl := hx x _ rfl
    obtain rfl := hy y _ rfl
    exact hc
  case par4 =>
    obtain ⟨rfl, rfl⟩ := hhi.par4 hbus _ _ _ rfl
    obtain ⟨rfl, rfl⟩ := hlo.par4 hbus _ _ _ rfl
    simp only [onWires_nibble hbus, joinNibbles_eq_append] at hc
    rwa [BitVec.append_assoc]

end Sys2Proof.Machine
end

section
/-!
SUPPORT. An access that fails within an operation (`Breaks`): the events before it stand whole, of it
those before the failing primitive, and the host is told so (60_exceptions.md R283, R285).
-/

namespace Sys2Proof.Machine

/-- From `s` to `t` the trace grew by `evs` and the latches followed them; no other line and no result
changed, and the clock still runs. What is booked and the mode may have changed. -/
structure Follows (i : Nat) (s : State) (evs : List Event) (t : State) : Prop where
  runs : t.env.stopAt = none
  results : t.results = s.results
  trace : ∃ new, t.trace = s.trace ++ new ∧ new.map (fun x => untimed x.ev) = evs
  rest : KeepsRest i s t
  latches : latches i t = evs.foldl (Latches.after i) (latches i s)

/-- From `s`, after the events `whole`, the `n`-th fallible primitive of the access `acc` failed with
the value `e`: this is the error `x` and the state `t` in which the operation ended. -/
structure Breaks (i n e : Nat) (whole acc : List Event) (s : State) (x : BlockError) (t : State) :
    Prop where
  error : ∃ ev, (fallible acc)[n]? = some ev ∧ x = errorAt e ev
  results : t.results = s.results
  trace : ∃ a u part, t.trace = s.trace ++ a ++ ⟨u, .wait (t.line i).deadline⟩ :: part
    ∧ a.map (fun x => untimed x.ev) = whole
    ∧ .wait 0 :: part.map (fun x => untimed x.ev) = beforeFailure n acc
  latches : latches i t = (whole ++ beforeFailure n acc).foldl (Latches.after i) (latches i s)
  rest : KeepsRest i s t

variable {i n e : Nat} {s t u : State} {evs e1 e2 whole acc : List Event} {x : BlockError}

theorem Moves.follows (h : Moves i s evs t) : Follows i s evs t :=
  ⟨h.runs, h.results, h.trace, h.rest, h.latches⟩

theorem Moves.schedule_eq (h : Moves i s evs t) :
    (t.line i).schedule = (s.line i).schedule := Prod.ext h.deadline h.mode

theorem Follows.trans (h : Follows i s e1 t) (k : Follows i t e2 u) : Follows i s (e1 ++ e2) u := by
  obtain ⟨n1, h1, rfl⟩ := h.trace
  obtain ⟨n2, h2, rfl⟩ := k.trace
  exact ⟨k.runs, k.results.trans h.results,
    ⟨n1 ++ n2, by rw [h2, h1, List.append_assoc], List.map_append⟩, h.rest.trans k.rest,
    by rw [k.latches, h.latches, List.foldl_append]⟩

theorem Follows.shape (h : Follows i s evs t) : t.shape = s.shape ++ evs := by
  obtain ⟨new, hnew, rfl⟩ := h.trace
  simp [State.shape, State.events, hnew]

theorem Follows.running (h : Follows i s evs t) (hi : i < s.numLines) : Running i t := by
  obtain ⟨-, hlines, -⟩ := h.rest
  exact ⟨hlines ▸ hi, h.runs⟩

/-- An update of a line that leaves its pins leaves the latches. -/
theorem latches_modLine (j : Nat) {f : LineRegs → LineRegs} (he : ∀ l, (f l).e = l.e)
    (hcs : ∀ l, (f l).cs = l.cs) (i : Nat) (s : State) :
    latches i (modLine j f s) = latches i s := by
  simp [latches, part_modLine (g := LineRegs.e) j he, part_modLine (g := LineRegs.cs) j hcs]

/-- An update of the line that leaves its pins follows no event. -/
theorem follows_modLine (hruns : s.env.stopAt = none) {f : LineRegs → LineRegs}
    (he : ∀ l, (f l).e = l.e) (hcs : ∀ l, (f l).cs = l.cs) : Follows i s [] (modLine i f s) :=
  ⟨hruns, rfl, ⟨[], (List.append_nil _).symm, rfl⟩, keepsRest_modLine i f s,
    latches_modLine i he hcs i s⟩

theorem follows_setMode (hruns : s.env.stopAt = none) (m : Mode) :
    Follows i s [] (setMode i m s) :=
  follows_modLine hruns (f := ({ · with mode := m })) (fun _ => rfl) fun _ => rfl

theorem follows_setDeadline (hruns : s.env.stopAt = none) (d : Instant) :
    Follows i s [] (setDeadline i d s) :=
  follows_modLine hruns (f := ({ · with deadline := d })) (fun _ => rfl) fun _ => rfl

/-- What happened before the failing access stands before it. -/
theorem Follows.breaks (h : Follows i s e1 u) (k : Breaks i n e whole acc u x t) :
    Breaks i n e (e1 ++ whole) acc s x t := by
  obtain ⟨new, hnew, rfl⟩ := h.trace
  obtain ⟨a, w, part, htrace, rfl, hpart⟩ := k.trace
  exact ⟨k.error, k.results.trans h.results,
    ⟨new ++ a, w, part, by simp [htrace, hnew], List.map_append, hpart⟩,
    by simp only [k.latches, h.latches, List.foldl_append], h.rest.trans k.rest⟩

/-- The host is told the error, and the flag of the line is set. -/
theorem Breaks.failedIn (h : Breaks i n e whole acc s x t) :
    FailedIn i n e whole acc s (answer (.err x) (setChipUnknown i true t)) := by
  obtain ⟨ev, hev, rfl⟩ := h.error
  have hdeadline : ((setChipUnknown i true t).line i).deadline = (t.line i).deadline :=
    part_modLine (g := LineRegs.deadline) i (f := ({ · with chipUnknown := true }))
      (fun _ => rfl) i t
  have hlatches : Machine.latches i (setChipUnknown i true t) = Machine.latches i t :=
    latches_modLine i (f := ({ · with chipUnknown := true })) (fun _ => rfl) (fun _ => rfl) i t
  refine ⟨⟨ev, hev, congrArg (· ++ _) h.results⟩, ?_, hlatches.trans h.latches,
    chipUnknown_setChipUnknown i t, h.rest.trans (keepsRest_modLine i _ t)⟩
  obtain ⟨a, w, part, htrace, hwhole, hpart⟩ := h.trace
  refine ⟨a, w, part, ?_, hwhole, hpart⟩
  show t.trace = s.trace ++ a ++ ⟨w, .wait ((setChipUnknown i true t).line i).deadline⟩ :: part
  rw [hdeadline]
  exact htrace

/-- A transfer that fails (44_timing_scheduler.md R193). -/
theorem breaks_emit {rest : List (Option Nat)} (h : Running i s) (c : Command)
    (hn : n < (fallible (emitEvents s.cfg.bus i (accessOf s.cfg c))).length)
    (hv : s.env.verdicts = List.replicate n none ++ some e :: rest) :
    ∃ x t, emit i c s = .raised x t
      ∧ Breaks i n e [] (emitEvents s.cfg.bus i (accessOf s.cfg c)) s x t
      ∧ (t.line i).schedule = (s.line i).schedule := by
  obtain ⟨ev, t, w, part, hr, hev, hmoves, htrace, hpart⟩ := emit_fails h.lt h.runs c hn hv
  exact ⟨_, t, hr, ⟨⟨ev, hev, rfl⟩, hmoves.results,
    ⟨[], w, part, by simpa using htrace, rfl, hpart⟩, hmoves.latches, hmoves.rest⟩,
    hmoves.schedule_eq⟩

/-! ### What stands of an access -/

/-- An event that did not fail stands. -/
theorem beforeFailure_succ {ev : Event} (h : ev.canFail = true) (n : Nat) (es : List Event) :
    beforeFailure (n + 1) (ev :: es) = ev :: beforeFailure n es := by
  simp [beforeFailure, h]

/-- Where no event is a wait the events before the `n`-th failure are the first `n`. -/
theorem beforeFailure_eq_take (h : ∀ ev ∈ evs, ev.canFail = true) :
    ∀ n, beforeFailure n evs = evs.take n := by
  induction evs with
  | nil => intro n; simp [beforeFailure]
  | cons ev evs ih =>
    obtain ⟨hev, hevs⟩ := List.forall_mem_cons.mp h
    intro n
    cases n with
    | zero => simp [beforeFailure, hev]
    | succ n => rw [beforeFailure_succ hev, ih hevs, List.take_succ_cons]

/-- The latches do not follow the link. -/
theorem latches_after_links (h : ∀ ev ∈ evs, ∃ b, ev = .link b) (l : Latches) :
    evs.foldl (Latches.after i) l = l := by
  induction evs with
  | nil => rfl
  | cons ev evs ih =>
    obtain ⟨⟨b, rfl⟩, hevs⟩ := List.forall_mem_cons.mp h
    exact ih hevs

/-- A serial frame is a rise of the chip-select, bytes, and a fall. -/
theorem writeEvents_ser (i : Nat) (a : Bool × List Byte) :
    ∃ links : List Event, (∀ ev ∈ links, ∃ b, ev = .link b)
      ∧ writeEvents .ser i a.1 a.2 = .cs i true :: (links ++ [.cs i false]) := by
  refine ⟨.link (if a.1 then 0xFA#8 else 0xF8#8) :: a.2.flatMap nibbleEvents, ?_, rfl⟩
  simp only [List.forall_mem_cons, List.mem_flatMap, nibbleEvents]
  refine ⟨⟨_, rfl⟩, ?_⟩
  rintro ev ⟨v, -, hev⟩
  rcases List.mem_pair.mp hev with rfl | rfl <;> exact ⟨_, rfl⟩

/-- A serial transfer that fails after the rise of the chip-select leaves it high (60_exceptions.md
R285). -/
theorem cs_beforeFailure_ser {a : Bool × List Byte} (h0 : 0 < n)
    (hn : n < (fallible (emitEvents .ser i a)).length) (l : Latches) :
    ((beforeFailure n (emitEvents .ser i a)).foldl (Latches.after i) l).cs = true := by
  obtain ⟨links, hlinks, hevents⟩ := writeEvents_ser i a
  have hfail : ∀ ev ∈ links ++ [.cs i false], ev.canFail = true := by
    intro ev hev
    rcases List.mem_append.mp hev with hev | hev
    · obtain ⟨b, rfl⟩ := hlinks ev hev; rfl
    · rw [List.mem_singleton.mp hev]; rfl
  obtain ⟨m, rfl⟩ := Nat.exists_eq_succ_of_ne_zero h0.ne'
  have hm : m ≤ links.length := by
    rw [fallible_emitEvents, hevents, fallible, List.filter_cons_of_pos rfl,
      List.filter_eq_self.mpr hfail] at hn
    simpa using hn
  have hbefore : beforeFailure (m + 1) (emitEvents .ser i a)
      = .wait 0 :: .cs i true :: links.take m := by
    rw [emitEvents, hevents, beforeFailure_wait rfl, beforeFailure_succ rfl,
      beforeFailure_eq_take hfail, List.take_append_of_le_length hm]
  rw [hbefore, List.foldl_cons, List.foldl_cons,
    latches_after_links fun ev hev => hlinks ev (List.mem_of_mem_take hev)]
  simp [Latches.after]

end Sys2Proof.Machine
end

section
/-!
SUPPORT. A list of transfers on a line (`runLegs`), the form of every command without polls and of
`init`: where no primitive of the first ones fails they go out whole, and where one of the next fails it
ends there (`runLegs_passes`, `runLegs_breaks`).
-/

namespace Sys2Proof.Machine

/-- A transfer, the settle wait of `init` before it if it has one, and the mode assigned after it if
there is one (47_facade.md R268, 45_mode_machine.md R219). -/
structure Leg where
  settles : Bool
  cmd : Command
  assigns : Option Mode

/-- The events before the transfer. -/
def Leg.waits (l : Leg) : List Event := if l.settles then [.wait 0] else []

/-- The events of the transfer itself. -/
def Leg.access (p : Params) (i : Nat) (l : Leg) : List Event := emitEvents p.bus i (accessOf p l.cmd)

def Leg.events (p : Params) (i : Nat) (l : Leg) : List Event := l.waits ++ l.access p i

def Leg.pause (l : Leg) (s : State) : OpResult Unit :=
  if l.settles then delay s.cfg.tInitSettle s else .done () s

def Leg.finish (i : Nat) (l : Leg) (s : State) : State :=
  match l.assigns with
  | some m => setMode i m s
  | none => s

def Leg.run (i : Nat) (l : Leg) (s : State) : OpResult Unit :=
  (l.pause s).andThen fun _ s => (emit i l.cmd s).andThen fun _ s => .done () (l.finish i s)

def runLegs (i : Nat) : List Leg → State → OpResult Unit
  | [], s => .done () s
  | l :: ls, s => (l.run i s).andThen fun _ s => runLegs i ls s

/-- The mode after transfers that went out. -/
def modeAfterLegs (m : Mode) (ls : List Leg) : Mode := ls.foldl (fun m l => l.assigns.getD m) m

variable {i n e : Nat} {s t : State} {l : Leg} {rest : List (Option Nat)}

theorem runLegs_append (ls ls' : List Leg) : ∀ s,
    runLegs i (ls ++ ls') s = (runLegs i ls s).andThen fun _ s => runLegs i ls' s := by
  induction ls with
  | nil => exact fun _ => rfl
  | cons l ls ih =>
    intro s
    simp only [List.cons_append, runLegs, OpResult.andThen_assoc, ih]

/-- A settle wait cannot fail. -/
theorem fallible_waits (l : Leg) : fallible l.waits = [] := by
  unfold Leg.waits
  split <;> rfl

theorem pause_runs (hruns : s.env.stopAt = none) (l : Leg) :
    ∃ t, l.pause s = .done () t ∧ Moves i s l.waits t ∧ t.env.verdicts = s.env.verdicts := by
  have htracks : Tracks i s l.waits (l.pause s) := by
    unfold Leg.waits Leg.pause
    split
    · exact tracks_delay hruns _
    · exact tracks_done hruns ()
  obtain ⟨_, t, hdone, hmoves, hverdicts⟩ := tracks_passes (rest := s.env.verdicts) htracks
    (by simp [fallible_waits])
  exact ⟨t, hdone, hmoves, hverdicts⟩

theorem follows_finish (hruns : s.env.stopAt = none) (l : Leg) :
    Follows i s [] (l.finish i s) := by
  unfold Leg.finish
  split
  · exact follows_setMode hruns _
  · exact (Moves.refl hruns).follows

/-- What the end of a transfer leaves of the environment and of the schedule of the line. -/
theorem finish_env (l : Leg) (s : State) : (l.finish i s).env = s.env := by
  unfold Leg.finish
  split <;> rfl

theorem deadline_finish (l : Leg) (s : State) :
    ((l.finish i s).line i).deadline = (s.line i).deadline := by
  unfold Leg.finish
  split
  next m _ =>
    exact part_modLine (g := LineRegs.deadline) i (f := ({ · with mode := m })) (fun _ => rfl) i s
  next => rfl

theorem mode_finish (hi : i < s.numLines) (l : Leg) :
    ((l.finish i s).line i).mode = l.assigns.getD (s.line i).mode := by
  unfold Leg.finish
  cases hl : l.assigns with
  | some m => exact congrArg LineRegs.mode (line_modLine_same s i ({ · with mode := m }) hi)
  | none => rfl

/-- From `s` to `t` transfers went out whole: their events stand, each booked 72 µs or more after the
deadline before it, and the mode is the one last assigned. -/
structure WentOut (i : Nat) (ls : List Leg) (s t : State) : Prop where
  follows : Follows i s (ls.flatMap (Leg.events s.cfg i)) t
  mode : (t.line i).mode = modeAfterLegs (s.line i).mode ls
  deadline : (s.line i).deadline + 72 * ls.length ≤ (t.line i).deadline

theorem wentOut_nil (hruns : s.env.stopAt = none) : WentOut i [] s s :=
  ⟨(Moves.refl hruns).follows, rfl, le_rfl⟩

theorem WentOut.cons {ls : List Leg} {u : State} (h : WentOut i [l] s t) (k : WentOut i ls t u) :
    WentOut i (l :: ls) s u := by
  have hfollows := h.follows.trans k.follows
  have hdeadline := h.deadline
  have kdeadline := k.deadline
  rw [h.follows.rest.1] at hfollows
  refine ⟨by simpa using hfollows, by rw [k.mode, h.mode]; rfl, ?_⟩
  simp only [List.length_cons, List.length_nil, Instant] at *
  omega

/-- A transfer whose primitives all succeed books 72 µs or more after the deadline it waited for. -/
theorem emit_books (h : Running i s) (c : Command) (hv : s.env.verdicts
      = List.replicate (fallible (emitEvents s.cfg.bus i (accessOf s.cfg c))).length none ++ rest) :
    ∃ t, emit i c s = .done () t ∧ Follows i s (emitEvents s.cfg.bus i (accessOf s.cfg c)) t
      ∧ (t.line i).mode = (s.line i).mode ∧ (s.line i).deadline + 72 ≤ (t.line i).deadline
      ∧ t.env.verdicts = rest := by
  obtain ⟨t, hemit, hmoves, hverdicts, hclock⟩ := emit_passes h.lt h.runs c hv
  have hfollows := hmoves.follows.trans
    (follows_setDeadline hmoves.runs (t.env.clock + executionTime c))
  have hline := line_modLine_same t i
    ({ · with deadline := t.env.clock + executionTime c }) (hmoves.lt h.lt)
  rw [List.append_nil] at hfollows
  refine ⟨_, hemit, hfollows, ?_, ?_, hverdicts⟩
  · rw [setDeadline, hline]
    exact hmoves.mode
  · rw [setDeadline, hline]
    exact Nat.add_le_add hclock (le_executionTime c)

/-- One transfer whose primitives all succeed. -/
theorem run_passes (h : Running i s) (hv : s.env.verdicts
      = List.replicate (fallible (l.events s.cfg i)).length none ++ rest) :
    ∃ t, l.run i s = .done () t ∧ WentOut i [l] s t ∧ t.env.verdicts = rest := by
  obtain ⟨u, hpause, mpause, vpause⟩ := pause_runs (i := i) h.runs l
  have hcfg : u.cfg = s.cfg := mpause.rest.1
  rw [Leg.events, fallible_append, fallible_waits, List.nil_append, ← hcfg] at hv
  obtain ⟨t, hemit, femit, hmode, hdeadline, vemit⟩ :=
    emit_books (mpause.follows.running h.lt) l.cmd (vpause.trans hv)
  have hfollows := (mpause.follows.trans femit).trans (follows_finish femit.runs l)
  have hi := (femit.running (mpause.lt h.lt)).lt
  refine ⟨l.finish i t, by simp only [Leg.run, hpause, hemit, OpResult.andThen], ⟨?_, ?_, ?_⟩,
    by rw [finish_env]; exact vemit⟩
  · rw [hcfg, List.append_nil] at hfollows
    rwa [List.flatMap_singleton]
  · rw [mode_finish hi, hmode, mpause.mode]
    rfl
  · rwa [deadline_finish, ← mpause.deadline]

/-- One transfer that fails: its settle wait stands before it. -/
theorem run_breaks (h : Running i s) (hn : n < (fallible (l.access s.cfg i)).length)
    (hv : s.env.verdicts = List.replicate n none ++ some e :: rest) :
    ∃ x t, l.run i s = .raised x t ∧ Breaks i n e l.waits (l.access s.cfg i) s x t
      ∧ (t.line i).schedule = (s.line i).schedule := by
  obtain ⟨u, hpause, mpause, vpause⟩ := pause_runs (i := i) h.runs l
  have hcfg : u.cfg = s.cfg := mpause.rest.1
  rw [Leg.access, ← hcfg] at hn
  obtain ⟨x, t, hemit, hbreaks, hschedule⟩ :=
    breaks_emit (mpause.follows.running h.lt) l.cmd hn (vpause.trans hv)
  have hwhole := mpause.follows.breaks hbreaks
  rw [hcfg, List.append_nil] at hwhole
  exact ⟨x, t, by simp only [Leg.run, hpause, hemit, OpResult.andThen], hwhole,
    hschedule.trans mpause.schedule_eq⟩

/-- Transfers whose primitives all succeed go out whole. -/
theorem runLegs_passes (ls : List Leg) : ∀ {s}, Running i s → s.env.verdicts
      = List.replicate (fallible (ls.flatMap (Leg.events s.cfg i))).length none ++ rest →
    ∃ t, runLegs i ls s = .done () t ∧ WentOut i ls s t ∧ t.env.verdicts = rest := by
  induction ls with
  | nil => exact fun h hv => ⟨_, rfl, wentOut_nil h.runs, by simpa [fallible] using hv⟩
  | cons l ls ih =>
    intro s h hv
    rw [List.flatMap_cons, fallible_append, List.length_append, ← List.replicate_append_replicate,
      List.append_assoc] at hv
    obtain ⟨t, hrun, hout, vrun⟩ := run_passes h hv
    rw [← hout.follows.rest.1] at vrun
    obtain ⟨u, hruns, houts, vruns⟩ := ih (hout.follows.running h.lt) vrun
    exact ⟨u, by simp only [runLegs, hrun, hruns, OpResult.andThen], hout.cons houts, vruns⟩

/-- Of transfers on a line the first ones `ls` went out whole and the next, `l`, fails. -/
theorem runLegs_breaks (ls : List Leg) (l : Leg) (ls' : List Leg) (h : Running i s)
    (hn : n < (fallible (l.access s.cfg i)).length)
    (hv : s.env.verdicts = List.replicate
      ((fallible (ls.flatMap (Leg.events s.cfg i))).length + n) none ++ some e :: rest) :
    ∃ u x t, runLegs i ls s = .done () u ∧ WentOut i ls s u
      ∧ runLegs i (ls ++ l :: ls') s = .raised x t
      ∧ Breaks i n e (ls.flatMap (Leg.events s.cfg i) ++ l.waits) (l.access s.cfg i) s x t
      ∧ (t.line i).schedule = (u.line i).schedule := by
  rw [← List.replicate_append_replicate, List.append_assoc] at hv
  obtain ⟨u, hpass, hout, vpass⟩ := runLegs_passes ls h hv
  have hcfg : u.cfg = s.cfg := hout.follows.rest.1
  rw [← hcfg] at hn
  obtain ⟨x, t, hbreak, hbreaks, hschedule⟩ := run_breaks (hout.follows.running h.lt) hn vpass
  have hwhole := hout.follows.breaks hbreaks
  rw [hcfg] at hwhole
  refine ⟨u, x, t, hpass, hout, ?_, hwhole, hschedule⟩
  rw [runLegs_append, hpass]
  simp only [OpResult.andThen, runLegs, hbreak]

end Sys2Proof.Machine
end

section
/-!
SUPPORT. A command without polls is the list of transfers of the spec's table, its selects and itself
(`execCommand_eq_runLegs`), so it ends where one of their primitives fails (45_mode_machine.md R213,
R219).
-/

namespace Sys2Proof.Machine

/-- The transfer of a command, with the mode it selects. -/
def Leg.ofCommand (c : Command) : Leg := ⟨false, c, selectedMode c⟩

/-- The transfers of commands. -/
def legs (cs : List Command) : List Leg := cs.map .ofCommand

/-- `poll_busy` is absent: `BUSY_POLL` is off, or the bus is serial (45_mode_machine.md R222). -/
def PollsOff (p : Params) : Prop := (p.busyPoll && p.bus.isParallel) = false

variable {i : Nat} {s : State} {c : Command} {cs cs' : List Command}

theorem modeAfterLegs_legs (m : Mode) (cs : List Command) :
    modeAfterLegs m (legs cs) = modeAlong m cs := by
  rw [modeAfterLegs, legs, List.foldl_map]
  rfl

/-- What the transfers show is what their commands do. -/
theorem flatMap_events_legs (p : Params) (cs : List Command) :
    (legs cs).flatMap (Leg.events p i) = cs.flatMap (transferEvents p i) := by
  rw [legs, List.flatMap_map]
  rfl

/-! ### One transfer -/

theorem runLegs_ofCommand (c : Command) (s : State) : runLegs i (legs [c]) s
    = (emit i c s).andThen fun _ s => .done () ((Leg.ofCommand c).finish i s) := by
  have hrun : runLegs i (legs [c]) s
      = ((emit i c s).andThen fun _ s => .done () ((Leg.ofCommand c).finish i s)).andThen
        fun _ s => .done () s := rfl
  rw [hrun, OpResult.andThen_assoc]
  rfl

theorem emit_eq_runLegs (hc : selectedMode c = none) : emit i c s = runLegs i (legs [c]) s := by
  rw [runLegs_ofCommand]
  simp only [Leg.finish, Leg.ofCommand, hc]
  cases emit i c s <;> rfl

theorem emitSelect_eq_runLegs {m : Mode} (hc : selectedMode c = some m) :
    emitSelect i c m s = runLegs i (legs [c]) s := by
  rw [runLegs_ofCommand]
  simp only [Leg.finish, Leg.ofCommand, hc, emitSelect]

theorem toBasic_eq_runLegs (hoff : PollsOff s.cfg) :
    toBasic i s = runLegs i (legs [.selectBasic]) s := by
  rw [← emitSelect_eq_runLegs rfl, toBasic, pollBusy, hoff]
  rfl

/-! ### Sequences -/

/-- Done, the transfers of commands have issued them. -/
theorem issues_runLegs (cs : List Command) : ∀ {s}, i < s.numLines →
    (runLegs i (legs cs) s).IfDone (Issues i cs (modeAlong (s.line i).mode cs) s) := by
  induction cs with
  | nil => exact fun _ => issues_nil i _
  | cons c cs ih =>
    intro s hi
    have hone : (runLegs i (legs [c]) s).IfDone (Issues i [c] (modeAlong (s.line i).mode [c]) s) := by
      cases hc : selectedMode c with
      | some m =>
        rw [← emitSelect_eq_runLegs hc]
        simpa [modeAlong, hc] using issues_emitSelect hi c m
      | none =>
        rw [← emit_eq_runLegs hc]
        simpa [modeAlong, hc] using issues_emit (i := i) (s := s) c
    have happend : legs (c :: cs) = legs [c] ++ legs cs := rfl
    rw [happend, runLegs_append]
    refine issues_andThen hone fun _ t ht hm => ?_
    have hrest := ih (ht.lt_numLines hi)
    rwa [hm] at hrest

/-- Sequencing: what follows starts in the mode in force after the commands before it. -/
theorem runLegs_andThen {r : OpResult Unit} {f : Unit → State → OpResult Unit}
    (hi : i < s.numLines) (hr : r = runLegs i (legs cs) s)
    (hf : ∀ a t, OnlyAdds i s t → (t.line i).mode = modeAlong (s.line i).mode cs →
      f a t = runLegs i (legs cs') t) :
    r.andThen f = runLegs i (legs (cs ++ cs')) s := by
  have happend : legs (cs ++ cs') = legs cs ++ legs cs' := List.map_append
  rw [hr, happend, runLegs_append]
  exact OpResult.andThen_congr (issues_runLegs cs hi) fun a t ht => hf a t ht.adds ht.mode

/-- A transfer from one mode, and nothing from the others. -/
theorem whenMode_eq_runLegs {m m' : Mode} {op : State → OpResult Unit} (hm : (s.line i).mode = m)
    (hop : m = m' → op s = runLegs i (legs cs) s) :
    whenMode i m' op s = runLegs i (legs (if m = m' then cs else [])) s := by
  unfold whenMode
  rw [hm]
  split_ifs with heq
  · exact hop heq
  · rfl

/-- A command that does not poll is the transfers of the selects of the spec's table and of itself. -/
theorem execCommand_eq_runLegs (hi : i < s.numLines) (c : Command)
    (hoff : PollsOff s.cfg
      ∨ .selectBasic ∉ insertedSelects s.cfg.writePolicy c (s.line i).mode ++ [c]) :
    execCommand i c s
      = runLegs i (legs (insertedSelects s.cfg.writePolicy c (s.line i).mode ++ [c])) s := by
  rw [insertedSelects_eq_prelude] at hoff ⊢
  have hclass := covers_classOf s.cfg.writePolicy c
  have viaExtended : ∀ m', whenMode i m' (toExtended i) s
      = runLegs i (legs (if (s.line i).mode = m' then [.selectExtended] else [])) s :=
    fun m' => whenMode_eq_runLegs rfl fun _ => emitSelect_eq_runLegs rfl
  unfold execCommand execClass
  generalize classOf s.cfg.writePolicy c = k at hclass hoff ⊢
  cases k with
  | basicOp =>
    have hbasic : (s.line i).mode ≠ .basic → PollsOff s.cfg := fun hm =>
      hoff.resolve_right fun hnone => hnone <| by
        cases hms : (s.line i).mode with
        | basic => exact absurd hms hm
        | extended | graphic => simp [CmdClass.prelude]
    have path := runLegs_andThen hi (viaExtended .graphic) fun _ t ht hm =>
      runLegs_andThen (ht.lt_numLines hi)
        (whenMode_eq_runLegs hm (m' := .extended) fun hext => toBasic_eq_runLegs <|
          ht.cfg_eq ▸ hbasic fun hms => by rw [hms] at hext; cases hext)
        fun _ _ _ _ => emit_eq_runLegs hclass.2
    cases hm : (s.line i).mode <;> simpa [hm, CmdClass.prelude, modeAlong, selectedMode] using path
  | extOp =>
    have path := runLegs_andThen hi (viaExtended .basic) fun _ _ _ _ => emit_eq_runLegs hclass.2
    cases hm : (s.line i).mode <;> simpa [hm, CmdClass.prelude] using path
  | selB =>
    obtain rfl : c = .selectBasic := hclass
    have path := runLegs_andThen hi (viaExtended .graphic) fun _ t ht _ =>
      toBasic_eq_runLegs (ht.cfg_eq ▸ hoff.resolve_right fun hnone => hnone (by simp))
    cases hm : (s.line i).mode <;> simpa [hm, CmdClass.prelude] using path
  | selE =>
    obtain rfl : c = .selectExtended := hclass
    exact emitSelect_eq_runLegs rfl
  | selG =>
    obtain rfl : c = .selectGraphic := hclass
    have path := runLegs_andThen hi (viaExtended .basic) fun _ t _ _ =>
      emitSelect_eq_runLegs (i := i) (s := t) (c := .selectGraphic) (m := .graphic) rfl
    cases hm : (s.line i).mode <;> simpa [hm, CmdClass.prelude, toGraphic] using path
  | neutral =>
    obtain ⟨d, rfl⟩ : ∃ d, c = .write d := hclass
    exact emit_eq_runLegs rfl

/-- Of a list the `k`-th element stands between the first `k` and the others. -/
theorem eq_take_append_of_getElem? {α : Type} {l : List α} {k : Nat} {a : α} (h : l[k]? = some a) :
    l = l.take k ++ a :: l.drop (k + 1) := by
  obtain ⟨hk, rfl⟩ := List.getElem?_eq_some_iff.mp h
  rw [← List.drop_eq_getElem_cons hk, List.take_append_drop]

/-- Of the transfers of commands the first `k` go out whole and the next fails. -/
theorem runLegs_breaks_at {k n e : Nat} {rest : List (Option Nat)} (h : Running i s)
    (hk : cs[k]? = some c) (hn : n < (fallible (transferEvents s.cfg i c)).length)
    (hv : s.env.verdicts = List.replicate
      ((fallible ((cs.take k).flatMap (transferEvents s.cfg i))).length + n) none
        ++ some e :: rest) :
    ∃ u x t, runLegs i (legs (cs.take k)) s = .done () u ∧ WentOut i (legs (cs.take k)) s u
      ∧ runLegs i (legs cs) s = .raised x t
      ∧ Breaks i n e ((cs.take k).flatMap (transferEvents s.cfg i)) (transferEvents s.cfg i c) s x t
      ∧ (t.line i).schedule = (u.line i).schedule := by
  have hevents := flatMap_events_legs (i := i) s.cfg (cs.take k)
  have hlegs : legs cs = legs (cs.take k) ++ .ofCommand c :: legs (cs.drop (k + 1)) := by
    conv_lhs => rw [eq_take_append_of_getElem? hk]
    exact List.map_append
  have hbreaks := runLegs_breaks (legs (cs.take k)) (.ofCommand c) (legs (cs.drop (k + 1))) h hn
    (hevents ▸ hv)
  have hwaits : (Leg.ofCommand c).waits = [] := rfl
  rw [hevents, hwaits, List.append_nil, ← hlegs] at hbreaks
  exact hbreaks

end Sys2Proof.Machine
end

section
/-!
SUPPORT. How an operation that fails is answered: by `FailedIn`, with the deadline and the mode it had
when it failed (60_exceptions.md R283).
-/

namespace Sys2Proof.Machine

variable {i n e : Nat} {s t : State} {x : BlockError} {whole acc : List Event}

theorem onLine_of_raised {op : State → OpResult HostResult} (hi : i < s.numLines)
    (h : op s = .raised x t) :
    onLine i op s = .next (answer (.err x) (setChipUnknown i true t)) := by
  rw [onLine, if_pos hi, h]
  rfl

/-- The flag of a line is apart from its schedule. -/
theorem schedule_setChipUnknown (i : Nat) (b : Bool) (s : State) :
    ((setChipUnknown i b s).line i).schedule = (s.line i).schedule :=
  part_modLine i (f := ({ · with chipUnknown := b })) (fun _ => rfl) i s

/-- A command that fails is answered with the error. -/
theorem exec_of_raised {c : Command} (hi : i < s.numLines) (h : execCommand i c s = .raised x t) :
    exec (instrOf i c) s = .next (answer (.err x) (setChipUnknown i true t)) := by
  rw [exec_instrOf]
  exact onLine_of_raised hi (by rw [h]; rfl)

/-- Without a link byte among the events every error is a pin error. -/
theorem errorAt_eq_pinError {ev : Event} (hev : ev ∈ fallible acc)
    (hlink : ∀ b, .link b ∉ acc) : errorAt e ev = .pinError e := by
  have hmem := List.mem_of_mem_filter hev
  cases ev with
  | link b => exact absurd hmem (hlink b)
  | _ => rfl

/-- The latches follow the events. -/
theorem FailedIn.latches_eq (h : FailedIn i n e whole acc s t) :
    latches i t = (whole ++ beforeFailure n acc).foldl (Latches.after i) (latches i s) := by
  obtain ⟨-, -, hlatches, -⟩ := h
  exact hlatches

/-- An access of a parallel bus that fails at the start of an operation fails in place. -/
theorem FailedIn.inPlace (h : FailedIn i n e [] acc s t) (hlink : ∀ b, .link b ∉ acc)
    (hdeadline : (t.line i).deadline = (s.line i).deadline)
    (hmode : (t.line i).mode = (s.line i).mode) :
    FailedInPlace i (.pinError e) (beforeFailure n acc) t.dir s t := by
  obtain ⟨⟨ev, hev, hres⟩, ⟨a, u, part, htrace, hwhole, hpart⟩, -, hflag, hrest⟩ := h
  rw [errorAt_eq_pinError (List.mem_of_getElem? hev) hlink] at hres
  obtain rfl := List.map_eq_nil_iff.mp hwhole
  refine ⟨hres, ?_, hdeadline, hmode, hflag, rfl, hrest⟩
  rw [← hpart, State.shape, State.events, htrace]
  simp [State.shape, State.events, untimed]

/-- The events of `Home` on an 8-wire bus (40_commands_basic.md R103). -/
def homeEvents (i : Nat) : List Event :=
  [.wait 0, .rs false, .rw false, .data 0x02#8, .en i true, .wait 0, .en i false]

theorem pinsAre_latches (i : Nat) (t : State) :
    PinsAre i (latches i t).rs (latches i t).rw (latches i t).data (latches i t).e (latches i t).cs t :=
  ⟨rfl, rfl, rfl, rfl, rfl⟩

end Sys2Proof.Machine
end

section
/-! Obligations of 60_exceptions.md: where an operation fails. -/

namespace Sys2Proof.Machine

/-- Settles O48: a command without polls is a list of transfers (`execCommand_eq_runLegs`), of which the
first ones go out whole and the next fails (`runLegs_breaks`). -/
theorem commandFailsInPlace : Obligations.CommandFailsInPlace := by
  intro i k n e c c' s rest hi hruns cs evs hoff hk hn hv
  obtain ⟨u, x, t, hpass, hout, hraised, hbreaks, hschedule⟩ :=
    runLegs_breaks_at ⟨hi, hruns⟩ hk hn hv
  rw [← execCommand_eq_runLegs hi c hoff] at hraised
  obtain ⟨hdeadline, hmode⟩ := Prod.mk.inj ((schedule_setChipUnknown i true t).trans hschedule)
  refine ⟨_, exec_of_raised hi hraised, hbreaks.failedIn, ?mode, ?deadline, ?chipSelect⟩
  case mode =>
    have hout_mode := hout.mode
    rw [modeAfterLegs_legs] at hout_mode
    exact hmode.trans hout_mode
  case deadline =>
    rintro rfl
    cases hpass
    exact hdeadline
  case chipSelect =>
    intro hser h0
    have hacc : transferEvents s.cfg i c' = emitEvents .ser i (accessOf s.cfg c') := by
      rw [transferEvents, hser]
    have hcs := congrArg Latches.cs hbreaks.failedIn.latches_eq
    rw [List.foldl_append, hacc, cs_beforeFailure_ser h0 (hacc ▸ hn)] at hcs
    exact hcs

/-- Settles O47: with nothing before it `Home` is one transfer, which fails in place
(`commandFailsInPlace`, `FailedIn.inPlace`), and the latches are as the events before the failure left
them. -/
theorem homeFailsInPlace : Obligations.HomeFailsInPlace := by
  intro i e s rest hi hruns hb hm driven
  have hselects : insertedSelects s.cfg.writePolicy .home (s.line i).mode = [] := by rw [hm]; rfl
  have hevents : transferEvents s.cfg i .home = homeEvents i := by rw [transferEvents, hb]; rfl
  have fails : ∀ n evs l, n < 5 → s.env.verdicts = List.replicate n none ++ some e :: rest →
      beforeFailure n (homeEvents i) = evs → evs.foldl (Latches.after i) (latches i s) = l →
      Completes (.home i) s fun t => FailedInPlace i (.pinError e) evs l.dir s t
        ∧ PinsAre i l.rs l.rw l.data l.e l.cs t := by
    rintro n _ _ hn hv rfl rfl
    have hlen : (fallible (transferEvents s.cfg i .home)).length = 5 := by rw [hevents]; rfl
    obtain ⟨t, hx, hfailed, hmode, hdeadline, -⟩ := commandFailsInPlace i 0 n e .home .home s rest
      hi hruns (by rw [hselects]; exact .inr nofun) (by rw [hselects]; rfl) (hlen ▸ hn)
      (by simpa [fallible] using hv)
    replace hfailed : FailedIn i n e [] (transferEvents s.cfg i .home) s t := hfailed
    rw [hevents] at hfailed
    have hlatches := hfailed.latches_eq
    rw [List.nil_append] at hlatches
    rw [← hlatches]
    exact ⟨t, hx, hfailed.inPlace (by simp [homeEvents]) (hdeadline rfl) hmode, pinsAre_latches i t⟩
  have drive : ([.wait 0, .rs false, .rw false, .data 0x02#8] : List Event).foldl
      (Latches.after i) (latches i s)
        = ⟨false, false, driven, s.dir, (s.line i).e, (s.line i).cs⟩ := by
    cases hd : s.dir <;> simp [Latches.after, latches, driven, hd]
  have pulse : ([.wait 0, .rs false, .rw false, .data 0x02#8, .en i true, .wait 0] :
      List Event).foldl (Latches.after i) (latches i s)
        = ⟨false, false, driven, s.dir, true, (s.line i).cs⟩ := by
    cases hd : s.dir <;> simp [Latches.after, latches, driven, hd]
  refine ⟨fun hv => ?_, fun hv => ?_, fun hv => ?_, fun hv => ?_, fun hv => ?_⟩
  · exact fails 0 _ ⟨s.rs, s.rw, s.data, s.dir, _, _⟩ (by decide) hv rfl rfl
  · exact fails 1 _ ⟨false, s.rw, s.data, s.dir, _, _⟩ (by decide) hv rfl rfl
  · exact fails 2 _ ⟨false, false, s.data, s.dir, _, _⟩ (by decide) hv rfl rfl
  · exact fails 3 _ ⟨false, false, driven, s.dir, _, _⟩ (by decide) hv rfl drive
  · exact fails 4 _ ⟨false, false, driven, s.dir, true, _⟩ (by decide) hv rfl pulse

end Sys2Proof.Machine
end

section
/-!
SUPPORT. `init` is the power-up wait with its two assignments and then five transfers
(`initBody_eq_runLegs`), so it ends where one of their primitives fails (47_facade.md R268, R269).
-/

namespace Sys2Proof.Machine

/-- The power-up wait of `init`, and the assignments of mode and deadline after it. -/
def powerUp (i : Nat) (s : State) : OpResult Unit :=
  (now s).andThen fun t0 s =>
  (waitUntil (t0 + tPowerUp) s).andThen fun _ s =>
  (now (setMode i .basic s)).andThen fun t s =>
  .done () (setDeadline i t s)

/-- The five transfers of `init`; the mode is Basic from the start, and none assigns it. -/
def initLegs : List Leg :=
  [⟨false, .selectBasic, none⟩, ⟨true, .selectBasic, none⟩,
    ⟨true, .displayOnOff true false false, none⟩, ⟨false, .clear, none⟩,
    ⟨false, .entryMode true false, none⟩]

variable {i n e k : Nat} {s t : State}

theorem done_andThen {α β : Type} (a : α) (s : State) (f : α → State → OpResult β) :
    (OpResult.done a s).andThen f = f a s := rfl

theorem andThen_done_unit (r : OpResult Unit) : (r.andThen fun _ s => .done () s) = r := by
  cases r <;> rfl

theorem initBody_eq_runLegs (s : State) :
    initBody i s = (powerUp i s).andThen fun _ s => runLegs i initLegs s := by
  simp only [initBody, powerUp, initLegs, runLegs, Leg.run, Leg.pause, Leg.finish,
    OpResult.andThen_assoc, done_andThen, andThen_done_unit, Bool.false_eq_true, if_true, if_false]

/-! ### The power-up wait -/

theorem follows_waited (hruns : s.env.stopAt = none) (d : Instant) :
    Follows i s [.wait 0] (waited d s) ∧ (waited d s).env.verdicts = s.env.verdicts := by
  obtain ⟨_, t, hdone, hmoves, hverdicts⟩ := tracks_passes (rest := s.env.verdicts)
    (tracks_waitUntil (i := i) hruns d) (by simp [fallible, Event.canFail])
  rw [waitUntil_runs hruns] at hdone
  cases hdone
  exact ⟨hmoves.follows, hverdicts⟩

theorem follows_elapse (hruns : s.env.stopAt = none) : Follows i s [] (elapse s) :=
  ⟨by simpa using hruns, rfl, ⟨[], (List.append_nil _).symm, rfl⟩,
    ⟨rfl, rfl, rfl, fun _ _ => rfl, clock_le_envAfter s.env⟩, rfl⟩

/-- The state after the power-up wait. -/
def poweredUp (i : Nat) (s : State) : State :=
  let u := elapse (setMode i .basic (waited ((elapse s).env.clock + tPowerUp) (elapse s)))
  setDeadline i u.env.clock u

theorem powerUp_runs (hruns : s.env.stopAt = none) : powerUp i s = .done () (poweredUp i s) := by
  rw [powerUp, now_andThen, waitUntil_runs (by simpa using hruns)]
  rfl

/-- The line after the power-up wait: Basic, and free from now on (R268). -/
theorem line_poweredUp (hi : i < s.numLines) : (poweredUp i s).line i
    = { s.line i with mode := .basic, deadline := (poweredUp i s).env.clock } := by
  have hmode : (setMode i .basic (waited ((elapse s).env.clock + tPowerUp) (elapse s))).line i = _ :=
    line_modLine_same _ i ({ · with mode := .basic }) hi
  have hi' : i < (elapse (setMode i .basic
      (waited ((elapse s).env.clock + tPowerUp) (elapse s)))).numLines := by
    show i < (setMode i .basic _).numLines
    rw [numLines_setMode]
    exact hi
  have hline := line_modLine_same _ i ({ · with deadline := (poweredUp i s).env.clock }) hi'
  exact hline.trans (congrArg (fun l : LineRegs => { l with deadline := (poweredUp i s).env.clock })
    hmode)

theorem clock_poweredUp (s : State) : s.env.clock + 80000 ≤ (poweredUp i s).env.clock := by
  have hwait : (elapse s).env.clock + tPowerUp
      ≤ (waited ((elapse s).env.clock + tPowerUp) (elapse s)).env.clock := le_max_right _ _
  have hstart : s.env.clock ≤ (elapse s).env.clock := clock_le_envAfter s.env
  exact (Nat.add_le_add_right hstart _).trans (hwait.trans (clock_le_envAfter _))

theorem follows_poweredUp (hruns : s.env.stopAt = none) :
    Follows i s [.wait 0] (poweredUp i s) ∧ (poweredUp i s).env.verdicts = s.env.verdicts := by
  have fstart := follows_elapse (i := i) hruns
  obtain ⟨fwait, vwait⟩ := follows_waited (i := i) fstart.runs ((elapse s).env.clock + tPowerUp)
  have fmode := follows_setMode (i := i) fwait.runs .basic
  have fnow := follows_elapse (i := i) fmode.runs
  refine ⟨(((fstart.trans fwait).trans fmode).trans fnow).trans (follows_setDeadline fnow.runs _), ?_⟩
  simpa [poweredUp] using vwait

/-! ### Failure -/

theorem accessOf_selectBasic (p : Params) : accessOf p .selectBasic = (false, [0x20#8]) := rfl

theorem accessOf_clear (p : Params) : accessOf p .clear = (false, [0x01#8]) := rfl

/-- The steps of the spec's table and the transfers of the model: the first wait is that of power-up,
the others are settle waits (47_facade.md R268). -/
theorem initLegs_of_initSteps {waits : List Event} {a : Bool × List Byte} (p : Params)
    (hk : initSteps[k]? = some (waits, a)) : ∃ l, initLegs[k]? = some l ∧ accessOf p l.cmd = a
      ∧ (initLegs.take k).length = k ∧ fallible waits = []
      ∧ initEvents p.bus i (initSteps.take k) ++ waits
        = [.wait 0] ++ ((initLegs.take k).flatMap (Leg.events p i) ++ l.waits) := by
  match k with
  | 0 | 1 | 2 | 3 | 4 =>
    cases hk
    exact ⟨_, rfl, rfl, rfl, rfl, by simp [initEvents, initSteps, initLegs, Leg.events, Leg.waits,
      Leg.access, accessOf_selectBasic, accessOf_displayOnOff, accessOf_clear]⟩
  | k + 5 => cases hk

/-- Transfers that assign no mode leave it. -/
theorem modeAfterLegs_of_none {ls : List Leg} (h : ∀ l ∈ ls, l.assigns = none) (m : Mode) :
    modeAfterLegs m ls = m := by
  induction ls with
  | nil => rfl
  | cons l ls ih =>
    obtain ⟨hl, hls⟩ := List.forall_mem_cons.mp h
    rw [modeAfterLegs, List.foldl_cons, hl]
    exact ih hls

/-- No transfer of `init` assigns a mode. -/
theorem assigns_initLegs : ∀ l ∈ initLegs, l.assigns = none := by simp [initLegs]

theorem runInit_of_raised {x : BlockError} (hi : i < s.numLines) (h : initBody i s = .raised x t) :
    runInit i s = .next (answer (.err x) (setChipUnknown i true t)) :=
  onLine_of_raised hi (by rw [h]; rfl)

/-- Where a primitive of the `k`-th transfer of `init` fails (R269). -/
theorem initBody_breaks {waits : List Event} {a : Bool × List Byte} {rest : List (Option Nat)}
    (h : Running i s) (hk : initSteps[k]? = some (waits, a))
    (hn : n < (fallible (emitEvents s.cfg.bus i a)).length)
    (hv : s.env.verdicts = List.replicate
      ((fallible (initEvents s.cfg.bus i (initSteps.take k))).length + n) none ++ some e :: rest) :
    ∃ x t, initBody i s = .raised x t
      ∧ Breaks i n e (initEvents s.cfg.bus i (initSteps.take k) ++ waits)
        (emitEvents s.cfg.bus i a) s x t
      ∧ (t.line i).mode = .basic ∧ s.env.clock + 80000 + 72 * k ≤ (t.line i).deadline := by
  obtain ⟨l, hl, rfl, hlen, hwaits, hevents⟩ := initLegs_of_initSteps (i := i) s.cfg hk
  obtain ⟨fup, vup⟩ := follows_poweredUp (i := i) h.runs
  have hcfg : (poweredUp i s).cfg = s.cfg := fup.rest.1
  have hfallible := congrArg fallible hevents
  simp only [fallible_append, hwaits, fallible_waits, List.append_nil] at hfallible
  rw [hfallible, ← hcfg] at hv
  rw [← hcfg] at hn
  obtain ⟨u, x, t, -, hout, hraised, hbreaks, hschedule⟩ :=
    runLegs_breaks (initLegs.take k) l (initLegs.drop (k + 1)) (fup.running h.lt) hn (vup.trans hv)
  rw [← eq_take_append_of_getElem? hl] at hraised
  have hwhole := fup.breaks hbreaks
  rw [hcfg, ← hevents] at hwhole
  obtain ⟨hdeadline, hmode⟩ := Prod.mk.inj hschedule
  have hline := line_poweredUp (s := s) h.lt
  refine ⟨x, t, by rw [initBody_eq_runLegs, powerUp_runs h.runs, done_andThen, hraised], hwhole, ?_, ?_⟩
  · have hbasic := hmode.trans hout.mode
    rwa [modeAfterLegs_of_none (fun l hl => assigns_initLegs l (List.mem_of_mem_take hl)),
      hline] at hbasic
  · have hbooked := hout.deadline
    have hclock := clock_poweredUp (i := i) s
    rw [hlen, hline, ← hdeadline] at hbooked
    exact (Nat.add_le_add_right hclock _).trans hbooked

end Sys2Proof.Machine
end

section
/-!
SUPPORT. `init` where nothing fails: its five transfers go out, each no earlier than what was booked
before it and than its settle wait (47_facade.md R268).
-/

namespace Sys2Proof.Machine

variable {i : Nat} {s t : State} {d : Duration} {l : Leg}

/-- The pins after the transfer of a leg. -/
def PinView.afterLeg (p : Params) (v : PinView) (l : Leg) : PinView :=
  v.afterWrite p.bus (accessOf p l.cmd).1 (accessOf p l.cmd).2

/-- What transfers book in the end, where `d` is booked at the start. -/
def bookedLast (d : Duration) (ls : List Leg) : Duration :=
  ls.foldl (fun _ l => executionTime l.cmd) d

/-- The time that transfers take at least, where `d` is booked at the start and a settle wait is for
`settle`: each waits for what was booked before it. -/
def spacing (settle : Duration) : Duration → List Leg → Duration
  | _, [] => 0
  | d, l :: ls => max d (if l.settles then settle else 0) + spacing settle (executionTime l.cmd) ls

theorem clock_delay {a : Unit} (h : Cooperative s) (hd : delay d s = .done a t) :
    s.env.clock + d ≤ t.env.clock := by
  rw [delay, now_andThen, waitUntil_coop h.elapse] at hd
  cases hd
  exact (Nat.add_le_add_right (clock_le_envAfter s.env) d).trans (le_max_right _ _)

theorem pause_coop (h : Ready i s) (l : Leg) : ∃ t, l.pause s = .done () t
    ∧ Good i s l.waits t ∧ pinView i t = pinView i s
    ∧ (t.line i).deadline = (s.line i).deadline
    ∧ s.env.clock + (if l.settles then s.cfg.tInitSettle else 0) ≤ t.env.clock := by
  obtain ⟨t, hpause, hmoves, -⟩ := pause_runs (i := i) h.2.2 l
  refine ⟨t, hpause, ?_⟩
  unfold Leg.pause at hpause
  unfold Leg.waits
  split_ifs at hpause ⊢ with hsettles
  · obtain ⟨u, hdelay, hgood, hview⟩ := goes_delay (i := i) h.2 s.cfg.tInitSettle
    obtain rfl : u = t := by rw [hdelay] at hpause; cases hpause; rfl
    exact ⟨hgood, hview, hmoves.deadline, clock_delay h.2 hpause⟩
  · cases hpause
    exact ⟨.refl h.2, rfl, rfl, le_rfl⟩

/-- A leg that assigns no mode. -/
theorem run_coop (h : Ready i s) (hnone : l.assigns = none)
    (hd : (s.line i).deadline = s.env.clock + d) : ∃ t, l.run i s = .done () t
    ∧ Good i s (l.events s.cfg i) t ∧ pinView i t = (pinView i s).afterLeg s.cfg l
    ∧ (t.line i).deadline = t.env.clock + executionTime l.cmd
    ∧ s.env.clock + max d (if l.settles then s.cfg.tInitSettle else 0) ≤ t.env.clock := by
  obtain ⟨u, hpause, gpause, vpause, dpause, cpause⟩ := pause_coop h l
  obtain ⟨t, hemit, gemit, vemit, demit, cemit⟩ := emit_coop (gpause.ready h) l.cmd
  have hcfg : u.cfg = s.cfg := gpause.rest.1
  rw [hcfg] at gemit vemit
  obtain ⟨cclock, cdeadline⟩ := max_le_iff.mp cemit
  refine ⟨t, ?_, gpause.trans gemit, by rw [vemit, vpause]; rfl, demit, ?_⟩
  · simp only [Leg.run, hpause, hemit, done_andThen, Leg.finish, hnone]
  · rw [dpause, hd] at cdeadline
    rw [← Nat.add_max_add_left]
    exact max_le cdeadline (cpause.trans cclock)

theorem runLegs_coop (ls : List Leg) : ∀ {s d}, Ready i s → (∀ l ∈ ls, l.assigns = none) →
    (s.line i).deadline = s.env.clock + d → ∃ t, runLegs i ls s = .done () t
      ∧ Good i s (ls.flatMap (Leg.events s.cfg i)) t
      ∧ pinView i t = ls.foldl (PinView.afterLeg s.cfg) (pinView i s)
      ∧ (t.line i).deadline = t.env.clock + bookedLast d ls
      ∧ s.env.clock + spacing s.cfg.tInitSettle d ls ≤ t.env.clock := by
  induction ls with
  | nil => exact fun h _ hd => ⟨_, rfl, .refl h.2, rfl, hd, le_rfl⟩
  | cons l ls ih =>
    intro s d h hnone hd
    obtain ⟨hl, hls⟩ := List.forall_mem_cons.mp hnone
    obtain ⟨t, hrun, grun, vrun, drun, crun⟩ := run_coop h hl hd
    obtain ⟨u, hruns, gruns, vruns, druns, cruns⟩ := ih (grun.ready h) hls drun
    have hcfg : t.cfg = s.cfg := grun.rest.1
    rw [hcfg] at gruns vruns cruns
    refine ⟨u, by simp only [runLegs, hrun, hruns, done_andThen], ?_, ?_, druns, ?_⟩
    · rw [List.flatMap_cons]
      exact grun.trans gruns
    · rw [vruns, vrun, List.foldl_cons]
    · rw [spacing, ← Nat.add_assoc]
      exact (Nat.add_le_add_right crun _).trans cruns

theorem good_poweredUp (h : Ready i s) : Good i s [.wait 0] (poweredUp i s) := by
  obtain ⟨hfollows, hverdicts⟩ := follows_poweredUp (i := i) h.2.2
  exact ⟨⟨hverdicts ▸ h.2.1, hfollows.runs⟩, hfollows.results, hfollows.shape, hfollows.rest⟩

theorem pinView_poweredUp (hi : i < s.numLines) :
    pinView i (poweredUp i s) = { pinView i s with mode := .basic } := by
  simp only [pinView, line_poweredUp hi]
  simp [poweredUp, waited]

/-- The pins after several transfers are those after the last. -/
theorem afterLeg_afterLeg (p : Params) (v : PinView) (l l' : Leg) :
    (v.afterLeg p l).afterLeg p l' = v.afterLeg p l' := by
  obtain ⟨rs, rw, data, wires, dir, mode, e, cs, unknown, samples⟩ := v
  unfold PinView.afterLeg
  cases p.bus <;> cases dir <;> rfl

/-- What a write access leaves on the pins, whatever the mode and the flag (10_state.md R23 to R26). -/
theorem pinsAfterWrite_of_pinView {a : Bool × List Byte} {m : Mode} {x : Bool}
    (hv : pinView i t = { (pinView i s).afterWrite s.cfg.bus a.1 a.2 with
      mode := m, chipUnknown := x }) : PinsAfterWrite i a s t := by
  have hrs : t.rs = _ := congrArg PinView.rs hv
  have hrw : t.rw = _ := congrArg PinView.rw hv
  have hdata : t.data = _ := congrArg PinView.data hv
  have hwires : t.wires = _ := congrArg PinView.wires hv
  have hdir : t.dir = _ := congrArg PinView.dir hv
  have he : (t.line i).e = _ := congrArg PinView.e hv
  have hcs : (t.line i).cs = _ := congrArg PinView.cs hv
  unfold PinsAfterWrite DataAfterDrive
  cases hb : s.cfg.bus <;> cases hd : s.dir <;>
    simp [hb, hd, hrs, hrw, hdata, hwires, hdir, he, hcs, PinView.afterWrite, PinView.drive,
      pinView, lastDriven]

theorem pinView_setChipUnknown (hi : i < s.numLines) (x : Bool) :
    pinView i (setChipUnknown i x s) = { pinView i s with chipUnknown := x } := by
  have hline := line_modLine_same s i ({ · with chipUnknown := x }) hi
  simp only [pinView, setChipUnknown, hline]
  rfl

/-- A write access and a mode are independent. -/
theorem afterWrite_mode (v : PinView) (b : Bus) (x : Bool) (bytes : List Byte) (m : Mode) :
    ({ v with mode := m } : PinView).afterWrite b x bytes
      = { v.afterWrite b x bytes with mode := m } := by
  obtain ⟨rs, rw, data, wires, dir, mode, e, cs, unknown, samples⟩ := v
  cases b <;> cases dir <;> rfl

/-- Twice the settle wait or 72 µs, then 72 µs and the time of `Clear` (R268). -/
theorem spacing_initLegs (settle : Duration) :
    spacing settle 0 initLegs = 2 * max 72 settle + 72 + 1600 := by
  have hsum : spacing settle 0 initLegs
      = max 0 0 + (max 72 settle + (max 72 settle + (max 72 0 + (max 1600 0 + 0)))) := rfl
  rw [hsum, two_mul]
  simp [Nat.add_assoc]

theorem initBody_coop (h : Ready i s) : ∃ t, initBody i s = .done () t
    ∧ Good i s ([.wait 0] ++ initLegs.flatMap (Leg.events s.cfg i)) t
    ∧ pinView i t = { (pinView i s).afterWrite s.cfg.bus false [0x06#8] with mode := .basic }
    ∧ (t.line i).deadline = t.env.clock + 72
    ∧ s.env.clock + 80000 + 2 * max 72 s.cfg.tInitSettle + 72 + 1600 ≤ t.env.clock := by
  have gup := good_poweredUp h
  have hcfg : (poweredUp i s).cfg = s.cfg := gup.rest.1
  have hdeadline : ((poweredUp i s).line i).deadline = (poweredUp i s).env.clock + 0 := by
    rw [line_poweredUp h.1, Nat.add_zero]
  obtain ⟨t, hlegs, glegs, vlegs, dlegs, clegs⟩ :=
    runLegs_coop initLegs (gup.ready h) assigns_initLegs hdeadline
  rw [hcfg] at glegs vlegs clegs
  refine ⟨t, by rw [initBody_eq_runLegs, powerUp_runs h.2.2, done_andThen, hlegs],
    gup.trans glegs, ?_, dlegs, ?_⟩
  · rw [vlegs, pinView_poweredUp h.1]
    simp only [initLegs, List.foldl_cons, List.foldl_nil, afterLeg_afterLeg]
    exact afterWrite_mode _ _ _ _ _
  · have hclock := clock_poweredUp (i := i) s
    rw [spacing_initLegs] at clegs
    have htime := (Nat.add_le_add_right hclock _).trans clegs
    rwa [← Nat.add_assoc, ← Nat.add_assoc] at htime

/-- `init` where nothing fails is answered with `Ok`, and the chip is known. -/
theorem runInit_coop (h : Ready i s) : ∃ t, runInit i s = .next t
    ∧ t.results = s.results ++ [.okUnit]
    ∧ t.shape = s.shape ++ ([.wait 0] ++ initLegs.flatMap (Leg.events s.cfg i))
    ∧ pinView i t = { (pinView i s).afterWrite s.cfg.bus false [0x06#8] with
        mode := .basic, chipUnknown := false }
    ∧ (t.line i).deadline = t.env.clock + 72
    ∧ s.env.clock + 80000 + 2 * max 72 s.cfg.tInitSettle + 72 + 1600 ≤ t.env.clock
    ∧ KeepsRest i s t := by
  obtain ⟨t, hdone, hgood, hview, hdeadline, hclock⟩ := initBody_coop h
  have hi := (hgood.ready h).1
  have hknown : pinView i (setChipUnknown i false t) = _ := pinView_setChipUnknown hi false
  rw [hview] at hknown
  refine ⟨answer .okUnit (setChipUnknown i false t), ?_, by simp [hgood.results], hgood.shape, hknown,
    ?_, hclock, hgood.rest.trans (keepsRest_modLine i _ t)⟩
  · rw [runInit, onLine, if_pos h.1, hdone]
    rfl
  · obtain ⟨hsame, -⟩ := Prod.mk.inj (schedule_setChipUnknown i false t)
    exact hsame.trans hdeadline

end Sys2Proof.Machine
end

section
/-! Obligations of 47_facade.md about `init`. -/

namespace Sys2Proof.Machine

/-- Settles O31: `init` is the power-up wait and five transfers (`initBody_eq_runLegs`), which go out
where nothing fails (`runInit_coop`) and of which the first `k` go out where the next fails
(`initBody_breaks`). -/
theorem initCompletes : Obligations.InitCompletes := by
  refine ⟨fun i s h => ?completes, ?fails⟩
  case completes =>
    obtain ⟨t, hx, hresults, hshape, hview, hdeadline, hclock, hrest⟩ := runInit_coop h
    obtain ⟨-, hdir, -⟩ := afterWrite_rest (pinView i s) s.cfg.bus false [0x06#8]
    refine ⟨t, hx, hresults, ?_, congrArg PinView.mode hview, hdeadline,
      congrArg PinView.chipUnknown hview, hclock, (congrArg PinView.dir hview).trans hdir,
      pinsAfterWrite_of_pinView hview, hrest⟩
    rw [hshape]
    simp [initLegs, Leg.events, Leg.waits, Leg.access, accessOf_selectBasic, accessOf_displayOnOff,
      accessOf_clear, accessOf_entryMode]
  case fails =>
    intro i k n e s waits a rest hi hruns hk whole hn hv
    obtain ⟨x, t, hraised, hbreaks, hmode, hdeadline⟩ := initBody_breaks ⟨hi, hruns⟩ hk hn hv
    obtain ⟨hsame, hsame'⟩ := Prod.mk.inj (schedule_setChipUnknown i true t)
    exact ⟨_, runInit_of_raised hi hraised, hbreaks.failedIn, hsame'.trans hmode,
      hsame ▸ hdeadline⟩

end Sys2Proof.Machine
end

section
/-!
SUPPORT. A read while the clock runs, whatever the environment makes of it: the values it samples, or
would have sampled, are those given where they are given, and it is done or ends at the first primitive
that fails (`Sampling`, `breaks_schedRead`).
-/

namespace Sys2Proof.Machine

/-- `k` values to be sampled where the environment gives `given`: where it gives one it is that one. -/
structure Foretold (p : Params) (given : List Byte) (k : Nat) (vs : List Byte) : Prop where
  length_eq : vs.length = k
  given_eq : ∀ j v, j < k → given[j]? = some v → vs[j]? = some (onWires p v)

/-- The operation samples `k` values `vs`, and does so in the events `E vs`, up to the first primitive
that fails; done, it has used up the values. -/
def Sampling {α : Type} (i k : Nat) (E : List Byte → List Event) (s : State) (r : OpResult α) : Prop :=
  ∃ vs, Foretold s.cfg s.env.samples k vs ∧ Tracks i s (E vs) r
    ∧ r.IfDone fun t => t.env.samples = s.env.samples.drop k

variable {α β : Type} {i k n e : Nat} {s t : State} {r : OpResult α} {p : Params}
  {given vs ws : List Byte} {evs : List Event} {E E1 E2 : List Byte → List Event}

/-! ### The values -/

theorem foretold_some (p : Params) (given : List Byte) (k : Nat) : ∃ vs, Foretold p given k vs := by
  refine ⟨(List.range k).map fun j => onWires p (given.getD j 0#8), by simp, fun j v hj hv => ?_⟩
  simp [hj, hv, List.getD_eq_getElem?_getD]

theorem foretold_nil (p : Params) (given : List Byte) : Foretold p given 0 [] :=
  ⟨rfl, fun _ _ hj => absurd hj (Nat.not_lt_zero _)⟩

theorem foretold_singleton {v : Byte} (h : ∀ x, given[0]? = some x → v = onWires p x) :
    Foretold p given 1 [v] := by
  refine ⟨rfl, fun j x hj hx => ?_⟩
  obtain rfl : j = 0 := Nat.lt_one_iff.mp hj
  rw [h x hx]
  rfl

theorem Foretold.append {k' : Nat} (h : Foretold p given k vs)
    (h' : Foretold p (given.drop k) k' ws) : Foretold p given (k + k') (vs ++ ws) := by
  refine ⟨by rw [List.length_append, h.length_eq, h'.length_eq], fun j v hj hv => ?_⟩
  rcases Nat.lt_or_ge j k with hlt | hge
  · rw [List.getElem?_append_left (h.length_eq ▸ hlt)]
    exact h.given_eq j v hlt hv
  · rw [List.getElem?_append_right (h.length_eq ▸ hge), h.length_eq]
    refine h'.given_eq (j - k) v (by omega) ?_
    rw [List.getElem?_drop, Nat.add_sub_cancel' hge, hv]

/-! ### What leaves the values to come -/

theorem samples_attempt (mk : Nat → BlockError) (onFail : State → State)
    {effect : State → OpResult α} {l : List Byte}
    (h : (effect (dropVerdict (elapse s))).IfDone fun t => t.env.samples = l) :
    (attempt mk onFail effect s).IfDone fun t => t.env.samples = l := by
  unfold attempt
  split
  · trivial
  · exact h

theorem samples_pinWrite (p : Pin) (v : Bool) :
    (pinWrite p v s).IfDone fun t => t.env.samples = s.env.samples := by
  refine samples_attempt _ _ ?_
  show (record _ (setPin p v _)).env.samples = _
  simp

theorem samples_setDir (d : Dir) :
    (setDir d s).IfDone fun t => t.env.samples = s.env.samples := by
  refine samples_attempt _ _ ?_
  show (record _ (applyDir d _)).env.samples = _
  simp

theorem samples_dataSample :
    (dataSample s).IfDone fun t => t.env.samples = s.env.samples.drop 1 := by
  refine samples_attempt _ _ ?_
  show (record _ (dropSample _)).env.samples = _
  simp

theorem samples_waited (d : Instant) (s : State) :
    (waited d s).env.samples = s.env.samples := by simp [waited]

theorem samples_delay (d : Duration) :
    (delay d s).IfDone fun t => t.env.samples = s.env.samples := by
  rw [delay, now_andThen]
  rcases waitUntil_cases ((elapse s).env.clock + d) (elapse s) with h | h
  · rw [h]
    exact (samples_waited _ _).trans (by simp)
  · rw [h]
    trivial

/-! ### Sequencing -/

theorem sampling_none (h : Tracks i s evs r)
    (hsamples : r.IfDone fun t => t.env.samples = s.env.samples) :
    Sampling i 0 (fun _ => evs) s r :=
  ⟨[], foretold_nil _ _, h, by rwa [List.drop_zero]⟩

theorem sampling_done (h : Running i s) (a : α) : Sampling i 0 (fun _ => []) s (.done a s) :=
  sampling_none (tracks_done h.runs a) rfl

/-- A sequence samples the values of its parts; those of a part not reached are any that fit. -/
theorem sampling_andThen {k' : Nat} {f : α → State → OpResult β} (h : Running i s)
    (hr : Sampling i k E1 s r)
    (hf : ∀ a t, t.cfg = s.cfg → Running i t → Sampling i k' E2 t (f a t))
    (hE : ∀ vs ws, vs.length = k → ws.length = k' → E (vs ++ ws) = E1 vs ++ E2 ws) :
    Sampling i (k + k') E s (r.andThen f) := by
  obtain ⟨vs, hvs, htracks, hsamples⟩ := hr
  cases r with
  | done a t =>
    have hmoves : Moves i s (E1 vs) t := by
      rcases htracks with ⟨_, _, hr, hmoves, -⟩ | ⟨_, _, _, _, hr, -⟩ <;> cases hr
      exact hmoves
    have hcfg : t.cfg = s.cfg := hmoves.rest.1
    obtain ⟨ws, hws, htracks', hsamples'⟩ := hf a t hcfg ⟨hmoves.lt h.lt, hmoves.runs⟩
    have hdrop : t.env.samples = s.env.samples.drop k := hsamples
    rw [hcfg, hdrop] at hws
    rw [hdrop, List.drop_drop] at hsamples'
    refine ⟨vs ++ ws, hvs.append hws, ?_, hsamples'⟩
    rw [hE vs ws hvs.length_eq hws.length_eq]
    exact tracks_andThen htracks fun b u hr _ => by cases hr; exact htracks'
  | raised x t =>
    obtain ⟨ws, hws⟩ := foretold_some s.cfg (s.env.samples.drop k) k'
    refine ⟨vs ++ ws, hvs.append hws, ?_, trivial⟩
    rw [hE vs ws hvs.length_eq hws.length_eq]
    exact tracks_raised htracks _
  | hung fault => rcases htracks with ⟨_, _, hr, -⟩ | ⟨_, _, _, _, hr, -⟩ <;> cases hr

/-- What samples nothing and comes first. -/
theorem sampling_first {f : α → State → OpResult β} (h : Running i s)
    (hr : Sampling i 0 (fun _ => evs) s r)
    (hf : ∀ a t, t.cfg = s.cfg → Running i t → Sampling i k E t (f a t)) :
    Sampling i k (fun vs => evs ++ E vs) s (r.andThen f) := by
  have hall := sampling_andThen (E := fun vs => evs ++ E vs) h hr hf fun vs ws hvs _ => by
    rw [List.length_eq_zero_iff.mp hvs, List.nil_append]
  rwa [Nat.zero_add] at hall

/-- What samples nothing and comes last; the value is that of what came before. -/
theorem sampling_last {f : State → OpResult β} (h : Running i s) (hr : Sampling i k E s r)
    (hf : ∀ t, Running i t → Sampling i 0 (fun _ => evs) t (f t)) :
    Sampling i k (fun vs => E vs ++ evs) s
      (r.andThen fun a t => (f t).andThen fun _ u => .done a u) :=
  sampling_andThen (k' := 0) (E2 := fun _ => evs ++ []) h hr
    (fun a t _ h => sampling_first h (hf t h) fun _ _ _ h => sampling_done h a)
    fun vs ws _ hws => by rw [List.length_eq_zero_iff.mp hws, List.append_nil, List.append_nil]

theorem Sampling.congr (h : Sampling i k E1 s r) (hE : ∀ vs, vs.length = k → E1 vs = E2 vs) :
    Sampling i k E2 s r := by
  obtain ⟨vs, hvs, htracks, hsamples⟩ := h
  exact ⟨vs, hvs, hE vs hvs.length_eq ▸ htracks, hsamples⟩

/-! ### A read -/

theorem sampling_pinWrite (h : Running i s) (q : Pin) (v : Bool) (hq : q.ofLine i) :
    Sampling i 0 (fun _ => [pinEvent q v]) s (pinWrite q v s) :=
  sampling_none (tracks_pinWrite h.lt h.runs q v hq) (samples_pinWrite q v)

theorem sampling_setDir (h : Running i s) (d : Dir) :
    Sampling i 0 (fun _ => [.dir d]) s (setDir d s) :=
  sampling_none (tracks_setDir h.runs d) (samples_setDir d)

theorem sampling_delay (h : Running i s) (d : Duration) :
    Sampling i 0 (fun _ => [.wait 0]) s (delay d s) :=
  sampling_none (tracks_delay h.runs d) (samples_delay d)

theorem sampling_dataSample (h : Running i s) :
    Sampling i 1 (fun vs => vs.map .sample) s (dataSample s) := by
  refine ⟨[nextSample (dropVerdict (elapse s))], foretold_singleton fun x hx => ?_,
    tracks_dataSample h.runs, samples_dataSample⟩
  cases hsamples : s.env.samples with
  | nil => rw [hsamples] at hx; cases hx
  | cons v vs =>
    rw [hsamples] at hx
    cases hx
    simp [nextSample, hsamples]

theorem sampling_selectReg (h : Running i s) (reg : Reg) :
    Sampling i 0 (fun _ => [.rs (regRs reg), .rw (regRw reg)]) s (selectReg reg s) :=
  sampling_first h (sampling_pinWrite h .rs _ trivial) fun _ _ _ h =>
    sampling_pinWrite h .rw _ trivial

/-- One pulse around a sample (42_parallel_transport.md R144). -/
theorem sampling_latched (h : Running i s) :
    Sampling i 1 (fun vs => vs.flatMap (readPulse i)) s (latched i dataSample s) := by
  refine Sampling.congr (sampling_first h (sampling_pinWrite h (.e i) true rfl) fun _ t _ h =>
    sampling_first h (sampling_delay h _) fun _ t _ h =>
    sampling_last h (sampling_dataSample h) fun t h => sampling_pinWrite h (.e i) false rfl) ?_
  intro vs hvs
  obtain ⟨v, rfl⟩ := List.length_eq_one_iff.mp hvs
  rfl

theorem sampling_cycles {k' : Nat} {f : α → State → OpResult β} (h : Running i s)
    (hr : Sampling i k (fun vs => vs.flatMap (readPulse i)) s r)
    (hf : ∀ a t, t.cfg = s.cfg → Running i t →
      Sampling i k' (fun vs => vs.flatMap (readPulse i)) t (f a t)) :
    Sampling i (k + k') (fun vs => vs.flatMap (readPulse i)) s (r.andThen f) :=
  sampling_andThen h hr hf fun _ _ _ _ => List.flatMap_append

theorem sampling_value (h : Running i s) (a : α) :
    Sampling i 0 (fun vs => vs.flatMap (readPulse i)) s (.done a s) :=
  (sampling_done h a).congr fun vs hvs => by rw [List.length_eq_zero_iff.mp hvs]; rfl

theorem sampling_readU8 (h : Running i s) (hpar : s.cfg.bus.isParallel = true) :
    Sampling i (8 / s.cfg.width) (fun vs => vs.flatMap (readPulse i)) s (readU8 i s) := by
  unfold readU8 Params.width
  cases hb : s.cfg.bus with
  | par4 =>
    exact sampling_cycles (k := 1) (k' := 1) h (sampling_latched h) fun hi t _ h =>
      sampling_cycles (k' := 0) h (sampling_latched h) fun lo t _ h => sampling_value h _
  | par8 => exact sampling_latched h
  | ser => rw [hb] at hpar; cases hpar

theorem sampling_readU16 (h : Running i s) (hpar : s.cfg.bus.isParallel = true) :
    Sampling i (16 / s.cfg.width) (fun vs => vs.flatMap (readPulse i)) s (readU16 i s) := by
  have hcycles : 16 / s.cfg.width = 8 / s.cfg.width + (8 / s.cfg.width + 0) := by
    cases hb : s.cfg.bus <;> simp [Params.width, hb]
  rw [hcycles]
  refine sampling_cycles h (sampling_readU8 h hpar) fun hi t hcfg h => ?_
  rw [← hcfg]
  exact sampling_cycles h (sampling_readU8 h (hcfg ▸ hpar)) fun lo t _ h => sampling_value h _

/-- A read access, the wires turned round it (42_parallel_transport.md R153). -/
theorem sampling_parRead {reg : Reg} {read : Nat → State → OpResult α} (h : Running i s)
    (hreg : regRw reg = true)
    (hread : ∀ t, t.cfg = s.cfg → Running i t →
      Sampling i k (fun vs => vs.flatMap (readPulse i)) t (read i t)) :
    Sampling i k (fun vs => [.dir .into, .rs (regRs reg), .rw true] ++ vs.flatMap (readPulse i)
      ++ [.dir .out]) s (parRead i reg read s) := by
  rw [← hreg]
  exact Sampling.congr (sampling_first h (sampling_setDir h .into) fun _ t hcfg h =>
    sampling_first h (sampling_selectReg h reg) fun _ u hcfg' h =>
    sampling_last h (hread u (hcfg'.trans hcfg) h) fun _ h => sampling_setDir h .out)
    fun _ _ => rfl

/-! ### Failure -/

theorem length_fallible_readEvents (ofRam : Bool) (vs : List Byte) :
    (fallible (readEvents i ofRam vs)).length = 4 + 3 * vs.length := by
  have hpulses : (fallible (vs.flatMap (readPulse i))).length = 3 * vs.length := by
    induction vs with
    | nil => rfl
    | cons v vs ih =>
      rw [List.flatMap_cons, fallible_append, List.length_append, ih, List.length_cons, mul_add,
        add_comm]
      rfl
  rw [readEvents, fallible_append, fallible_append, List.length_append, List.length_append, hpulses]
  simp [fallible, Event.canFail]
  omega

/-- A read that fails within its access (44_timing_scheduler.md R195). -/
theorem breaks_schedRead {reg : Reg} {read : Nat → State → OpResult α} {rest : List (Option Nat)}
    (h : Running i s) (hreg : regRw reg = true)
    (hread : ∀ t, t.cfg = s.cfg → Running i t →
      Sampling i k (fun vs => vs.flatMap (readPulse i)) t (read i t))
    (hn : n < 4 + 3 * k) (hv : s.env.verdicts = List.replicate n none ++ some e :: rest) :
    ∃ vs x t, Foretold s.cfg s.env.samples k vs ∧ schedRead i reg read s = .raised x t
      ∧ Breaks i n e [] (readEvents i (regRs reg) vs) s x t
      ∧ (t.line i).schedule = (s.line i).schedule := by
  obtain ⟨w, u, hwait, htrace, hverdicts, hmoves⟩ := awaitDeadline_runs (i := i) h.runs
  have hsamples : u.env.samples = s.env.samples := by
    cases hwait.symm.trans (waitUntil_runs h.runs _)
    exact samples_waited _ s
  have hcfg : u.cfg = s.cfg := hmoves.rest.1
  obtain ⟨vs, hvs, htracks, -⟩ := sampling_parRead (s := u) ⟨hmoves.lt h.lt, hmoves.runs⟩ hreg
    fun t ht h => hread t (ht.trans hcfg) h
  rw [hcfg, hsamples] at hvs
  obtain ⟨ev, t, hraised, hev, hmoves'⟩ := tracks_fails htracks (hverdicts.trans hv) (by
    have hlen := length_fallible_readEvents (i := i) (regRs reg) vs
    rw [hvs.length_eq] at hlen
    exact hlen ▸ hn)
  have hall := hmoves.trans hmoves'
  obtain ⟨part, hpart, hevents⟩ := hmoves'.trace
  have hbefore : beforeFailure n (readEvents i (regRs reg) vs) = .wait 0 :: _ :=
    beforeFailure_wait rfl n _
  refine ⟨vs, errorAt e ev, t, hvs, ?_, ⟨⟨ev, hev, rfl⟩, hall.results,
    ⟨[], w, part, ?_, rfl, ?_⟩, ?_, hall.rest⟩, hall.schedule_eq⟩
  · rw [schedRead, hwait, done_andThen, hraised]
    rfl
  · rw [hpart, htrace, hall.deadline, List.append_nil, List.append_assoc]
    rfl
  · rw [hbefore, hevents]
    rfl
  · rw [List.nil_append, hbefore]
    exact hall.latches

/-! ### The latches a failed read leaves -/

/-- After `m` primitives of the pulses and the turn back, the wires are inputs still, and the enable line
is high between the rise and the fall of a pulse. -/
theorem latches_beforeFailure_pulses : ∀ (vs : List Byte) (m : Nat) (l : Latches),
    m < 1 + 3 * vs.length → l.dir = .into →
    let l' := (beforeFailure m (vs.flatMap (readPulse i) ++ [.dir .out])).foldl (Latches.after i) l
    l'.dir = .into ∧ (m % 3 ≠ 0 → l'.e = true)
  | [], m, l, hm, hl => by
    obtain rfl : m = 0 := by simpa using hm
    exact ⟨hl, fun h => absurd rfl h⟩
  | v :: vs, 0, l, _, hl => ⟨hl, fun h => absurd rfl h⟩
  | v :: vs, 1, l, _, hl => by
    simp [readPulse, beforeFailure, Event.canFail, Latches.after, hl]
  | v :: vs, 2, l, _, hl => by
    simp [readPulse, beforeFailure, Event.canFail, Latches.after, hl]
  | v :: vs, m + 3, l, hm, hl => by
    have hevents : beforeFailure (m + 3) ((v :: vs).flatMap (readPulse i) ++ [.dir .out])
        = readPulse i v ++ beforeFailure m (vs.flatMap (readPulse i) ++ [.dir .out]) := by
      rw [List.flatMap_cons, List.append_assoc, add_comm m 3]
      exact beforeFailure_right (readPulse i v) _ m
    rw [hevents, List.foldl_append, Nat.add_mod_right]
    exact latches_beforeFailure_pulses vs m _ (by rw [List.length_cons] at hm; omega)
      (by simp [readPulse, Latches.after, hl])

/-- The wires are inputs from the first primitive on, and the enable line is high where the sample or the
falling edge of a pulse failed. -/
theorem latches_beforeFailure_read (ofRam : Bool) (l : Latches) (hn : n < 4 + 3 * vs.length) :
    let l' := (beforeFailure n (readEvents i ofRam vs)).foldl (Latches.after i) l
    l'.dir = (if n = 0 then l.dir else .into) ∧ (3 ≤ n → n % 3 ≠ 0 → l'.e = true) := by
  match n with
  | 0 => exact ⟨rfl, nofun⟩
  | 1 | 2 => exact ⟨rfl, by omega⟩
  | n + 3 =>
    have hevents : beforeFailure (n + 3) (readEvents i ofRam vs)
        = [.wait 0, .dir .into, .rs ofRam, .rw true]
          ++ beforeFailure n (vs.flatMap (readPulse i) ++ [.dir .out]) := by
      rw [readEvents, List.append_assoc, add_comm n 3]
      exact beforeFailure_right [.wait 0, .dir .into, .rs ofRam, .rw true] _ n
    obtain ⟨hdir, he⟩ := latches_beforeFailure_pulses (i := i) vs n
      ([.wait 0, .dir .into, .rs ofRam, .rw true].foldl (Latches.after i) l) (by omega) rfl
    rw [hevents, List.foldl_append]
    exact ⟨hdir, fun _ h => he (by omega)⟩

end Sys2Proof.Machine
end

section
/-! Obligations of 60_exceptions.md: where a read fails. -/

namespace Sys2Proof.Machine

variable {α : Type} {i n e k : Nat} {s : State} {rest : List (Option Nat)}

/-- A read operation that fails within its access. -/
theorem readFailed_of_schedRead {reg : Reg} {read : Nat → State → OpResult α}
    {g : α → State → OpResult HostResult} (h : Running i s) (hpar : s.cfg.bus.isParallel = true)
    (hreg : regRw reg = true)
    (hread : ∀ t, t.cfg = s.cfg → Running i t →
      Sampling i k (fun vs => vs.flatMap (readPulse i)) t (read i t))
    (hn : n < 4 + 3 * k) (hv : s.env.verdicts = List.replicate n none ++ some e :: rest) :
    ∃ t, readOperation i (fun s => (schedRead i reg read s).andThen g) s = .next t
      ∧ ReadFailed i n e k (regRs reg) s t := by
  obtain ⟨vs, x, t, hvs, hraised, hbreaks, hschedule⟩ := breaks_schedRead h hreg hread hn hv
  have hfailed := hbreaks.failedIn
  have hlatches := hfailed.latches_eq
  rw [List.nil_append] at hlatches
  obtain ⟨hdir, he⟩ := latches_beforeFailure_read (i := i) (regRs reg) (latches i s)
    (hvs.length_eq.symm ▸ hn)
  rw [← hlatches] at hdir he
  obtain ⟨hdeadline, hmode⟩ := Prod.mk.inj ((schedule_setChipUnknown i true t).trans hschedule)
  refine ⟨_, ?_, vs, hvs.length_eq, hvs.given_eq, hfailed, hdeadline, hmode, hdir, he⟩
  rw [readOperation_parallel hpar]
  exact onLine_of_raised h.lt (by rw [hraised]; rfl)

/-- Settles O49: a read samples the values given where they are given (`Sampling`), so it fails within
the events of the access with those values, and the latches are as the events before the failure left
them. -/
theorem readFailsInPlace : Obligations.ReadFailsInPlace := by
  intro i n e s rest hi hruns hpar hv
  have h : Running i s := ⟨hi, hruns⟩
  refine ⟨fun hn => ?_, fun hn => ?_⟩
  · exact readFailed_of_schedRead h hpar (reg := .status) rfl
      (fun t hcfg h => hcfg ▸ sampling_readU8 h (hcfg ▸ hpar)) hn hv
  · exact readFailed_of_schedRead h hpar (reg := .dataRd) rfl
      (fun t hcfg h => hcfg ▸ sampling_readU16 h (hcfg ▸ hpar)) hn hv

end Sys2Proof.Machine
end
